-- ==== Sys2Proof/Word.lean ====
section
/-! DEFINITION. The value types of the ETCPAK block unit (00_scope.md rules R4 to R7). -/

namespace Sys2Proof

/-- One byte of memory, one 8-bit colour channel. -/
abbrev Byte := BitVec 8

/-- A register or a byte address: `REG_W` = `ADDR_W` = 32 (00_scope.md R4). -/
abbrev Word := BitVec 32

/-- A pixel, packed `0xAABBGGRR` (00_scope.md R5). -/
abbrev Pixel := BitVec 32

/-- A block word, stored form `d` or decode form `w` (00_scope.md R7). -/
abbrev BlockWord := BitVec 64

/-- Sixteen pixels in block-local order: entry `4*c + r` is column `c`, row `r` (00_scope.md R6). -/
abbrev Tile := Vector Pixel 16

/-- The modifier table `MODTAB[cw][sel]`: 8 rows of 4 signed integers (00_scope.md R4). -/
abbrev ModTab := Vector (Vector Int 4) 8

/-- A colour of three 8-bit channels: an expanded endpoint or control point (00_scope.md section 9). -/
structure Rgb where
  r : BitVec 8
  g : BitVec 8
  b : BitVec 8
  deriving DecidableEq, Repr

/-- The five mode classes of a block word (30_encoding.md R59). -/
inductive Mode where
  | indiv
  | diff
  | t
  | h
  | planar
  deriving DecidableEq, Repr

end Sys2Proof
end

