-- ==== Sys2Proof/Config.lean ====
section
/-! DEFINITION. What one platform fixes: the external functions (10_state.md R24) and the `OPEN`
parameters of 00_scope.md R4. -/

namespace Sys2Proof

/-- The external encoder kernel `PRGB` (10_state.md R24): uninterpreted, so nothing can be proved of
the word it returns (notes/assumptions/7.md). -/
opaque Config.prgb : Tile → BlockWord

/-- The external encoder kernel `PRGB_ETC2` (10_state.md R24). -/
opaque Config.prgbEtc2 : Tile → BlockWord

/-- The external encoder kernel `PRGB_AVX2` (10_state.md R24): not assumed equal to `PRGB`. -/
opaque Config.prgbAvx2 : Tile → BlockWord

/-- The external encoder kernel `PRGB_ETC2_AVX2` (10_state.md R24). -/
opaque Config.prgbEtc2Avx2 : Tile → BlockWord

/-- The external dither function `DITHER` (10_state.md R24). -/
opaque Config.dither : Tile → Tile

/-- A range of mapped byte addresses, `base` to `base + size - 1`. -/
structure Region where
  base : Nat
  size : Nat
  deriving DecidableEq, Repr

/-- Accesses of `width` bytes at the addresses `base` to `base + size - 1` that the platform does not map
although each of their bytes exists (20_memory.md R32: `Mapped(a, n)` implies that the bytes are mapped, and
is not implied by it). -/
structure Bar where
  base : Nat
  size : Nat
  width : Nat
  deriving DecidableEq, Repr

/-- The `OPEN` parameters that are plain data (00_scope.md R4). They are a field of `State` so that a
statement about every state holds for every value of them; no command changes them
(notes/assumptions/5.md, notes/assumptions/6.md). -/
structure Params where
  /-- `CAP_AVX2`, the strap that `CAP` shows (10_state.md R14). -/
  capAvx2 : Bool
  /-- The bytes that exist and that the unit may access: the first half of `Mapped` (20_memory.md R32). -/
  regions : List Region
  /-- The accesses that are not mapped although their bytes are: the other half of `Mapped`. -/
  bars : List Bar
  /-- `MODTAB` (30_encoding.md R63). -/
  modtab : ModTab
  deriving DecidableEq, Repr

end Sys2Proof
end

