-- ==== Sys2Proof/Machine/Bits.lean ====
section
/-! DEFINITION. The pure functions of 00_scope.md R8, the byte permutation of 30_encoding.md R53, byte
order (20_memory.md R31) and the default modifier table (30_encoding.md R63). -/

namespace Sys2Proof.Machine

/-- `clamp_u8` (00_scope.md R8). -/
def clampU8 (v : Int) : BitVec 8 :=
  if v < 0 then 0#8 else if 255 < v then 255#8 else BitVec.ofInt 8 v

/-- `expand4` (00_scope.md R8). -/
def expand4 (v : BitVec 4) : BitVec 8 := (v.setWidth 8 <<< 4) ||| v.setWidth 8

/-- `expand5` (00_scope.md R8). -/
def expand5 (v : BitVec 5) : BitVec 8 := (v.setWidth 8 <<< 3) ||| (v.setWidth 8 >>> 2)

/-- `expand6` (00_scope.md R8). -/
def expand6 (v : BitVec 6) : BitVec 8 := (v.setWidth 8 <<< 2) ||| (v.setWidth 8 >>> 4)

/-- `expand7` (00_scope.md R8). -/
def expand7 (v : BitVec 7) : BitVec 8 := (v.setWidth 8 <<< 1) ||| (v.setWidth 8 >>> 6)

/-- `sext3` (00_scope.md R8): the two's-complement reading of a 3-bit field. -/
def sext3 (v : BitVec 3) : Int := if v.toNat < 4 then (v.toNat : Int) else (v.toNat : Int) - 8

/-- The differential sum `v + sext3(dv)`, unreduced (00_scope.md R9 item 2, 30_encoding.md R58). -/
def diffSum (v : BitVec 5) (dv : BitVec 3) : Int := (v.toNat : Int) + sext3 dv

/-- A channel overflows when its candidate lies outside 0 to 31 (30_encoding.md R59). -/
def overflows (v : BitVec 5) (dv : BitVec 3) : Bool :=
  decide (diffSum v dv < 0) || decide (31 < diffSum v dv)

/-- The byte permutation `P` (30_encoding.md R53), as the spec writes it. -/
def permute (d : BlockWord) : BlockWord :=
  ((d &&& 0xFF000000FF000000#64) >>> 24)
    ||| ((d &&& 0x000000FF000000FF#64) <<< 24)
    ||| ((d &&& 0x00FF000000FF0000#64) >>> 8)
    ||| ((d &&& 0x0000FF000000FF00#64) <<< 8)

/-- `rgba` (00_scope.md R5): the pixel of four channels, red in the low byte. -/
def rgba (r g b a : BitVec 8) : Pixel := a ++ b ++ g ++ r

/-- The opaque pixel of a colour: alpha 0xFF (41_decoder.md R87, R88). -/
def opaquePixel (c : Rgb) : Pixel := rgba c.r c.g c.b 0xFF#8

/-- The four bytes of a 32-bit value, lowest address first (20_memory.md R31 item 1). -/
def bytes4 (v : Word) : List Byte :=
  [v.extractLsb' 0 8, v.extractLsb' 8 8, v.extractLsb' 16 8, v.extractLsb' 24 8]

/-- The eight bytes of a stored word, lowest address first (20_memory.md R31 item 2). -/
def bytes8 (d : BlockWord) : List Byte :=
  [d.extractLsb' 0 8, d.extractLsb' 8 8, d.extractLsb' 16 8, d.extractLsb' 24 8,
    d.extractLsb' 32 8, d.extractLsb' 40 8, d.extractLsb' 48 8, d.extractLsb' 56 8]

/-- The 32-bit value of four bytes, lowest address first. -/
def word4 (b0 b1 b2 b3 : Byte) : Word := b3 ++ b2 ++ b1 ++ b0

/-- The stored word of eight bytes, lowest address first. -/
def word8 (b0 b1 b2 b3 b4 b5 b6 b7 : Byte) : BlockWord :=
  b7 ++ b6 ++ b5 ++ b4 ++ b3 ++ b2 ++ b1 ++ b0

/-- The default modifier table (30_encoding.md R63; the spec's general knowledge G1). -/
def standardModtab : ModTab :=
  #v[#v[2, 8, -2, -8], #v[5, 17, -5, -17], #v[9, 29, -9, -29], #v[13, 42, -13, -42],
    #v[18, 60, -18, -60], #v[24, 80, -24, -80], #v[33, 106, -33, -106], #v[47, 183, -47, -183]]

/-- `MODTAB[cw][sel]`. -/
def modifier (tab : ModTab) (cw : BitVec 3) (sel : BitVec 2) : Int :=
  (tab.get cw.toFin).get sel.toFin

end Sys2Proof.Machine
end

