-- ==== Sys2Proof/Machine/State.lean ====
section
/-! DEFINITION. The machine's state as plain data (10_state.md R10 to R25), its reset, and the reasons a
step can stop. INVENTORY.md lists every field with its rule and reset value. -/

namespace Sys2Proof.Machine

/-- `STATUS.ECODE` (10_state.md R12, 60_exceptions.md R130). -/
inductive Err where
  /-- 0: no error since reset. -/
  | none
  /-- 1: `ERR_CMD`. -/
  | cmd
  /-- 2: `ERR_SIZE`. -/
  | size
  /-- 3: `ERR_ALIGN`. -/
  | align
  /-- 4: `ERR_BUS`. -/
  | bus
  /-- 5: `ERR_RANGE`. -/
  | range
  deriving DecidableEq, Repr

/-- One line of a command's pseudocode: what a running command does between two moments at which
another agent can look or act (44_control.md R127 step 5; notes/assumptions/2.md). -/
inductive Act where
  /-- `if WIDTH = 0 or WIDTH mod 4 != 0: raise ERR_SIZE`. -/
  | checkWidth
  /-- `if SRC mod 4 != 0: raise ERR_ALIGN`. -/
  | checkSrc
  /-- `if DST mod 8 != 0: raise ERR_ALIGN`. -/
  | checkDst
  /-- `if CUR_SRC mod 4 != 0: raise ERR_ALIGN`. -/
  | checkCurSrc
  /-- `if CUR_DST mod 8 != 0: raise ERR_ALIGN`. -/
  | checkCurDst
  /-- `CUR_SRC <- SRC`. -/
  | initCurSrc
  /-- `CUR_DST <- (DST + 8 * OFFSET) mod 2^32`. -/
  | initCurDst
  /-- `TCNT <- 0`. -/
  | clearTcnt
  /-- `REM <- BLOCKS`. -/
  | initRem
  /-- `KSEL <- select(...)`. -/
  | select
  /-- `if some a[k] is not admitted for a 4-byte read: raise ERR_BUS`. -/
  | admitTile
  /-- `TILE[k] <- transform(CFG.CHANNELS, MemRead(a[k], 4))`. -/
  | readPixel (k : Fin 16)
  /-- `CUR_SRC <- (CUR_SRC + 16) mod 2^32`. -/
  | stepCurSrc
  /-- `TCNT <- (TCNT + 1) mod 2^32`. -/
  | stepTcnt
  /-- `if TCNT = WIDTH / 4:`, which adds the two lines below it. -/
  | wrapRow
  /-- `CUR_SRC <- (CUR_SRC + 12 * WIDTH) mod 2^32`. -/
  | skipRows
  /-- `(t', d) = KERNEL(KSEL.KID, t)`, which adds the lines that write the result. -/
  | kernel
  /-- `TILE[k] <- v`. -/
  | setTile (k : Fin 16) (v : Pixel)
  /-- `BLK_LO <- v`. -/
  | setBlkLo (v : Word)
  /-- `BLK_HI <- v`. -/
  | setBlkHi (v : Word)
  /-- `MemWrite(CUR_DST, 8, BLK)`. -/
  | memStore
  /-- `d = MemRead(CUR_DST, 8)`, which adds the lines that write `BLK`. -/
  | memLoad
  /-- `CUR_DST <- (CUR_DST + 8) mod 2^32`. -/
  | stepCurDst
  /-- The class and the pixels of `P(BLK)`, which adds the lines that write them. -/
  | decodeBlk
  /-- `PIX[k] <- v`. -/
  | setPix (k : Fin 16) (v : Pixel)
  /-- `STATUS.MODE <- m`, and `STATUS.UNK <- 1` on T and H: one write of one register. -/
  | setMode (m : Mode)
  /-- `check(...)` and the packed word, which adds the lines that write `BLK`. -/
  | packBlk
  /-- `while REM != 0:`, which adds one iteration and itself. -/
  | loop
  /-- `REM <- REM - 1`. -/
  | stepRem
  /-- Every register to its reset value. -/
  | resetAll
  /-- `STATUS.BUSY <- 0`: the command has completed. -/
  | done
  deriving DecidableEq, Repr

/-- What the world outside the unit does next (INVENTORY.md, Host interface; notes/assumptions/1.md). -/
inductive HostEvent where
  /-- A 32-bit write of `v` to offset `off`; a command it starts runs to its end before the next event. -/
  | write (off : BitVec 8) (v : Word)
  /-- A write of `v` to `CMD` whose command is left running: the events after it land during it. -/
  | launch (v : Word)
  /-- The running command does its next line. -/
  | tick
  /-- A 32-bit read of offset `off`. -/
  | read (off : BitVec 8)
  /-- The reset input is asserted (70_reset_and_hazards.md R150, R151). -/
  | hwReset
  /-- The host or another bus master stores these bytes from address `a` on, in one access: all of them at
  once (20_memory.md R41). -/
  | busWrite (a : Word) (bytes : List Byte)
  /-- Another unit comes to the access of its STORE, of the word `d` at `a` (20_memory.md R33, R34 item 2). -/
  | unitStore (a : Word) (d : BlockWord)
  /-- The platform changes `Mapped`; it may while the unit is idle (20_memory.md R32). -/
  | remap (regions : List Region) (bars : List Bar)
  deriving DecidableEq, Repr

/-- The byte-addressed memory: the listed bytes, addresses strictly rising, none equal to what an
unlisted address reads as. -/
abbrev Memory := List Host.Cell

/-- The state of one unit, of the memory it shares, and of what is still to happen to it. -/
structure State where
  /-- `CFG`'s stored bits: [0] CHANNELS, [1] ETC2, [2] DITHER (10_state.md R13). -/
  cfg : BitVec 3
  /-- `KSEL.KID` (10_state.md R15). -/
  ksel : BitVec 3
  /-- `SRC` (10_state.md R16). -/
  src : Word
  /-- `WIDTH` (10_state.md R16). -/
  width : Word
  /-- `DST` (10_state.md R16). -/
  dst : Word
  /-- `OFFSET` (10_state.md R16). -/
  offset : Word
  /-- `BLOCKS` (10_state.md R16). -/
  blocks : Word
  /-- `CUR_SRC` (10_state.md R17). -/
  curSrc : Word
  /-- `CUR_DST` (10_state.md R17). -/
  curDst : Word
  /-- `TCNT` (10_state.md R17). -/
  tcnt : Word
  /-- `REM` (10_state.md R17). -/
  rem : Word
  /-- `BLK = {BLK_HI, BLK_LO}`, a stored word (10_state.md R18). -/
  blk : BlockWord
  /-- `PK0`'s stored bits [8:0] (43_packer.md R116). -/
  pk0 : BitVec 9
  /-- `PK1` (10_state.md R19). -/
  pk1 : Word
  /-- `PK2` (10_state.md R19). -/
  pk2 : Word
  /-- `PK3` (10_state.md R19). -/
  pk3 : Word
  /-- `TILE[0..15]` (10_state.md R20). -/
  tile : Tile
  /-- `PIX[0..15]` (10_state.md R21). -/
  pix : Tile
  /-- `STATUS.BUSY` (10_state.md R12). -/
  busy : Bool
  /-- `STATUS.ECODE` (10_state.md R12). -/
  ecode : Err
  /-- `STATUS.MODE` (10_state.md R12). -/
  mode : Mode
  /-- `STATUS.UNK` (10_state.md R12). -/
  unk : Bool
  /-- The memory behind the unit's master port (20_memory.md R30): not the unit's state. -/
  mem : Memory
  /-- The platform's parameters (00_scope.md R4): no command changes them. -/
  params : Params
  /-- The model's own: the lines the running command has still to do (notes/assumptions/2.md). -/
  todo : List Act
  /-- The model's own: what happens to the unit next, oldest first (notes/assumptions/1.md). -/
  inputs : List HostEvent
  /-- The model's own: what the latest host read returned (notes/assumptions/8.md). -/
  lastRead : Option Word
  deriving DecidableEq, Repr

/-- The unit stops on nothing: every error of the spec is a state it goes on in (60_exceptions.md R130,
R134), so no step ends in a fault and there is no reason to name. -/
inductive Fault where
  deriving DecidableEq, Repr

/-- Why a step has no meaning. -/
inductive Refusal where
  /-- An instruction without a meaning yet, by its mnemonic: raised by exec's arms only; safe. -/
  | notModelled (mnemonic : String)
  /-- A host access that is not an aligned 32-bit one: 10_state.md R22 item 1 leaves it to the platform
  (93_implementation_defined.md U11); raised by the register port; safe. -/
  | unalignedHostAccess
  /-- A block-word term whose fields give another class, so that no block word is it: raised by the
  meanings of `BLOCK.DIFF`, `BLOCK.T`, `BLOCK.H`, `BLOCK.PLANAR`; safe. -/
  | illFormedBlockWord
  /-- `Mapped` changed while the unit is busy, which 20_memory.md R32 says it does not and gives no effect;
  raised by the platform's event; safe. -/
  | remapWhileBusy
  /-- A store of another bus master that reaches past address `2^32 - 1`, where no byte is (20_memory.md R30);
  raised by that store's event; safe. -/
  | busWritePastTop
  deriving DecidableEq, Repr

/-- Reset, hardware or SRESET: every stored register bit 0 (10_state.md R25, 70_reset_and_hazards.md
R150). Memory, the strap and the other parameters, and what happens next are not touched; a command that
was running has ended (R151). -/
def State.resetUnit (s : State) : State :=
  { s with
    cfg := 0#3, ksel := 0#3
    src := 0#32, width := 0#32, dst := 0#32, offset := 0#32, blocks := 0#32
    curSrc := 0#32, curDst := 0#32, tcnt := 0#32, rem := 0#32
    blk := 0#64, pk0 := 0#9, pk1 := 0#32, pk2 := 0#32, pk3 := 0#32
    tile := Vector.replicate 16 0#32, pix := Vector.replicate 16 0#32
    busy := false, ecode := .none, mode := .indiv, unk := false
    todo := [] }

/-- The parameters `State.reset` names (notes/assumptions/6.md): no AVX2, the whole address space mapped,
the default modifier table. -/
def resetParams : Params where
  capAvx2 := false
  regions := [⟨0, 2 ^ 32⟩]
  bars := []
  modtab := standardModtab

/-- The machine right after reset: registers as 10_state.md R25, memory with nothing listed, nothing to
happen yet. -/
def State.reset : State where
  cfg := 0#3
  ksel := 0#3
  src := 0#32
  width := 0#32
  dst := 0#32
  offset := 0#32
  blocks := 0#32
  curSrc := 0#32
  curDst := 0#32
  tcnt := 0#32
  rem := 0#32
  blk := 0#64
  pk0 := 0#9
  pk1 := 0#32
  pk2 := 0#32
  pk3 := 0#32
  tile := Vector.replicate 16 0#32
  pix := Vector.replicate 16 0#32
  busy := false
  ecode := .none
  mode := .indiv
  unk := false
  mem := []
  params := resetParams
  todo := []
  inputs := []
  lastRead := none

end Sys2Proof.Machine
end

