-- ==== Sys2Proof/Machine/Flags.lean ====
section
/-! DEFINITION. The status register: its layout and codes (10_state.md R12, 60_exceptions.md R130) and the
one flag computation of the unit, `MODE` and `UNK` (41_decoder.md R81). -/

namespace Sys2Proof.Machine

/-- `STATUS.MODE`'s code of a class (10_state.md R12). -/
def modeCode : Mode → BitVec 3
  | .indiv => 0#3
  | .diff => 1#3
  | .t => 2#3
  | .h => 3#3
  | .planar => 4#3

/-- `STATUS.ECODE`'s code of an error (60_exceptions.md R130). -/
def errCode : Err → BitVec 4
  | .none => 0#4
  | .cmd => 1#4
  | .size => 2#4
  | .align => 3#4
  | .bus => 4#4
  | .range => 5#4

/-- `STATUS.HALT`: 1 exactly when `ECODE != 0` (10_state.md R12). -/
def State.halted (s : State) : Bool := decide (s.ecode ≠ .none)

/-- The value `STATUS` reads as (10_state.md R12): [11] UNK, [10:8] MODE, [7:4] ECODE, [2] HALT, [0] BUSY. -/
def statusWord (s : State) : Word :=
  0#20 ++ BitVec.ofBool s.unk ++ modeCode s.mode ++ errCode s.ecode
    ++ 0#1 ++ BitVec.ofBool s.halted ++ 0#1 ++ BitVec.ofBool s.busy

/-- The classes the document calls "Unknown mode" (60_exceptions.md R132). -/
def unknownMode : Mode → Bool
  | .indiv => false
  | .diff => false
  | .t => true
  | .h => true
  | .planar => false

/-- DECODE's flags: `MODE` follows the class, `UNK` is set on T and H and never cleared (41_decoder.md R81). -/
def setModeFlags (m : Mode) (s : State) : State :=
  { s with mode := m, unk := s.unk || unknownMode m }

end Sys2Proof.Machine
end

