-- ==== Sys2Proof/Machine/Operands.lean ====
section
/-! DEFINITION. The operands of the commands: the register window (10_state.md R10, R22), the fields of
`CFG` and `PK`, and the addresses and transform of a gathered tile (42_gatherer.md R101, R102). -/

namespace Sys2Proof.Machine

/-! ## The register window -/

/-- The registers of 10_state.md R10, and the reserved offsets. -/
inductive Reg where
  | cmd
  | status
  | cfg
  | cap
  | ksel
  | src
  | width
  | dst
  | offset
  | blocks
  | curSrc
  | curDst
  | tcnt
  | rem
  | blkLo
  | blkHi
  | pk0
  | pk1
  | pk2
  | pk3
  | tile (k : Fin 16)
  | pix (k : Fin 16)
  | reserved
  deriving DecidableEq, Repr

/-- The register at word `n` of the window, offset `4*n` (10_state.md R10). -/
def Reg.ofIndex (n : Nat) : Reg :=
  match n with
  | 0 => .cmd
  | 1 => .status
  | 2 => .cfg
  | 3 => .cap
  | 4 => .ksel
  | 5 => .src
  | 6 => .width
  | 7 => .dst
  | 8 => .offset
  | 9 => .blocks
  | 10 => .curSrc
  | 11 => .curDst
  | 12 => .tcnt
  | 13 => .rem
  | 14 => .blkLo
  | 15 => .blkHi
  | 16 => .pk0
  | 17 => .pk1
  | 18 => .pk2
  | 19 => .pk3
  | n =>
    if 48 ≤ n then .pix (Fin.ofNat 16 (n - 48))
    else if 32 ≤ n then .tile (Fin.ofNat 16 (n - 32))
    else .reserved

/-- The register at an offset of the 256-byte window; none where the access is not aligned (R22 item 1). -/
def Reg.ofOffset (off : BitVec 8) : Option Reg :=
  if off.toNat % 4 = 0 then some (Reg.ofIndex (off.toNat / 4)) else none

/-- The value a host read of a register returns (10_state.md R11 to R22): `CMD` and reserved offsets read 0,
bits that are not stored read 0. -/
def readReg (s : State) : Reg → Word
  | .cmd => 0#32
  | .status => statusWord s
  | .cfg => s.cfg.setWidth 32
  | .cap => (BitVec.ofBool s.params.capAvx2).setWidth 32
  | .ksel => s.ksel.setWidth 32
  | .src => s.src
  | .width => s.width
  | .dst => s.dst
  | .offset => s.offset
  | .blocks => s.blocks
  | .curSrc => s.curSrc
  | .curDst => s.curDst
  | .tcnt => s.tcnt
  | .rem => s.rem
  | .blkLo => s.blk.extractLsb' 0 32
  | .blkHi => s.blk.extractLsb' 32 32
  | .pk0 => s.pk0.setWidth 32
  | .pk1 => s.pk1
  | .pk2 => s.pk2
  | .pk3 => s.pk3
  | .tile k => s.tile[k]
  | .pix k => s.pix[k]
  | .reserved => 0#32

/-- What a write leaves in a register other than `CMD` (10_state.md R22 item 3): read-only registers,
reserved offsets and bits that are not stored ignore it. -/
def writeReg (v : Word) (s : State) : Reg → State
  | .cmd => s
  | .status => s
  | .cfg => { s with cfg := v.extractLsb' 0 3 }
  | .cap => s
  | .ksel => s
  | .src => { s with src := v }
  | .width => { s with width := v }
  | .dst => { s with dst := v }
  | .offset => { s with offset := v }
  | .blocks => { s with blocks := v }
  | .curSrc => s
  | .curDst => s
  | .tcnt => s
  | .rem => s
  | .blkLo => { s with blk := s.blk.extractLsb' 32 32 ++ v }
  | .blkHi => { s with blk := v ++ s.blk.extractLsb' 0 32 }
  | .pk0 => { s with pk0 := v.extractLsb' 0 9 }
  | .pk1 => { s with pk1 := v }
  | .pk2 => { s with pk2 := v }
  | .pk3 => { s with pk3 := v }
  | .tile k => { s with tile := s.tile.set k v }
  | .pix _ => s
  | .reserved => s

/-! ## Fields of `CFG` (10_state.md R13) -/

/-- `CFG.CHANNELS`: true is AlphaAsLuma. -/
def State.alphaAsLuma (s : State) : Bool := s.cfg.getLsbD 0

/-- `CFG.ETC2`. -/
def State.etc2 (s : State) : Bool := s.cfg.getLsbD 1

/-- `CFG.DITHER`, the requested flag. -/
def State.dither (s : State) : Bool := s.cfg.getLsbD 2

/-! ## Fields of `PK0` to `PK3` (43_packer.md R116) -/

/-- `PK0.PMODE`. -/
def State.pmode (s : State) : BitVec 2 := s.pk0.extractLsb' 0 2

/-- `PK0.FLIP`. -/
def State.packFlip (s : State) : Bool := s.pk0.getLsbD 2

/-- `PK0.TCW0`. -/
def State.packTcw0 (s : State) : BitVec 3 := s.pk0.extractLsb' 3 3

/-- `PK0.TCW1`. -/
def State.packTcw1 (s : State) : BitVec 3 := s.pk0.extractLsb' 6 3

/-- The red byte of a colour register. -/
def redByte (x : Word) : BitVec 8 := x.extractLsb' 0 8

/-- The green byte of a colour register. -/
def greenByte (x : Word) : BitVec 8 := x.extractLsb' 8 8

/-- The blue byte of a colour register. -/
def blueByte (x : Word) : BitVec 8 := x.extractLsb' 16 8

/-- Bits [31:24] of a colour register, which must be 0. -/
def topByte (x : Word) : BitVec 8 := x.extractLsb' 24 8

/-! ## The gathered tile -/

/-- `a[k]`, the byte address of pixel `k` of the tile at the cursor (42_gatherer.md R101), `k = 4*c + r`:
`CUR_SRC + 4 * (r * WIDTH + c)` modulo 2^32. -/
def State.tileAddr (s : State) (k : Fin 16) : Word :=
  s.curSrc + 4#32 * (BitVec.ofNat 32 (k.val % 4) * s.width + BitVec.ofNat 32 (k.val / 4))

/-- The channel transform (42_gatherer.md R102). -/
def transform (alphaAsLuma : Bool) (p : Pixel) : Pixel :=
  if alphaAsLuma then
    let a : Pixel := (p.extractLsb' 24 8).setWidth 32
    a ||| (a <<< 8) ||| (a <<< 16)
  else p

end Sys2Proof.Machine
end

