-- ==== Sys2Proof/Machine/Ops.lean ====
section
/-! DEFINITION. The shared operations: memory (20_memory.md R30 to R34), `raise` and the life of a command
(60_exceptions.md R134, 44_control.md R127), and the checks every command applies (R133). -/

namespace Sys2Proof.Machine

/-! ## Memory, one byte -/

/-- What a byte that is not listed reads as (notes/assumptions/4.md). -/
def Memory.blank : Byte := 0#8

/-- The canonical form: addresses strictly rising, no entry that reads as an unlisted byte does. -/
def Memory.wf : Memory → Bool
  | [] => true
  | [(_, v)] => decide (v ≠ Memory.blank)
  | (a, v) :: (b, u) :: rest =>
    decide (a < b) && decide (v ≠ Memory.blank) && Memory.wf ((b, u) :: rest)

/-- The byte at an address. -/
def readByte : Memory → Nat → Byte
  | [], _ => Memory.blank
  | (b, v) :: rest, a => if a = b then v else readByte rest a

/-- The memory with one byte written; writing what an unlisted byte reads as removes the entry. -/
def writeByte (a : Nat) (v : Byte) : Memory → Memory
  | [] => if v = Memory.blank then [] else [(a, v)]
  | (b, u) :: rest =>
    if a < b then
      if v = Memory.blank then (b, u) :: rest else (a, v) :: (b, u) :: rest
    else if a = b then
      if v = Memory.blank then rest else (a, v) :: rest
    else (b, u) :: writeByte a v rest

/-- The memory with consecutive bytes written, the first at `a`. -/
def writeBytes (a : Nat) : List Byte → Memory → Memory
  | [], m => m
  | b :: bs, m => writeBytes (a + 1) bs (writeByte a b m)

/-! ## Memory, the unit's accesses -/

/-- `MemRead(a, 4)`, little-endian (20_memory.md R31 item 1). -/
def memRead4 (m : Memory) (a : Word) : Word :=
  word4 (readByte m a.toNat) (readByte m (a.toNat + 1)) (readByte m (a.toNat + 2))
    (readByte m (a.toNat + 3))

/-- `MemRead(a, 8)`, little-endian (20_memory.md R31 item 2). -/
def memRead8 (m : Memory) (a : Word) : BlockWord :=
  word8 (readByte m a.toNat) (readByte m (a.toNat + 1)) (readByte m (a.toNat + 2))
    (readByte m (a.toNat + 3)) (readByte m (a.toNat + 4)) (readByte m (a.toNat + 5))
    (readByte m (a.toNat + 6)) (readByte m (a.toNat + 7))

/-- `MemWrite(a, 8, d)`, little-endian (20_memory.md R31 item 2). -/
def memWrite8 (m : Memory) (a : Word) (d : BlockWord) : Memory := writeBytes a.toNat (bytes8 d) m

/-- The byte at an address exists and may be accessed by the unit (00_scope.md R4). -/
def mappedByte (p : Params) (a : Nat) : Bool :=
  p.regions.any fun r => decide (r.base ≤ a) && decide (a < r.base + r.size)

/-- The platform refuses accesses of `n` bytes at `a`, whether or not the bytes exist. -/
def barred (p : Params) (a n : Nat) : Bool :=
  p.bars.any fun b => decide (b.width = n) && decide (b.base ≤ a) && decide (a < b.base + b.size)

/-- `Mapped(a, n)` (20_memory.md R32; notes/assumptions/5.md): every one of the `n` bytes is mapped, and the
platform does not refuse the access as a whole. -/
def mapped (p : Params) (a n : Nat) : Bool :=
  ((List.range n).all fun i => mappedByte p (a + i)) && !barred p a n

/-- An access of `n` bytes at `a` is admitted (20_memory.md R32). -/
def admitted (p : Params) (a : Word) (n : Nat) : Bool :=
  decide (a.toNat + n ≤ 2 ^ 32) && mapped p a.toNat n

/-- Every one of GATHER's sixteen reads is admitted (42_gatherer.md R101). -/
def State.tileAdmitted (s : State) : Bool :=
  (List.finRange 16).all fun k => admitted s.params (s.tileAddr k) 4

/-! ## Errors and the life of a command -/

/-- `raise E` (60_exceptions.md R134): the code is recorded, `BUSY` clears, no further line runs, nothing
else changes. It is the unit's one exception entry; nothing is saved and nothing is vectored. -/
def raise (e : Err) (s : State) : State := { s with ecode := e, busy := false, todo := [] }

/-- How a piece of pseudocode ends: it goes on, or a `raise` has stopped the command. -/
inductive Flow where
  | go (s : State)
  | stop (s : State)
  deriving DecidableEq, Repr

/-- Sequencing: after a `raise` no further line runs (60_exceptions.md R134). -/
def Flow.andThen (f : Flow) (g : State → Flow) : Flow :=
  match f with
  | .go s => g s
  | .stop s => .stop s

/-- The state a piece of pseudocode leaves. -/
def Flow.state : Flow → State
  | .go s => s
  | .stop s => s

/-- `STATUS.BUSY <- 1`: the command is accepted (44_control.md R127 step 4). -/
def accept (s : State) : State := { s with busy := true }

/-- `STATUS.BUSY <- 0`: the command has completed (44_control.md R127 step 6). -/
def complete (s : State) : State := { s with busy := false, todo := [] }

/-- How a command ends (44_control.md R127 step 6): completion, or the state its `raise` left. -/
def Flow.finish : Flow → Host.Outcome State Fault Refusal
  | .go s => .next (complete s)
  | .stop s => .next s

/-- Steps 4 to 6 of the life of a command (44_control.md R127), with nothing else happening meanwhile. -/
def runCommand (body : State → Flow) (s : State) : Host.Outcome State Fault Refusal :=
  (body (accept s)).finish

/-! ## The checks (60_exceptions.md R133, 20_memory.md R33) -/

/-- `if not c: raise e`. -/
def require (c : Bool) (e : Err) (s : State) : Flow := if c then .go s else .stop (raise e s)

/-- `WIDTH` is a positive multiple of 4 (10_state.md R16). -/
def State.widthLegal (s : State) : Bool := decide (s.width ≠ 0#32) && decide (s.width.toNat % 4 = 0)

/-- A byte address is a multiple of `n`. -/
def aligned (a : Word) (n : Nat) : Bool := decide (a.toNat % n = 0)

/-- `if WIDTH = 0 or WIDTH mod 4 != 0: raise ERR_SIZE`. -/
def checkWidth (s : State) : Flow := require s.widthLegal .size s

/-- `if SRC mod 4 != 0: raise ERR_ALIGN`. -/
def checkSrc (s : State) : Flow := require (aligned s.src 4) .align s

/-- `if DST mod 8 != 0: raise ERR_ALIGN`. -/
def checkDst (s : State) : Flow := require (aligned s.dst 8) .align s

/-- `if CUR_SRC mod 4 != 0: raise ERR_ALIGN`. -/
def checkCurSrc (s : State) : Flow := require (aligned s.curSrc 4) .align s

/-- `if CUR_DST mod 8 != 0: raise ERR_ALIGN`. -/
def checkCurDst (s : State) : Flow := require (aligned s.curDst 8) .align s

/-- `if some a[k] is not admitted for a 4-byte read: raise ERR_BUS`. -/
def checkTile (s : State) : Flow := require s.tileAdmitted .bus s

/-- The admission of the 8-byte access at `CUR_DST`. -/
def checkBlockAccess (s : State) : Flow := require (admitted s.params s.curDst 8) .bus s

/-- `CUR_DST <- (CUR_DST + 8) mod 2^32` (42_gatherer.md R104, 41_decoder.md R80). -/
def stepCurDst (s : State) : State := { s with curDst := s.curDst + 8#32 }

end Sys2Proof.Machine
end

