-- ==== Sys2Proof/Machine/Control.lean ====
section
/-! DEFINITION. The control commands NOP and SRESET (44_control.md). -/

namespace Sys2Proof.Machine

/-- NOP (44_control.md R125): `BUSY` goes to 1 and back to 0. -/
def execNop (s : State) : Host.Outcome State Fault Refusal := runCommand (fun s => .go s) s

/-- SRESET (44_control.md R126): every register to its reset value, memory untouched. -/
def execSreset (s : State) : Host.Outcome State Fault Refusal :=
  runCommand (fun s => .go s.resetUnit) s

end Sys2Proof.Machine
end

