-- ==== Sys2Proof/Syntax.lean ====
section
/-! DEFINITION. The instructions: one constructor per row of spec/opcode_table.json, the eleven
commands of 30_encoding.md R51 and the five block-word classes of R56 to R64. -/

namespace Sys2Proof

/-- The fields of an `INDIV` word (30_encoding.md R56, R57). -/
structure IndivFields where
  flip : Bool
  tcw0 : BitVec 3
  tcw1 : BitVec 3
  r1 : BitVec 4
  g1 : BitVec 4
  b1 : BitVec 4
  r2 : BitVec 4
  g2 : BitVec 4
  b2 : BitVec 4
  selL : BitVec 16
  selM : BitVec 16
  deriving DecidableEq, Repr

/-- The fields of a `DIFF` word (30_encoding.md R56, R58). -/
structure DiffFields where
  flip : Bool
  tcw0 : BitVec 3
  tcw1 : BitVec 3
  r1 : BitVec 5
  g1 : BitVec 5
  b1 : BitVec 5
  dr : BitVec 3
  dg : BitVec 3
  db : BitVec 3
  selL : BitVec 16
  selM : BitVec 16
  deriving DecidableEq, Repr

/-- A `T` word: the two fields that make it one, and the bits that have no layout in the spec
(30_encoding.md R64), kept so that no bit of the word is lost. -/
structure TFields where
  r1 : BitVec 5
  dr : BitVec 3
  /-- `w[63:32]`. -/
  high : BitVec 32
  /-- `w[23:2]`. -/
  low : BitVec 22
  /-- `w[0]`. -/
  bit0 : Bool
  deriving DecidableEq, Repr

/-- An `H` word: the four fields that make it one, and the bits that have no layout in the spec. -/
structure HFields where
  r1 : BitVec 5
  dr : BitVec 3
  g1 : BitVec 5
  dg : BitVec 3
  /-- `w[63:32]`. -/
  high : BitVec 32
  /-- `w[15:2]`. -/
  low : BitVec 14
  /-- `w[0]`. -/
  bit0 : Bool
  deriving DecidableEq, Repr

/-- The nine colour fields and six free bits of a `PLANAR` word (30_encoding.md R61). -/
structure PlanarFields where
  ro : BitVec 6
  go : BitVec 7
  bo : BitVec 6
  rh : BitVec 6
  gh : BitVec 7
  bh : BitVec 6
  rv : BitVec 6
  gv : BitVec 7
  bv : BitVec 6
  /-- `w[31]`. -/
  f31 : Bool
  /-- `w[23]`. -/
  f23 : Bool
  /-- `w[15:13]`. -/
  f15_13 : BitVec 3
  /-- `w[10]`. -/
  f10 : Bool
  deriving DecidableEq, Repr

/-- One constructor per row of the opcode table. A block-word constructor stands for a 64-bit block
word of that class: no command, but what DECODE decodes (notes/assumptions/10.md). -/
inductive Instr where
  | nop
  | select
  | gather
  | encode
  | store
  | process
  | load
  | decode
  | pack
  | start
  | sreset
  | blockIndiv (f : IndivFields)
  | blockDiff (f : DiffFields)
  | blockT (f : TFields)
  | blockH (f : HFields)
  | blockPlanar (f : PlanarFields)
  deriving DecidableEq, Repr

end Sys2Proof
end

