-- ==== Sys2Proof/WellFormed.lean ====
section
/-! DEFINITION. Which instruction terms stand for a word: a command always does; a block-word term does
when its fields give its own class and no other (30_encoding.md R59). -/

namespace Sys2Proof

/-- The 5-bit field `w[31:27]` that mode detection reads in a planar word (30_encoding.md R61). -/
def PlanarFields.r1 (f : PlanarFields) : BitVec 5 := BitVec.ofBool f.f31 ++ f.ro.extractLsb' 2 4

/-- The 3-bit field `w[26:24]` of a planar word. -/
def PlanarFields.dr (f : PlanarFields) : BitVec 3 := f.ro.extractLsb' 0 2 ++ f.go.extractLsb' 6 1

/-- The 5-bit field `w[23:19]` of a planar word. -/
def PlanarFields.g1 (f : PlanarFields) : BitVec 5 := BitVec.ofBool f.f23 ++ f.go.extractLsb' 2 4

/-- The 3-bit field `w[18:16]` of a planar word. -/
def PlanarFields.dg (f : PlanarFields) : BitVec 3 := f.go.extractLsb' 0 2 ++ f.bo.extractLsb' 5 1

/-- The 5-bit field `w[15:11]` of a planar word. -/
def PlanarFields.b1 (f : PlanarFields) : BitVec 5 := f.f15_13 ++ f.bo.extractLsb' 3 2

/-- The 3-bit field `w[10:8]` of a planar word. -/
def PlanarFields.db (f : PlanarFields) : BitVec 3 := BitVec.ofBool f.f10 ++ f.bo.extractLsb' 1 2

/-- No channel of a `DIFF` word overflows (30_encoding.md R59). -/
def DiffFields.wf (f : DiffFields) : Bool :=
  !Machine.overflows f.r1 f.dr && !Machine.overflows f.g1 f.dg && !Machine.overflows f.b1 f.db

/-- Red of a `T` word overflows. -/
def TFields.wf (f : TFields) : Bool := Machine.overflows f.r1 f.dr

/-- Green of an `H` word overflows and red does not. -/
def HFields.wf (f : HFields) : Bool :=
  !Machine.overflows f.r1 f.dr && Machine.overflows f.g1 f.dg

/-- Blue of a `PLANAR` word overflows, red and green do not. -/
def PlanarFields.wf (f : PlanarFields) : Bool :=
  !Machine.overflows f.r1 f.dr && !Machine.overflows f.g1 f.dg && Machine.overflows f.b1 f.db

/-- The instruction stands for a word of its own row of the opcode table. -/
def Instr.wellFormed : Instr → Bool
  | .nop => true
  | .select => true
  | .gather => true
  | .encode => true
  | .store => true
  | .process => true
  | .load => true
  | .decode => true
  | .pack => true
  | .start => true
  | .sreset => true
  | .blockIndiv _ => true
  | .blockDiff f => f.wf
  | .blockT f => f.wf
  | .blockH f => f.wf
  | .blockPlanar f => f.wf

end Sys2Proof
end

