-- ==== Sys2Proof/Decode.lean ====
section
/-! DEFINITION. The decoder, total on any bytes and rejecting by name, and after it the encoder, both
from the encoding tables of 30_encoding.md. -/

namespace Sys2Proof

open Machine (permute bytes4 bytes8 word4 word8 overflows)

/-- The two kinds of encoded word of 30_encoding.md: a command word written to `CMD`, and a block word. -/
inductive WordKind where
  | command
  | block
  deriving DecidableEq, Repr

/-- Why bytes are rejected. -/
inductive DecodeError where
  /-- A 32-bit word that is not one of the eleven of 30_encoding.md R51: R52, `ERR_CMD`. -/
  | illegalCommand
  /-- Fewer bytes than the word needs (4 or 8): no rule gives them a meaning. -/
  | truncated
  deriving DecidableEq, Repr

/-! ## Command words -/

/-- The opcode map (30_encoding.md R51); every other word is illegal (R52). -/
def decodeCommand (v : Word) : Except DecodeError Instr :=
  match v.toNat with
  | 0x0 => .ok .nop
  | 0x1 => .ok .select
  | 0x2 => .ok .gather
  | 0x3 => .ok .encode
  | 0x4 => .ok .store
  | 0x5 => .ok .process
  | 0x6 => .ok .load
  | 0x7 => .ok .decode
  | 0x8 => .ok .pack
  | 0x9 => .ok .start
  | 0xF => .ok .sreset
  | _ => .error .illegalCommand

/-! ## Block words: every position is a position in the decode word `w` -/

/-- `r1`, `w[31:27]` (30_encoding.md R58). -/
def fieldR1 (w : BlockWord) : BitVec 5 := w.extractLsb' 27 5
/-- `dr`, `w[26:24]`. -/
def fieldDr (w : BlockWord) : BitVec 3 := w.extractLsb' 24 3
/-- `g1`, `w[23:19]`. -/
def fieldG1 (w : BlockWord) : BitVec 5 := w.extractLsb' 19 5
/-- `dg`, `w[18:16]`. -/
def fieldDg (w : BlockWord) : BitVec 3 := w.extractLsb' 16 3
/-- `b1`, `w[15:11]`. -/
def fieldB1 (w : BlockWord) : BitVec 5 := w.extractLsb' 11 5
/-- `db`, `w[10:8]`. -/
def fieldDb (w : BlockWord) : BitVec 3 := w.extractLsb' 8 3

/-- `class(w)` (30_encoding.md R59, 41_decoder.md R82): red is tested before green, green before blue. -/
def classify (w : BlockWord) : Mode :=
  if w.getLsbD 1 = false then .indiv
  else if overflows (fieldR1 w) (fieldDr w) then .t
  else if overflows (fieldG1 w) (fieldDg w) then .h
  else if overflows (fieldB1 w) (fieldDb w) then .planar
  else .diff

/-- Field extraction of format `INDIV` (30_encoding.md R56, R57). -/
def indivFields (w : BlockWord) : IndivFields where
  flip := w.getLsbD 0
  tcw0 := w.extractLsb' 5 3
  tcw1 := w.extractLsb' 2 3
  r1 := w.extractLsb' 28 4
  g1 := w.extractLsb' 20 4
  b1 := w.extractLsb' 12 4
  r2 := w.extractLsb' 24 4
  g2 := w.extractLsb' 16 4
  b2 := w.extractLsb' 8 4
  selL := w.extractLsb' 32 16
  selM := w.extractLsb' 48 16

/-- Field extraction of format `DIFF` (30_encoding.md R56, R58). -/
def diffFields (w : BlockWord) : DiffFields where
  flip := w.getLsbD 0
  tcw0 := w.extractLsb' 5 3
  tcw1 := w.extractLsb' 2 3
  r1 := fieldR1 w
  g1 := fieldG1 w
  b1 := fieldB1 w
  dr := fieldDr w
  dg := fieldDg w
  db := fieldDb w
  selL := w.extractLsb' 32 16
  selM := w.extractLsb' 48 16

/-- The fields of a `T` word, the bits without a layout kept as they are (30_encoding.md R64). -/
def tFields (w : BlockWord) : TFields where
  r1 := fieldR1 w
  dr := fieldDr w
  high := w.extractLsb' 32 32
  low := w.extractLsb' 2 22
  bit0 := w.getLsbD 0

/-- The fields of an `H` word, the bits without a layout kept as they are. -/
def hFields (w : BlockWord) : HFields where
  r1 := fieldR1 w
  dr := fieldDr w
  g1 := fieldG1 w
  dg := fieldDg w
  high := w.extractLsb' 32 32
  low := w.extractLsb' 2 14
  bit0 := w.getLsbD 0

/-- Field extraction of format `PLANAR`, split fields assembled (30_encoding.md R61). -/
def planarFields (w : BlockWord) : PlanarFields where
  ro := w.extractLsb' 25 6
  go := w.extractLsb' 24 1 ++ w.extractLsb' 17 6
  bo := w.extractLsb' 16 1 ++ w.extractLsb' 11 2 ++ w.extractLsb' 7 3
  rh := w.extractLsb' 2 5 ++ w.extractLsb' 0 1
  gh := w.extractLsb' 57 7
  bh := w.extractLsb' 51 6
  rv := w.extractLsb' 45 6
  gv := w.extractLsb' 38 7
  bv := w.extractLsb' 32 6
  f31 := w.getLsbD 31
  f23 := w.getLsbD 23
  f15_13 := w.extractLsb' 13 3
  f10 := w.getLsbD 10

/-- The block-word row a decode word belongs to: total, no block word is illegal (30_encoding.md R65). -/
def decodeBlock (w : BlockWord) : Instr :=
  match classify w with
  | .indiv => .blockIndiv (indivFields w)
  | .diff => .blockDiff (diffFields w)
  | .t => .blockT (tFields w)
  | .h => .blockH (hFields w)
  | .planar => .blockPlanar (planarFields w)

/-- The decoder on bytes, lowest address first: a command word of 4 bytes, a block word of 8 bytes in
stored form to which `P` is applied (20_memory.md R31). It answers the instruction and the bytes left. -/
def decode : WordKind → List Byte → Except DecodeError (Instr × List Byte)
  | .command, b0 :: b1 :: b2 :: b3 :: rest =>
    match decodeCommand (word4 b0 b1 b2 b3) with
    | .ok i => .ok (i, rest)
    | .error e => .error e
  | .block, b0 :: b1 :: b2 :: b3 :: b4 :: b5 :: b6 :: b7 :: rest =>
    .ok (decodeBlock (permute (word8 b0 b1 b2 b3 b4 b5 b6 b7)), rest)
  | .command, _ => .error .truncated
  | .block, _ => .error .truncated

/-! ## The encoder -/

/-- The decode word of an `INDIV` block (30_encoding.md R56, R57; 43_packer.md R117). -/
def indivWord (f : IndivFields) : BlockWord :=
  f.selM ++ f.selL ++ f.r1 ++ f.r2 ++ f.g1 ++ f.g2 ++ f.b1 ++ f.b2
    ++ f.tcw0 ++ f.tcw1 ++ 0#1 ++ BitVec.ofBool f.flip

/-- The decode word of a `DIFF` block (30_encoding.md R56, R58; 43_packer.md R118). -/
def diffWord (f : DiffFields) : BlockWord :=
  f.selM ++ f.selL ++ f.r1 ++ f.dr ++ f.g1 ++ f.dg ++ f.b1 ++ f.db
    ++ f.tcw0 ++ f.tcw1 ++ 1#1 ++ BitVec.ofBool f.flip

/-- The decode word of a `T` block. -/
def tWord (f : TFields) : BlockWord :=
  f.high ++ f.r1 ++ f.dr ++ f.low ++ 1#1 ++ BitVec.ofBool f.bit0

/-- The decode word of an `H` block. -/
def hWord (f : HFields) : BlockWord :=
  f.high ++ f.r1 ++ f.dr ++ f.g1 ++ f.dg ++ f.low ++ 1#1 ++ BitVec.ofBool f.bit0

/-- The decode word of a `PLANAR` block (30_encoding.md R61; 43_packer.md R119). -/
def planarWord (f : PlanarFields) : BlockWord :=
  f.gh ++ f.bh ++ f.rv ++ f.gv ++ f.bv
    ++ BitVec.ofBool f.f31 ++ f.ro ++ f.go.extractLsb' 6 1
    ++ BitVec.ofBool f.f23 ++ f.go.extractLsb' 0 6 ++ f.bo.extractLsb' 5 1
    ++ f.f15_13 ++ f.bo.extractLsb' 3 2 ++ BitVec.ofBool f.f10 ++ f.bo.extractLsb' 0 3
    ++ f.rh.extractLsb' 1 5 ++ 1#1 ++ f.rh.extractLsb' 0 1

/-- What an instruction is encoded as: a command word, or a decode word. -/
inductive Encoded where
  | command (v : Word)
  | block (w : BlockWord)
  deriving DecidableEq, Repr

/-- The word of an instruction, from the opcode map (30_encoding.md R51) and the block formats. -/
def encodeWord : Instr → Encoded
  | .nop => .command 0x00000000#32
  | .select => .command 0x00000001#32
  | .gather => .command 0x00000002#32
  | .encode => .command 0x00000003#32
  | .store => .command 0x00000004#32
  | .process => .command 0x00000005#32
  | .load => .command 0x00000006#32
  | .decode => .command 0x00000007#32
  | .pack => .command 0x00000008#32
  | .start => .command 0x00000009#32
  | .sreset => .command 0x0000000F#32
  | .blockIndiv f => .block (indivWord f)
  | .blockDiff f => .block (diffWord f)
  | .blockT f => .block (tWord f)
  | .blockH f => .block (hWord f)
  | .blockPlanar f => .block (planarWord f)

/-- Which kind of word an instruction is encoded as. -/
def Encoded.kind : Encoded → WordKind
  | .command _ => .command
  | .block _ => .block

/-- The bytes of an encoded word, lowest address first: a block word is stored as `d = P(w)`. -/
def Encoded.bytes : Encoded → List Byte
  | .command v => bytes4 v
  | .block w => bytes8 (permute w)

/-- The encoder: the bytes of a well-formed instruction. -/
def encode (i : Instr) : List Byte := (encodeWord i).bytes

/-- The host's question: the instruction whose bits are `w`, numbered as the opcode table numbers them.
The table's 32-bit rows are command words; its block rows number the decode word, which the hardware
stores as `d = P(w)` (notes/assumptions/11.md). -/
def decodeTableWord (nbits w : Nat) : Option Instr :=
  let (kind, bytes) :=
    if nbits = 32 then (WordKind.command, bytes4 (BitVec.ofNat 32 w))
    else (WordKind.block, bytes8 (permute (BitVec.ofNat 64 w)))
  match decode kind bytes with
  | .ok (i, _) => some i
  | .error _ => none

end Sys2Proof
end

