-- ==== Sys2Proof/Machine/Decoder.lean ====
section
/-! DEFINITION. The block decoder: LOAD, DECODE and the five classes of block word (41_decoder.md). -/

namespace Sys2Proof.Machine

/-! ## Pixels of the ETC1 classes -/

/-- `sel(k)`: the most significant bit from `selM`, the least from `selL` (41_decoder.md R86). -/
def selector (selL selM : BitVec 16) (k : Fin 16) : BitVec 2 :=
  BitVec.ofBool (selM.getLsbD k.val) ++ BitVec.ofBool (selL.getLsbD k.val)

/-- Pixel `k` is in the first sub-block: rows 0, 1 when the flip bit is set, else columns 0, 1
(41_decoder.md R85). -/
def inFirstSubBlock (flip : Bool) (k : Fin 16) : Bool :=
  if flip then decide (k.val % 4 < 2) else decide (k.val / 4 < 2)

/-- One channel: `clamp_u8(base + modifier)` (41_decoder.md R87). -/
def modulate (base : BitVec 8) (m : Int) : BitVec 8 := clampU8 ((base.toNat : Int) + m)

/-- The opaque pixel of a base colour and a modifier (41_decoder.md R87). -/
def modulatedPixel (base : Rgb) (m : Int) : Pixel :=
  opaquePixel ⟨modulate base.r m, modulate base.g m, modulate base.b m⟩

/-- The sixteen pixels of an ETC1 word from its endpoints, codewords, flip bit and selectors
(41_decoder.md R85 to R87). -/
def etc1Pixels (tab : ModTab) (flip : Bool) (tcw0 tcw1 : BitVec 3) (c1 c2 : Rgb)
    (selL selM : BitVec 16) : Tile :=
  Vector.ofFn fun k =>
    if inFirstSubBlock flip k then modulatedPixel c1 (modifier tab tcw0 (selector selL selM k))
    else modulatedPixel c2 (modifier tab tcw1 (selector selL selM k))

/-- Endpoint 1 of an `INDIV` word (41_decoder.md R83). -/
def indivEndpoint1 (f : IndivFields) : Rgb := ⟨expand4 f.r1, expand4 f.g1, expand4 f.b1⟩

/-- Endpoint 2 of an `INDIV` word (41_decoder.md R83). -/
def indivEndpoint2 (f : IndivFields) : Rgb := ⟨expand4 f.r2, expand4 f.g2, expand4 f.b2⟩

/-- The pixels of an `INDIV` word (41_decoder.md R83, R85 to R87). -/
def indivPixels (tab : ModTab) (f : IndivFields) : Tile :=
  etc1Pixels tab f.flip f.tcw0 f.tcw1 (indivEndpoint1 f) (indivEndpoint2 f) f.selL f.selM

/-- Endpoint 1 of a `DIFF` word (41_decoder.md R84). -/
def diffEndpoint1 (f : DiffFields) : Rgb := ⟨expand5 f.r1, expand5 f.g1, expand5 f.b1⟩

/-- A channel of endpoint 2 of a `DIFF` word: the sum, which is in 0 to 31 there, expanded (R84). -/
def diffChannel2 (v : BitVec 5) (dv : BitVec 3) : BitVec 8 := expand5 (BitVec.ofInt 5 (diffSum v dv))

/-- Endpoint 2 of a `DIFF` word (41_decoder.md R84). -/
def diffEndpoint2 (f : DiffFields) : Rgb :=
  ⟨diffChannel2 f.r1 f.dr, diffChannel2 f.g1 f.dg, diffChannel2 f.b1 f.db⟩

/-- The pixels of a `DIFF` word (41_decoder.md R84 to R87). -/
def diffPixels (tab : ModTab) (f : DiffFields) : Tile :=
  etc1Pixels tab f.flip f.tcw0 f.tcw1 (diffEndpoint1 f) (diffEndpoint2 f) f.selL f.selM

/-! ## Pixels of the other classes -/

/-- One channel of a planar pixel at column `i`, row `j`: an exact signed sum, arithmetic shift, clamp
(41_decoder.md R88, 00_scope.md R9 item 3). -/
def planarChannel (i j : Nat) (o h v : BitVec 8) : BitVec 8 :=
  clampU8 (((i : Int) * ((h.toNat : Int) - (o.toNat : Int))
    + (j : Int) * ((v.toNat : Int) - (o.toNat : Int)) + 4 * (o.toNat : Int) + 2) >>> (2 : Nat))

/-- The pixels of a `PLANAR` word (41_decoder.md R88): `i` is the column, `j` the row. -/
def planarPixels (f : PlanarFields) : Tile :=
  Vector.ofFn fun k =>
    opaquePixel
      ⟨planarChannel (k.val / 4) (k.val % 4) (expand6 f.ro) (expand6 f.rh) (expand6 f.rv),
        planarChannel (k.val / 4) (k.val % 4) (expand7 f.go) (expand7 f.gh) (expand7 f.gv),
        planarChannel (k.val / 4) (k.val % 4) (expand6 f.bo) (expand6 f.bh) (expand6 f.bv)⟩

/-- The pixels of a `T` or `H` word: opaque black (41_decoder.md R89). -/
def blackPixels : Tile := Vector.replicate 16 0xFF000000#32

/-- The pixels of a decode word (41_decoder.md R81). -/
def blockPixels (tab : ModTab) (w : BlockWord) : Tile :=
  match classify w with
  | .indiv => indivPixels tab (indivFields w)
  | .diff => diffPixels tab (diffFields w)
  | .t => blackPixels
  | .h => blackPixels
  | .planar => planarPixels (planarFields w)

/-! ## The commands -/

/-- What decoding a block of class `m` with pixels `px` leaves (41_decoder.md R81). -/
def showBlock (m : Mode) (px : Tile) (s : State) : State := setModeFlags m { s with pix := px }

/-- DECODE's pseudocode (41_decoder.md R81): `BLK` holds the stored word, `P` gives the decode word. -/
def decodeBody (s : State) : State :=
  showBlock (classify (permute s.blk)) (blockPixels s.params.modtab (permute s.blk)) s

/-- LOAD's pseudocode (41_decoder.md R80). -/
def loadBody (s : State) : Flow :=
  (checkCurDst s).andThen fun s =>
  (checkBlockAccess s).andThen fun s =>
  .go (stepCurDst { s with blk := memRead8 s.mem s.curDst })

/-- LOAD (41_decoder.md R80). -/
def execLoad (s : State) : Host.Outcome State Fault Refusal := runCommand loadBody s

/-- DECODE (41_decoder.md R81). -/
def execDecode (s : State) : Host.Outcome State Fault Refusal :=
  runCommand (fun s => .go (decodeBody s)) s

/-! ## The block words: what DECODE does with a word of the row (notes/assumptions/10.md) -/

/-- BLOCK.INDIV (41_decoder.md R83, R85 to R87). -/
def execBlockIndiv (f : IndivFields) (s : State) : Host.Outcome State Fault Refusal :=
  runCommand (fun s => .go (showBlock .indiv (indivPixels s.params.modtab f) s)) s

/-- BLOCK.DIFF (41_decoder.md R84 to R87): fields whose sums leave 0 to 31 are no `DIFF` word. -/
def execBlockDiff (f : DiffFields) (s : State) : Host.Outcome State Fault Refusal :=
  if f.wf then runCommand (fun s => .go (showBlock .diff (diffPixels s.params.modtab f) s)) s
  else .refused .illFormedBlockWord

/-- BLOCK.T (41_decoder.md R89). -/
def execBlockT (f : TFields) (s : State) : Host.Outcome State Fault Refusal :=
  if f.wf then runCommand (fun s => .go (showBlock .t blackPixels s)) s
  else .refused .illFormedBlockWord

/-- BLOCK.H (41_decoder.md R89). -/
def execBlockH (f : HFields) (s : State) : Host.Outcome State Fault Refusal :=
  if f.wf then runCommand (fun s => .go (showBlock .h blackPixels s)) s
  else .refused .illFormedBlockWord

/-- BLOCK.PLANAR (41_decoder.md R88). -/
def execBlockPlanar (f : PlanarFields) (s : State) : Host.Outcome State Fault Refusal :=
  if f.wf then runCommand (fun s => .go (showBlock .planar (planarPixels f) s)) s
  else .refused .illFormedBlockWord

end Sys2Proof.Machine
end

