-- ==== Sys2Proof/Machine/Selector.lean ====
section
/-! DEFINITION. The kernel selector and dispatch: SELECT and ENCODE (40_selector.md). -/

namespace Sys2Proof.Machine

/-- The selection function (40_selector.md R71): bit 0 etc2, bit 1 the effective dither, bit 2 avx2. -/
def selectKernel (alphaAsLuma etc2 dither avx2 : Bool) : BitVec 3 :=
  BitVec.ofBool avx2 ++ BitVec.ofBool (dither && !alphaAsLuma) ++ BitVec.ofBool etc2

/-- The base kernel of an id: `{kid[2], kid[0]}` (40_selector.md R72). -/
def baseKernel (kid : BitVec 3) : Tile → BlockWord :=
  match kid.getLsbD 2, kid.getLsbD 0 with
  | false, false => Config.prgb
  | false, true => Config.prgbEtc2
  | true, false => Config.prgbAvx2
  | true, true => Config.prgbEtc2Avx2

/-- The tile the base kernel reads: dithered when `kid[1]` is set (40_selector.md R72). -/
def ditheredTile (kid : BitVec 3) (t : Tile) : Tile := if kid.getLsbD 1 then Config.dither t else t

/-- `KERNEL(kid, t)`: the tile as left in the buffer, and the stored word (40_selector.md R72). -/
def kernel (kid : BitVec 3) (t : Tile) : Tile × BlockWord :=
  (ditheredTile kid t, baseKernel kid (ditheredTile kid t))

/-- SELECT's pseudocode (40_selector.md R70). -/
def selectBody (s : State) : State :=
  { s with ksel := selectKernel s.alphaAsLuma s.etc2 s.dither s.params.capAvx2 }

/-- ENCODE's pseudocode (40_selector.md R73). -/
def encodeBody (s : State) : State :=
  { s with tile := (kernel s.ksel s.tile).1, blk := (kernel s.ksel s.tile).2 }

/-- SELECT (40_selector.md R70). -/
def execSelect (s : State) : Host.Outcome State Fault Refusal :=
  runCommand (fun s => .go (selectBody s)) s

/-- ENCODE (40_selector.md R73). -/
def execEncode (s : State) : Host.Outcome State Fault Refusal :=
  runCommand (fun s => .go (encodeBody s)) s

end Sys2Proof.Machine
end

