-- ==== Sys2Proof/Machine/Gatherer.lean ====
section
/-! DEFINITION. The tile gatherer: START, GATHER, STORE and PROCESS (42_gatherer.md). -/

namespace Sys2Proof.Machine

/-- The cursor START sets (42_gatherer.md R100). -/
def initCursor (s : State) : State :=
  { s with curSrc := s.src, curDst := s.dst + 8#32 * s.offset, tcnt := 0#32, rem := s.blocks }

/-- START's pseudocode (42_gatherer.md R100). -/
def startBody (s : State) : Flow :=
  (checkWidth s).andThen fun s =>
  (checkSrc s).andThen fun s =>
  (checkDst s).andThen fun s =>
  .go (initCursor s)

/-- The tile at the source cursor, read and transformed (42_gatherer.md R101, R102). -/
def readTile (s : State) : Tile :=
  Vector.ofFn fun k => transform s.alphaAsLuma (memRead4 s.mem (s.tileAddr k))

/-- `advance()` (42_gatherer.md R103): one tile to the right; after `WIDTH / 4` tiles also three rows down. -/
def advance (s : State) : State :=
  let s := { s with curSrc := s.curSrc + 16#32, tcnt := s.tcnt + 1#32 }
  if s.tcnt = s.width / 4#32 then
    { s with curSrc := s.curSrc + 12#32 * s.width, tcnt := 0#32 }
  else s

/-- GATHER's pseudocode (42_gatherer.md R101). -/
def gatherBody (s : State) : Flow :=
  (checkWidth s).andThen fun s =>
  (checkCurSrc s).andThen fun s =>
  (checkTile s).andThen fun s =>
  .go (advance { s with tile := readTile s })

/-- STORE's pseudocode (42_gatherer.md R104): one 8-byte write of `BLK` as held. -/
def storeBody (s : State) : Flow :=
  (checkCurDst s).andThen fun s =>
  (checkBlockAccess s).andThen fun s =>
  .go (stepCurDst { s with mem := memWrite8 s.mem s.curDst s.blk })

/-- One iteration of PROCESS's loop (42_gatherer.md R105). -/
def processBlock (s : State) : Flow :=
  (gatherBody s).andThen fun s =>
  (storeBody (encodeBody s)).andThen fun s =>
  .go { s with rem := s.rem - 1#32 }

/-- `while REM != 0` (42_gatherer.md R105). The bound is the trip count, fixed at START (44_control.md R129). -/
def processLoop : Nat → State → Flow
  | 0, s => .go s
  | n + 1, s => if s.rem = 0#32 then .go s else (processBlock s).andThen (processLoop n)

/-- PROCESS's pseudocode (42_gatherer.md R105): the kernel is selected once, before the loop. -/
def processBody (s : State) : Flow :=
  (startBody s).andThen fun s => processLoop s.rem.toNat (selectBody s)

/-- START (42_gatherer.md R100). -/
def execStart (s : State) : Host.Outcome State Fault Refusal := runCommand startBody s

/-- GATHER (42_gatherer.md R101). -/
def execGather (s : State) : Host.Outcome State Fault Refusal := runCommand gatherBody s

/-- STORE (42_gatherer.md R104). -/
def execStore (s : State) : Host.Outcome State Fault Refusal := runCommand storeBody s

/-- PROCESS (42_gatherer.md R105). -/
def execProcess (s : State) : Host.Outcome State Fault Refusal := runCommand processBody s

end Sys2Proof.Machine
end

