-- ==== Sys2Proof/Machine/Packer.lean ====
section
/-! DEFINITION. The block-codec bit-packer: PACK (43_packer.md). -/

namespace Sys2Proof.Machine

/-- The three bytes of a colour register are at most the three maxima (43_packer.md R120 item 3). -/
def colourWithin (x : Word) (r g b : Nat) : Bool :=
  decide ((redByte x).toNat ≤ r) && decide ((greenByte x).toNat ≤ g) && decide ((blueByte x).toNat ≤ b)

/-- `pack_indiv()`'s fields (43_packer.md R116, R117). -/
def packIndiv (s : State) : IndivFields where
  flip := s.packFlip
  tcw0 := s.packTcw0
  tcw1 := s.packTcw1
  r1 := (redByte s.pk1).extractLsb' 0 4
  g1 := (greenByte s.pk1).extractLsb' 0 4
  b1 := (blueByte s.pk1).extractLsb' 0 4
  r2 := (redByte s.pk2).extractLsb' 0 4
  g2 := (greenByte s.pk2).extractLsb' 0 4
  b2 := (blueByte s.pk2).extractLsb' 0 4
  selL := s.pk3.extractLsb' 0 16
  selM := s.pk3.extractLsb' 16 16

/-- `pack_diff()`'s fields (43_packer.md R116, R118). -/
def packDiff (s : State) : DiffFields where
  flip := s.packFlip
  tcw0 := s.packTcw0
  tcw1 := s.packTcw1
  r1 := (redByte s.pk1).extractLsb' 0 5
  g1 := (greenByte s.pk1).extractLsb' 0 5
  b1 := (blueByte s.pk1).extractLsb' 0 5
  dr := (redByte s.pk2).extractLsb' 0 3
  dg := (greenByte s.pk2).extractLsb' 0 3
  db := (blueByte s.pk2).extractLsb' 0 3
  selL := s.pk3.extractLsb' 0 16
  selM := s.pk3.extractLsb' 16 16

/-- `BO[4:3] + BO[2:1] >= 4`, which decides the blue free bits (43_packer.md R119). -/
def blueHigh (bo : BitVec 6) : Bool :=
  decide (4 ≤ (bo.extractLsb' 3 2).toNat + (bo.extractLsb' 1 2).toNat)

/-- The nine colour fields with the free bits PACK gives them: `w[31] = RO[1]`, `w[23] = GO[1]`, and
`w[15:13]`, `w[10]` so that blue overflows (43_packer.md R119). -/
def planarWithFreeBits (ro : BitVec 6) (go : BitVec 7) (bo rh : BitVec 6) (gh : BitVec 7)
    (bh rv : BitVec 6) (gv : BitVec 7) (bv : BitVec 6) : PlanarFields where
  ro := ro
  go := go
  bo := bo
  rh := rh
  gh := gh
  bh := bh
  rv := rv
  gv := gv
  bv := bv
  f31 := ro.getLsbD 1
  f23 := go.getLsbD 1
  f15_13 := if blueHigh bo then 0b111#3 else 0b000#3
  f10 := !blueHigh bo

/-- `pack_planar()`'s fields (43_packer.md R116, R119). -/
def packPlanar (s : State) : PlanarFields :=
  planarWithFreeBits
    ((redByte s.pk1).extractLsb' 0 6) ((greenByte s.pk1).extractLsb' 0 7) ((blueByte s.pk1).extractLsb' 0 6)
    ((redByte s.pk2).extractLsb' 0 6) ((greenByte s.pk2).extractLsb' 0 7) ((blueByte s.pk2).extractLsb' 0 6)
    ((redByte s.pk3).extractLsb' 0 6) ((greenByte s.pk3).extractLsb' 0 7) ((blueByte s.pk3).extractLsb' 0 6)

/-- `check` (43_packer.md R120): the operands are legal. -/
def packLegal (s : State) : Bool :=
  decide (topByte s.pk1 = 0#8) && decide (topByte s.pk2 = 0#8) &&
  match s.pmode.toNat with
  | 0 => colourWithin s.pk1 15 15 15 && colourWithin s.pk2 15 15 15
  | 1 => colourWithin s.pk1 31 31 31 && colourWithin s.pk2 7 7 7 && (packDiff s).wf
  | 2 => decide (topByte s.pk3 = 0#8) && colourWithin s.pk1 63 127 63 && colourWithin s.pk2 63 127 63
      && colourWithin s.pk3 63 127 63
  | _ => false

/-- The decode word of legal operands (43_packer.md R115). -/
def packedWord (s : State) : BlockWord :=
  match s.pmode.toNat with
  | 0 => indivWord (packIndiv s)
  | 1 => diffWord (packDiff s)
  | _ => planarWord (packPlanar s)

/-- PACK's pseudocode (43_packer.md R115): `BLK` gets the stored form of the packed word. -/
def packBody (s : State) : Flow :=
  (require (packLegal s) .range s).andThen fun s => .go { s with blk := permute (packedWord s) }

/-- PACK (43_packer.md R115). -/
def execPack (s : State) : Host.Outcome State Fault Refusal := runCommand packBody s

end Sys2Proof.Machine
end

