-- ==== Sys2Proof/Machine/Dispatch.lean ====
section
/-! DEFINITION. One arm per instruction. -/

namespace Sys2Proof.Machine

def exec (i : Instr) (s : State) : Host.Outcome State Fault Refusal :=
  match i with
  | .nop => Sys2Proof.Machine.execNop s
  | .select => Sys2Proof.Machine.execSelect s
  | .gather => Sys2Proof.Machine.execGather s
  | .encode => Sys2Proof.Machine.execEncode s
  | .store => Sys2Proof.Machine.execStore s
  | .process => Sys2Proof.Machine.execProcess s
  | .load => Sys2Proof.Machine.execLoad s
  | .decode => Sys2Proof.Machine.execDecode s
  | .pack => Sys2Proof.Machine.execPack s
  | .start => Sys2Proof.Machine.execStart s
  | .sreset => Sys2Proof.Machine.execSreset s
  | .blockIndiv f => Sys2Proof.Machine.execBlockIndiv f s
  | .blockDiff f => Sys2Proof.Machine.execBlockDiff f s
  | .blockT f => Sys2Proof.Machine.execBlockT f s
  | .blockH f => Sys2Proof.Machine.execBlockH f s
  | .blockPlanar f => Sys2Proof.Machine.execBlockPlanar f s

end Sys2Proof.Machine
end

