-- ==== Sys2Proof/Machine/Micro.lean ====
section
/-! DEFINITION. The commands line by line (44_control.md R127 step 5): what a host read, a reset or another
bus master meets while `BUSY = 1` (10_state.md R22 items 2 and 4, 20_memory.md R40, 70_reset_and_hazards.md
R151). Obligations relate it to the meanings of the other files. -/

namespace Sys2Proof.Machine

/-- The lines that write a tile into `TILE` (40_selector.md R73). -/
def tileLines (t : Tile) : List Act := (List.finRange 16).map fun k => .setTile k t[k]

/-- The lines that write a stored word into `BLK_LO`, `BLK_HI`. -/
def blkLines (d : BlockWord) : List Act :=
  [.setBlkLo (d.extractLsb' 0 32), .setBlkHi (d.extractLsb' 32 32)]

/-- The lines that write decoded pixels and the mode (41_decoder.md R81). -/
def pixLines (m : Mode) (px : Tile) : List Act :=
  ((List.finRange 16).map fun k => .setPix k px[k]) ++ [.setMode m]

/-- START line by line (42_gatherer.md R100). -/
def startLines : List Act :=
  [.checkWidth, .checkSrc, .checkDst, .initCurSrc, .initCurDst, .clearTcnt, .initRem]

/-- GATHER line by line (42_gatherer.md R101, R103): the sixteen reads in the order `k` = 0 to 15 (R108). -/
def gatherLines : List Act :=
  [.checkWidth, .checkCurSrc, .admitTile] ++ (List.finRange 16).map .readPixel
    ++ [.stepCurSrc, .stepTcnt, .wrapRow]

/-- ENCODE line by line (40_selector.md R73). -/
def encodeLines : List Act := [.kernel]

/-- STORE line by line (42_gatherer.md R104). -/
def storeLines : List Act := [.checkCurDst, .memStore, .stepCurDst]

/-- LOAD line by line (41_decoder.md R80). -/
def loadLines : List Act := [.checkCurDst, .memLoad, .stepCurDst]

/-- One iteration of PROCESS line by line, and the test of the next (42_gatherer.md R105). -/
def blockLines : List Act := gatherLines ++ encodeLines ++ storeLines ++ [.stepRem, .loop]

/-- The lines of each command. A block word is no command; its lines are DECODE's for that word. -/
def commandLines : Instr → List Act
  | .nop => []
  | .select => [.select]
  | .gather => gatherLines
  | .encode => encodeLines
  | .store => storeLines
  | .process => startLines ++ [.select, .loop]
  | .load => loadLines
  | .decode => [.decodeBlk]
  | .pack => [.packBlk]
  | .start => startLines
  | .sreset => [.resetAll]
  | .blockIndiv _ => [.decodeBlk]
  | .blockDiff _ => [.decodeBlk]
  | .blockT _ => [.decodeBlk]
  | .blockH _ => [.decodeBlk]
  | .blockPlanar _ => [.decodeBlk]

/-- Lines put in front of what the command has still to do. -/
def pushLines (l : List Act) (s : State) : State := { s with todo := l ++ s.todo }

/-- What one line does. -/
def runAct (a : Act) (s : State) : State :=
  match a with
  | .checkWidth => (checkWidth s).state
  | .checkSrc => (checkSrc s).state
  | .checkDst => (checkDst s).state
  | .checkCurSrc => (checkCurSrc s).state
  | .checkCurDst => (checkCurDst s).state
  | .initCurSrc => { s with curSrc := s.src }
  | .initCurDst => { s with curDst := s.dst + 8#32 * s.offset }
  | .clearTcnt => { s with tcnt := 0#32 }
  | .initRem => { s with rem := s.blocks }
  | .select => selectBody s
  | .admitTile => (checkTile s).state
  | .readPixel k =>
    { s with tile := s.tile.set k (transform s.alphaAsLuma (memRead4 s.mem (s.tileAddr k))) }
  | .stepCurSrc => { s with curSrc := s.curSrc + 16#32 }
  | .stepTcnt => { s with tcnt := s.tcnt + 1#32 }
  | .wrapRow => if s.tcnt = s.width / 4#32 then pushLines [.skipRows, .clearTcnt] s else s
  | .skipRows => { s with curSrc := s.curSrc + 12#32 * s.width }
  | .kernel =>
    pushLines (tileLines (kernel s.ksel s.tile).1 ++ blkLines (kernel s.ksel s.tile).2) s
  | .setTile k v => { s with tile := s.tile.set k v }
  | .setBlkLo v => { s with blk := s.blk.extractLsb' 32 32 ++ v }
  | .setBlkHi v => { s with blk := v ++ s.blk.extractLsb' 0 32 }
  | .memStore =>
    ((checkBlockAccess s).andThen fun s => .go { s with mem := memWrite8 s.mem s.curDst s.blk }).state
  | .memLoad =>
    ((checkBlockAccess s).andThen fun s => .go (pushLines (blkLines (memRead8 s.mem s.curDst)) s)).state
  | .stepCurDst => stepCurDst s
  | .decodeBlk =>
    pushLines (pixLines (classify (permute s.blk)) (blockPixels s.params.modtab (permute s.blk))) s
  | .setPix k v => { s with pix := s.pix.set k v }
  | .setMode m => setModeFlags m s
  | .packBlk =>
    ((require (packLegal s) .range s).andThen fun s =>
      .go (pushLines (blkLines (permute (packedWord s))) s)).state
  | .loop => if s.rem = 0#32 then s else pushLines blockLines s
  | .stepRem => { s with rem := s.rem - 1#32 }
  | .resetAll => s.resetUnit
  | .done => complete s

/-- The running command does its next line; an idle unit does nothing (60_exceptions.md R146). -/
def tick (s : State) : State :=
  match s.todo with
  | [] => s
  | a :: rest => runAct a { s with todo := rest }

/-- A command accepted and left running (44_control.md R127 step 4). -/
def beginCommand (i : Instr) (s : State) : Host.Outcome State Fault Refusal :=
  .next { accept s with todo := commandLines i ++ [.done] }

/-- `n` lines of the running command. -/
def ticks : Nat → State → State
  | 0, s => s
  | n + 1, s => ticks n (tick s)

end Sys2Proof.Machine
end

