-- ==== Sys2Proof/Machine/HostPort.lean ====
section
/-! DEFINITION. What each event of the world outside does to the unit: register accesses (10_state.md R22),
the life of a command (44_control.md R127), the reset input (70_reset_and_hazards.md R150, R151), and the
stores of other bus masters (20_memory.md R41). -/

namespace Sys2Proof.Machine

/-- A 32-bit write of `v` to `CMD` (44_control.md R127 steps 1 to 4): ignored while busy; while halted only
SRESET is obeyed; an illegal word raises `ERR_CMD`; else `run` is given the decoded command. -/
def commandWrite (run : Instr → State → Host.Outcome State Fault Refusal) (v : Word) (s : State) :
    Host.Outcome State Fault Refusal :=
  if s.busy then .next s
  else if s.halted then if v = 0x0000000F#32 then run .sreset s else .next s
  else
    match decodeCommand v with
    | .ok i => run i s
    | .error _ => .next (raise .cmd s)

/-- A host write (10_state.md R22): ignored while busy; `CMD` starts a command that runs to its end. -/
def hostWrite (off : BitVec 8) (v : Word) (s : State) : Host.Outcome State Fault Refusal :=
  match Reg.ofOffset off with
  | none => .refused .unalignedHostAccess
  | some .cmd => commandWrite exec v s
  | some r => if s.busy then .next s else .next (writeReg v s r)

/-- A host read (10_state.md R22 item 2): at any time, the register's value of this moment. -/
def hostRead (off : BitVec 8) (s : State) : Host.Outcome State Fault Refusal :=
  match Reg.ofOffset off with
  | none => .refused .unalignedHostAccess
  | some r => .next { s with lastRead := some (readReg s r) }

/-- A store of the host or another bus master (20_memory.md R41): one access, so all its bytes at once. -/
def busWrite (a : Word) (bytes : List Byte) (s : State) : Host.Outcome State Fault Refusal :=
  if a.toNat + bytes.length ≤ 2 ^ 32 then .next { s with mem := writeBytes a.toNat bytes s.mem }
  else .refused .busWritePastTop

/-- The access of another unit's STORE (42_gatherer.md R104): one single-copy-atomic 8-byte write
(20_memory.md R34 item 2); a misaligned or not admitted one is no access (R32, R33). -/
def unitStore (a : Word) (d : BlockWord) (s : State) : State :=
  if aligned a 8 && admitted s.params a 8 then { s with mem := memWrite8 s.mem a d } else s

/-- The platform's change of `Mapped` (20_memory.md R32): not while the unit is busy. -/
def remap (regions : List Region) (bars : List Bar) (s : State) : Host.Outcome State Fault Refusal :=
  if s.busy then .refused .remapWhileBusy
  else .next { s with params := { s.params with regions := regions, bars := bars } }

/-- One event. -/
def hostEvent (e : HostEvent) (s : State) : Host.Outcome State Fault Refusal :=
  match e with
  | .write off v => hostWrite off v s
  | .launch v => commandWrite beginCommand v s
  | .tick => .next (tick s)
  | .read off => hostRead off s
  | .hwReset => .next s.resetUnit
  | .busWrite a bytes => busWrite a bytes s
  | .unitStore a d => .next (unitStore a d s)
  | .remap regions bars => remap regions bars s

/-- The next event is taken from the queue and happens; with nothing to happen the unit waits
(60_exceptions.md R146). -/
def stepEvent (s : State) : Host.Outcome State Fault Refusal :=
  match s.inputs with
  | [] => .next s
  | e :: rest => hostEvent e { s with inputs := rest }

/-- The state whose very next step runs the 32-bit command word `v`: an idle unit that is not halted, with
the write of `v` to `CMD` next (notes/assumptions/14.md). -/
def withCommand (s : State) (v : Word) : State :=
  { s with busy := false, todo := [], ecode := .none, inputs := .write 0x00#8 v :: s.inputs }

/-- The state whose very next step decodes the block word `w`: `BLK` holds its stored form and the write
of DECODE to `CMD` is next (notes/assumptions/14.md). -/
def withBlockWord (s : State) (w : BlockWord) : State :=
  withCommand { s with blk := permute w } 0x00000007#32

end Sys2Proof.Machine
end

