-- ==== Sys2Proof/Machine/Step.lean ====
section
/-! DEFINITION. One step: the next event of the outside world happens to the unit. -/

namespace Sys2Proof.Machine

/-- One step. -/
def step (s : State) : Host.Outcome State Fault Refusal := stepEvent s

/-- The state whose next step runs the instruction of the opcode table whose bits are `w`: a 32-bit row is
a command word about to be written to `CMD`, a block row a decode word about to be decoded. -/
def State.withFetchWord (s : State) (nbits w : Nat) : State :=
  if nbits = 32 then withCommand s (BitVec.ofNat 32 w) else withBlockWord s (BitVec.ofNat 64 w)

end Sys2Proof.Machine
end

