-- ==== Sys2Proof/Machine/Script.lean ====
section
/-! DEFINITION. The host script and its pseudo-instructions as events (30_encoding.md R67, R68). -/

namespace Sys2Proof.Machine

/-- The offset of a register (10_state.md R10); the reserved window's first offset for `reserved`. -/
def Reg.windowOffset : Reg → BitVec 8
  | .cmd => 0x00#8
  | .status => 0x04#8
  | .cfg => 0x08#8
  | .cap => 0x0C#8
  | .ksel => 0x10#8
  | .src => 0x14#8
  | .width => 0x18#8
  | .dst => 0x1C#8
  | .offset => 0x20#8
  | .blocks => 0x24#8
  | .curSrc => 0x28#8
  | .curDst => 0x2C#8
  | .tcnt => 0x30#8
  | .rem => 0x34#8
  | .blkLo => 0x38#8
  | .blkHi => 0x3C#8
  | .pk0 => 0x40#8
  | .pk1 => 0x44#8
  | .pk2 => 0x48#8
  | .pk3 => 0x4C#8
  | .tile k => 0x80#8 + BitVec.ofNat 8 (4 * k.val)
  | .pix k => 0xC0#8 + BitVec.ofNat 8 (4 * k.val)
  | .reserved => 0x50#8

/-- A line of a host script (30_encoding.md R67) or a pseudo-instruction (R68). -/
inductive ScriptLine where
  | wr (r : Reg) (v : Word)
  | rd (r : Reg)
  | cmd (v : Word)
  | wait
  | run (v : Word)
  | setBlk (d : BlockWord)
  | getBlk
  | decodeW (d : BlockWord)
  | setRange (src width dst offset blocks : Word)
  | setCfg (channels etc2 dither : Bool)
  deriving DecidableEq, Repr

/-- The events of a script line. A command started by `write` has completed when the next event lands, so
`WAIT` is the one read of `STATUS` that finds `BUSY = 0` (notes/assumptions/13.md). -/
def ScriptLine.events : ScriptLine → List HostEvent
  | .wr r v => [.write r.windowOffset v]
  | .rd r => [.read r.windowOffset]
  | .cmd v => [.write 0x00#8 v]
  | .wait => [.read 0x04#8]
  | .run v => [.write 0x00#8 v, .read 0x04#8]
  | .setBlk d => [.write 0x38#8 (d.extractLsb' 0 32), .write 0x3C#8 (d.extractLsb' 32 32)]
  | .getBlk => [.read 0x38#8, .read 0x3C#8]
  | .decodeW d =>
    [.write 0x38#8 (d.extractLsb' 0 32), .write 0x3C#8 (d.extractLsb' 32 32),
      .write 0x00#8 0x00000007#32, .read 0x04#8]
  | .setRange src width dst offset blocks =>
    [.write 0x14#8 src, .write 0x18#8 width, .write 0x1C#8 dst, .write 0x20#8 offset,
      .write 0x24#8 blocks]
  | .setCfg channels etc2 dither =>
    [.write 0x08#8 ((BitVec.ofBool dither ++ BitVec.ofBool etc2 ++ BitVec.ofBool channels).setWidth 32)]

end Sys2Proof.Machine
end

