-- ==== Sys2Proof/Safety.lean ====
section
/-! DEFINITION. The terms the claims use: when a unit is ready for a command, the machine's invariant, the
layouts of image and block stream (20_memory.md R36, R37), and the walk of the gatherer (42_gatherer.md
R106). -/

namespace Sys2Proof.Machine

/-! ## Readiness -/

/-- No command is running. -/
structure State.Idle (s : State) : Prop where
  busy : s.busy = false
  todo : s.todo = []

/-- A write of a legal word to `CMD` starts a command (10_state.md R11). -/
structure State.Ready (s : State) : Prop extends s.Idle where
  ecode : s.ecode = .none

/-! ## The invariant -/

/-- The lines of a running command end in `done`, and only there. -/
def linesEndInDone : List Act → Bool
  | [] => false
  | [a] => decide (a = .done)
  | a :: b :: rest => decide (a ≠ .done) && linesEndInDone (b :: rest)

/-- The lines set the cursor from `SRC` and `DST` only after the check that they are aligned, given which
of the two checks have been passed. -/
def cursorGuarded (srcOk dstOk : Bool) : List Act → Bool
  | [] => true
  | .checkSrc :: rest => cursorGuarded true dstOk rest
  | .checkDst :: rest => cursorGuarded srcOk true rest
  | .initCurSrc :: rest => srcOk && cursorGuarded srcOk dstOk rest
  | .initCurDst :: rest => dstOk && cursorGuarded srcOk dstOk rest
  | _ :: rest => cursorGuarded srcOk dstOk rest

/-- An entry of `PIX` is what reset left or a decoder output, whose alpha is 0xFF (10_state.md R21). -/
def pixelShown (p : Pixel) : Prop := p = 0#32 ∨ p.extractLsb' 24 8 = 0xFF#8

/-- What holds of the machine between any two events. -/
structure State.Inv (s : State) : Prop where
  /-- The memory is in its canonical form. -/
  memory : Memory.wf s.mem = true
  /-- An idle unit has nothing to do. -/
  idle : s.busy = false → s.todo = []
  /-- A busy unit's lines end in the one that clears `BUSY`. -/
  running : s.busy = true → linesEndInDone s.todo = true
  /-- A halted unit runs no command but SRESET (60_exceptions.md R134, R135). -/
  halted : s.ecode ≠ .none → s.busy = true → s.todo = [.resetAll, .done]
  /-- `MODE` 2 or 3 without `UNK` never occurs (10_state.md R12, 41_decoder.md R81). -/
  unknown : unknownMode s.mode = true → s.unk = true
  /-- The source cursor is aligned (20_memory.md R33). -/
  srcCursor : aligned s.curSrc 4 = true
  /-- The block cursor is aligned (20_memory.md R33). -/
  dstCursor : aligned s.curDst 8 = true
  /-- The running command sets the cursor only from checked values. -/
  guarded : cursorGuarded (aligned s.src 4) (aligned s.dst 8) s.todo = true
  /-- `PIX` shows nothing but reset values and decoder outputs. -/
  pixels : ∀ k : Fin 16, pixelShown s.pix[k]
  /-- The running command writes nothing but decoder outputs into `PIX`. -/
  pixelLines : ∀ (k : Fin 16) (v : Pixel), Act.setPix k v ∈ s.todo → v.extractLsb' 24 8 = 0xFF#8

/-! ## Layouts -/

/-- The byte address of image pixel (`x`, `y`), pixel (0, 0) at `base`, row stride `width` pixels
(20_memory.md R36). -/
def imagePixelAddr (base width : Word) (x y : Nat) : Word :=
  base + 4#32 * (BitVec.ofNat 32 y * width + BitVec.ofNat 32 x)

/-- The byte address of word `n` of the block stream at `dst` (20_memory.md R37). -/
def streamAddr (dst : Word) (n : Nat) : Word := dst + 8#32 * BitVec.ofNat 32 n

/-- The number of tiles in a block row, `T = WIDTH / 4` (42_gatherer.md R106). -/
def tilesPerRow (width : Word) : Nat := width.toNat / 4

/-- The address of pixel `k` of tile `n` of a walk from `src` (42_gatherer.md R106): the image pixel at
`x = 4 * (n mod T) + c`, `y = 4 * (n div T) + r`, with `k = 4*c + r`. -/
def walkPixelAddr (src width : Word) (n : Nat) (k : Fin 16) : Word :=
  imagePixelAddr src width (4 * (n % tilesPerRow width) + k.val / 4)
    (4 * (n / tilesPerRow width) + k.val % 4)

/-- Tile `n` of a walk from `SRC` as it lies in a memory, transformed as `CFG.CHANNELS` says. -/
def State.walkTile (s : State) (m : Memory) (n : Nat) : Tile :=
  Vector.ofFn fun k => transform s.alphaAsLuma (memRead4 m (walkPixelAddr s.src s.width n k))

/-- The address of word `n` of the range a PROCESS writes: stream word `OFFSET + n` (42_gatherer.md R110). -/
def State.rangeAddr (s : State) (n : Nat) : Word := s.dst + 8#32 * s.offset + 8#32 * BitVec.ofNat 32 n

/-- The kernel id SELECT computes in a state (40_selector.md R70). -/
def State.kernelId (s : State) : BitVec 3 :=
  selectKernel s.alphaAsLuma s.etc2 s.dither s.params.capAvx2

/-- The byte at `x` is one of the `n` bytes from `a`. -/
def inBytes (a : Word) (n x : Nat) : Prop := a.toNat ≤ x ∧ x < a.toNat + n

/-! ## Pixels and packed operands, in plain numbers -/

/-- `clamp_u8` as a number (00_scope.md R8). -/
def clampInt (v : Int) : Int := max 0 (min 255 v)

/-- The pixel has these three channel values, each clamped, and alpha 0xFF. -/
def pixelIs (p : Pixel) (r g b : Int) : Prop :=
  ((p.extractLsb' 0 8).toNat : Int) = clampInt r ∧ ((p.extractLsb' 8 8).toNat : Int) = clampInt g ∧
  ((p.extractLsb' 16 8).toNat : Int) = clampInt b ∧ p.extractLsb' 24 8 = 0xFF#8

/-- `MODTAB[cw][2*msb + lsb]` for pixel `k` (30_encoding.md R62 item 2, R63). -/
def tableModifier (tab : ModTab) (cw : BitVec 3) (selL selM : BitVec 16) (k : Fin 16) : Int :=
  (tab.get cw.toFin).get (Fin.ofNat 4 (2 * (selM.getLsbD k.val).toNat + (selL.getLsbD k.val).toNat))

/-- Pixel `k` lies in the first sub-block: rows 0, 1 with the flip bit, columns 0, 1 without (41_decoder.md
R85). -/
def firstSubBlock (flip : Bool) (k : Fin 16) : Prop :=
  (flip = true ∧ k.val % 4 < 2) ∨ (flip = false ∧ k.val / 4 < 2)

/-- `(i*(H-O) + j*(V-O) + 4*O + 2) >> 2`, floor, for pixel `k` at column `i`, row `j` (41_decoder.md R88). -/
def planarValue (k : Fin 16) (o h v : Nat) : Int :=
  ((k.val / 4 : Nat) * ((h : Int) - o) + (k.val % 4 : Nat) * ((v : Int) - o) + 4 * o + 2) / 4

/-- `expand6` as a number. -/
def expand6Nat (v : BitVec 6) : Nat := 4 * v.toNat + v.toNat / 16

/-- `expand7` as a number. -/
def expand7Nat (v : BitVec 7) : Nat := 2 * v.toNat + v.toNat / 64

/-- Byte `n` of a register, as a number. -/
def byteOf (x : Word) (n : Nat) : Nat := x.toNat / 256 ^ n % 256

/-- The three colour bytes of a register are at most these. -/
def coloursAtMost (x : Word) (r g b : Nat) : Prop := byteOf x 0 ≤ r ∧ byteOf x 1 ≤ g ∧ byteOf x 2 ≤ b

/-- The sum of a 5-bit number and a 3-bit two's-complement field lies in 0 to 31. -/
def sumInRange (v dv : Nat) : Prop :=
  0 ≤ (v : Int) + (if dv < 4 then (dv : Int) else (dv : Int) - 8) ∧
  (v : Int) + (if dv < 4 then (dv : Int) else (dv : Int) - 8) ≤ 31

/-- The operands of PACK pass every check of 43_packer.md R120. -/
def State.packOperandsLegal (s : State) : Prop :=
  s.pk0.toNat % 4 ≠ 3 ∧ byteOf s.pk1 3 = 0 ∧ byteOf s.pk2 3 = 0 ∧
  (s.pk0.toNat % 4 = 0 → coloursAtMost s.pk1 15 15 15 ∧ coloursAtMost s.pk2 15 15 15) ∧
  (s.pk0.toNat % 4 = 1 → coloursAtMost s.pk1 31 31 31 ∧ coloursAtMost s.pk2 7 7 7 ∧
    ∀ n, n < 3 → sumInRange (byteOf s.pk1 n) (byteOf s.pk2 n)) ∧
  (s.pk0.toNat % 4 = 2 → byteOf s.pk3 3 = 0 ∧ coloursAtMost s.pk1 63 127 63 ∧
    coloursAtMost s.pk2 63 127 63 ∧ coloursAtMost s.pk3 63 127 63)

/-- A state with other operands of PACK. -/
def State.withPack (s : State) (p : BitVec 9 × Word × Word × Word) : State :=
  { s with pk0 := p.1, pk1 := p.2.1, pk2 := p.2.2.1, pk3 := p.2.2.2 }

/-! ## Sequences of commands -/

/-- The commands of a list one after another, each on the state the one before it left, as long as none
has raised an error. -/
def runCommands : List Instr → State → Host.Outcome State Fault Refusal
  | [], s => .next s
  | i :: rest, s =>
    match exec i s with
    | .next t => if t.halted then .next t else runCommands rest t
    | .fault r => .fault r
    | .refused r => .refused r

/-- `n` times `RUN GATHER; RUN ENCODE; RUN STORE` (42_gatherer.md R105). -/
def blockCommands : Nat → List Instr
  | 0 => []
  | n + 1 => .gather :: .encode :: .store :: blockCommands n

end Sys2Proof.Machine
end

