-- ==== Sys2Proof/Certificates/Slice0/Obligations.lean ====
section
/-! DEFINITION. The statements for the provers. Each docstring names the rule of spec/ it formalises, or
says that it is derived. A state of every statement is any state at all; what it assumes stands in it. -/

open Sys2Proof Sys2Proof.Machine

/-! ## Commands: their effect, their errors, everything else unchanged -/

/-- 44_control.md R125: NOP does nothing. -/
def Obligations.NopChangesNothing : Prop :=
  ∀ s : State, s.Idle → exec .nop s = .next s

/-- 44_control.md R126, 70_reset_and_hazards.md R150, 10_state.md R25: SRESET and the reset input leave the
same state, every register 0, `CAP` showing its strap, memory untouched. -/
def Obligations.SresetClearsEveryRegister : Prop :=
  ∀ s : State, ∃ t : State, exec .sreset s = .next t ∧ hostEvent .hwReset s = .next t ∧ t.Ready ∧
    (∀ r : Reg, r ≠ .cap → readReg t r = 0#32) ∧ readReg t .cap = readReg s .cap ∧
    t.mem = s.mem ∧ t.params = s.params ∧ t.inputs = s.inputs ∧ t.lastRead = s.lastRead

/-- 40_selector.md R70, R71: SELECT writes the kernel id, bit 0 etc2, bit 1 the dither request unless the
channel mode is AlphaAsLuma, bit 2 avx2, and nothing else. -/
def Obligations.SelectComputesKernelId : Prop :=
  ∀ s : State, s.Idle → ∃ kid : BitVec 3, exec .select s = .next { s with ksel := kid } ∧
    kid.getLsbD 0 = s.cfg.getLsbD 1 ∧ kid.getLsbD 1 = (s.cfg.getLsbD 2 && !s.cfg.getLsbD 0) ∧
    kid.getLsbD 2 = s.params.capAvx2

/-- 40_selector.md R72, R73: ENCODE dithers the tile buffer when `KID[1]` is set, then puts the word of the
kernel that `KID[2]`, `KID[0]` name into `BLK`, and changes nothing else. -/
def Obligations.EncodeAppliesSelectedKernel : Prop :=
  ∀ s : State, s.Idle → ∀ t : Tile,
    t = (if s.ksel.getLsbD 1 then Config.dither s.tile else s.tile) →
    (s.ksel.getLsbD 2 = false → s.ksel.getLsbD 0 = false →
      exec .encode s = .next { s with tile := t, blk := Config.prgb t }) ∧
    (s.ksel.getLsbD 2 = false → s.ksel.getLsbD 0 = true →
      exec .encode s = .next { s with tile := t, blk := Config.prgbEtc2 t }) ∧
    (s.ksel.getLsbD 2 = true → s.ksel.getLsbD 0 = false →
      exec .encode s = .next { s with tile := t, blk := Config.prgbAvx2 t }) ∧
    (s.ksel.getLsbD 2 = true → s.ksel.getLsbD 0 = true →
      exec .encode s = .next { s with tile := t, blk := Config.prgbEtc2Avx2 t })

/-- 41_decoder.md R80: LOAD reads the eight bytes at `CUR_DST`, little-endian, into `BLK` and adds 8 to
`CUR_DST`; a misaligned cursor raises `ERR_ALIGN`, an access not admitted `ERR_BUS`, with no other change. -/
def Obligations.LoadReadsBlockWord : Prop :=
  ∀ s : State, s.Idle →
    (s.curDst.toNat % 8 ≠ 0 → exec .load s = .next (raise .align s)) ∧
    (s.curDst.toNat % 8 = 0 → admitted s.params s.curDst 8 = false →
      exec .load s = .next (raise .bus s)) ∧
    (s.curDst.toNat % 8 = 0 → admitted s.params s.curDst 8 = true →
      ∃ d : BlockWord, exec .load s = .next { s with blk := d, curDst := s.curDst + 8#32 } ∧
        ∀ i : Nat, i < 8 → d.extractLsb' (8 * i) 8 = readByte s.mem (s.curDst.toNat + i))

/-- 42_gatherer.md R104: STORE writes `BLK` as eight little-endian bytes at `CUR_DST`, no other byte, and
adds 8 to `CUR_DST`; the errors are LOAD's, and change neither memory nor `CUR_DST`. -/
def Obligations.StoreWritesEightBytes : Prop :=
  ∀ s : State, s.Idle → Memory.wf s.mem = true →
    (s.curDst.toNat % 8 ≠ 0 → exec .store s = .next (raise .align s)) ∧
    (s.curDst.toNat % 8 = 0 → admitted s.params s.curDst 8 = false →
      exec .store s = .next (raise .bus s)) ∧
    (s.curDst.toNat % 8 = 0 → admitted s.params s.curDst 8 = true →
      ∃ m : Memory, exec .store s = .next { s with mem := m, curDst := s.curDst + 8#32 } ∧
        Memory.wf m = true ∧
        (∀ i : Nat, i < 8 → readByte m (s.curDst.toNat + i) = s.blk.extractLsb' (8 * i) 8) ∧
        ∀ a : Nat, ¬ inBytes s.curDst 8 a → readByte m a = readByte s.mem a)

/-- 20_memory.md R44 (derived from R40): a STORE and then a LOAD of the same word return the stored value. -/
def Obligations.StoreThenLoadReturnsWord : Prop :=
  ∀ s t : State, ∀ d : BlockWord, s.Idle → Memory.wf s.mem = true → s.curDst.toNat % 8 = 0 →
    admitted s.params s.curDst 8 = true → exec .store s = .next t →
    exec .load { t with blk := d, curDst := s.curDst } = .next t

/-- 42_gatherer.md R100: START checks `WIDTH`, `SRC`, `DST` in that order and initialises the cursor. -/
def Obligations.StartInitialisesCursor : Prop :=
  ∀ s : State, s.Idle →
    (s.width.toNat = 0 ∨ s.width.toNat % 4 ≠ 0 → exec .start s = .next (raise .size s)) ∧
    (s.width.toNat ≠ 0 → s.width.toNat % 4 = 0 → s.src.toNat % 4 ≠ 0 ∨ s.dst.toNat % 8 ≠ 0 →
      exec .start s = .next (raise .align s)) ∧
    (s.width.toNat ≠ 0 → s.width.toNat % 4 = 0 → s.src.toNat % 4 = 0 → s.dst.toNat % 8 = 0 →
      exec .start s = .next { s with
        curSrc := s.src, curDst := BitVec.ofNat 32 (s.dst.toNat + 8 * s.offset.toNat),
        tcnt := 0#32, rem := s.blocks })

/-- 42_gatherer.md R101, R102, R103: GATHER reads pixel (`c`, `r`) of the tile at
`CUR_SRC + 4 * (r * WIDTH + c)` into `TILE[4*c + r]`, the alpha byte replicated into R, G, B and the top byte
0 when the channel mode is AlphaAsLuma, and advances the cursor: 16 further and one tile more, and when that
makes `WIDTH / 4` tiles, three rows further still and `TCNT` back to 0. Its errors are tested in order before
anything is read. -/
def Obligations.GatherReadsTileAndAdvances : Prop :=
  ∀ s : State, s.Idle → ∀ addr : Nat → Nat → Word,
    (∀ c r, addr c r = BitVec.ofNat 32 (s.curSrc.toNat + 4 * (r * s.width.toNat + c))) →
    (s.width.toNat = 0 ∨ s.width.toNat % 4 ≠ 0 → exec .gather s = .next (raise .size s)) ∧
    (s.width.toNat ≠ 0 → s.width.toNat % 4 = 0 → s.curSrc.toNat % 4 ≠ 0 →
      exec .gather s = .next (raise .align s)) ∧
    (s.width.toNat ≠ 0 → s.width.toNat % 4 = 0 → s.curSrc.toNat % 4 = 0 →
      (∃ c r, c < 4 ∧ r < 4 ∧ admitted s.params (addr c r) 4 = false) →
      exec .gather s = .next (raise .bus s)) ∧
    (s.width.toNat ≠ 0 → s.width.toNat % 4 = 0 → s.curSrc.toNat % 4 = 0 →
      (∀ c r, c < 4 → r < 4 → admitted s.params (addr c r) 4 = true) →
      ∃ (px : Tile) (cur n : Word),
        exec .gather s = .next { s with tile := px, curSrc := cur, tcnt := n } ∧
        (∀ (k : Fin 16) (p : Pixel), p = memRead4 s.mem (addr (k.val / 4) (k.val % 4)) →
          (s.cfg.getLsbD 0 = false → px[k] = p) ∧
          (s.cfg.getLsbD 0 = true →
            px[k] = 0#8 ++ p.extractLsb' 24 8 ++ p.extractLsb' 24 8 ++ p.extractLsb' 24 8)) ∧
        ((s.tcnt + 1#32).toNat = s.width.toNat / 4 →
          cur = BitVec.ofNat 32 (s.curSrc.toNat + 16 + 12 * s.width.toNat) ∧ n = 0#32) ∧
        ((s.tcnt + 1#32).toNat ≠ s.width.toNat / 4 →
          cur = BitVec.ofNat 32 (s.curSrc.toNat + 16) ∧ n = s.tcnt + 1#32))

/-- 42_gatherer.md R106: after START and `n` GATHERs that all complete, `TCNT = n mod T`,
`CUR_SRC = SRC + 16 * (n mod T) + 16 * W * (n div T)`, and the next GATHER reads the pixels of tile `n`. -/
def Obligations.WalkHasClosedForm : Prop :=
  ∀ (s t : State) (n : Nat), s.Ready →
    runCommands (.start :: List.replicate n .gather) s = .next t → t.halted = false →
    t.tcnt.toNat = n % tilesPerRow s.width ∧
    t.curSrc = BitVec.ofNat 32 (s.src.toNat + 16 * (n % tilesPerRow s.width)
      + 16 * s.width.toNat * (n / tilesPerRow s.width)) ∧
    ∀ k : Fin 16, t.tileAddr k = walkPixelAddr s.src s.width n k

/-! ## PROCESS -/

/-- 42_gatherer.md R105: PROCESS and the host sequence START, SELECT, then `BLOCKS` times GATHER, ENCODE,
STORE leave the same state, errors included; they differ only in `REM`, which PROCESS counts down to 0. -/
def Obligations.ProcessEqualsHostSequence : Prop :=
  ∀ s : State, s.Ready → ∃ (t : State) (r : Word),
    runCommands (.start :: .select :: blockCommands s.blocks.toNat) s = .next t ∧
    exec .process s = .next { t with rem := r } ∧ (t.halted = false → r = 0#32)

/-- 42_gatherer.md R108: with `BLOCKS = 0` PROCESS makes START's checks, selects, and makes no memory access;
with illegal arguments it raises START's error and changes nothing else (R105). -/
def Obligations.ProcessWithoutBlocks : Prop :=
  ∀ s : State, s.Idle →
    (s.width.toNat = 0 ∨ s.width.toNat % 4 ≠ 0 → exec .process s = .next (raise .size s)) ∧
    (s.width.toNat ≠ 0 → s.width.toNat % 4 = 0 → s.src.toNat % 4 ≠ 0 ∨ s.dst.toNat % 8 ≠ 0 →
      exec .process s = .next (raise .align s)) ∧
    (s.width.toNat ≠ 0 → s.width.toNat % 4 = 0 → s.src.toNat % 4 = 0 → s.dst.toNat % 8 = 0 →
      s.blocks = 0#32 →
      exec .process s = .next { s with
        ksel := s.kernelId, curSrc := s.src, curDst := s.dst + 8#32 * s.offset, tcnt := 0#32,
        rem := 0#32 })

/-- 42_gatherer.md R110: a PROCESS whose accesses are all admitted, and whose source bytes are none of its
destination bytes, writes into stream word `OFFSET + n` the word the selected kernel gives for tile `n` of
the image as it was, for every `n` below `BLOCKS`, and no other byte. -/
def Obligations.ProcessEncodesEveryBlock : Prop :=
  ∀ s : State, s.Idle → Memory.wf s.mem = true →
    s.width.toNat ≠ 0 → s.width.toNat % 4 = 0 → s.src.toNat % 4 = 0 → s.dst.toNat % 8 = 0 →
    (∀ n, n < s.blocks.toNat → admitted s.params (s.rangeAddr n) 8 = true ∧
      ∀ k : Fin 16, admitted s.params (walkPixelAddr s.src s.width n k) 4 = true) →
    (∀ m n i, m < s.blocks.toNat → n < s.blocks.toNat → i < 4 → ∀ k : Fin 16,
      ¬ inBytes (s.rangeAddr m) 8 ((walkPixelAddr s.src s.width n k).toNat + i)) →
    ∃ t : State, exec .process s = .next t ∧
      t = { s with
        ksel := s.kernelId, curSrc := t.curSrc, curDst := s.rangeAddr s.blocks.toNat, tcnt := t.tcnt,
        rem := 0#32, tile := t.tile, blk := t.blk, mem := t.mem } ∧
      (∀ n, n < s.blocks.toNat →
        memRead8 t.mem (s.rangeAddr n) = (kernel s.kernelId (s.walkTile s.mem n)).2) ∧
      ∀ a, (∀ n, n < s.blocks.toNat → ¬ inBytes (s.rangeAddr n) 8 a) →
        readByte t.mem a = readByte s.mem a

/-- 42_gatherer.md R104, R105: however a PROCESS ends, no byte outside the `BLOCKS` words of its range changes. -/
def Obligations.ProcessStoresOnlyInItsRange : Prop :=
  ∀ s t : State, Memory.wf s.mem = true → exec .process s = .next t →
    ∀ a, (∀ n, n < s.blocks.toNat → ¬ inBytes (s.rangeAddr n) 8 a) → readByte t.mem a = readByte s.mem a

/-- 42_gatherer.md R105 (its error clause): a PROCESS that ends in `ERR_BUS` has done exactly its first `n`
blocks: the memory is what a PROCESS of `n` blocks leaves, `REM = BLOCKS - n`, `CUR_DST` still points at the
word of block `n`. -/
def Obligations.ProcessErrorKeepsStoredBlocks : Prop :=
  ∀ s t : State, s.Ready → exec .process s = .next t → t.ecode = .bus →
    ∃ n u, n < s.blocks.toNat ∧
      exec .process { s with blocks := BitVec.ofNat 32 n } = .next u ∧ u.halted = false ∧
      t.mem = u.mem ∧ t.ksel = u.ksel ∧ t.rem = s.blocks - BitVec.ofNat 32 n ∧ t.curDst = s.rangeAddr n

/-- 42_gatherer.md R110 (the partition property, on one unit): a PROCESS of `n + m` blocks that completes
leaves what a PROCESS of the first `n`, a whole number of block rows, and then a PROCESS of the other `m`
from the block row they begin in leave. -/
def Obligations.ProcessSplitsAtBlockRows : Prop :=
  ∀ (s t u : State) (n m : Nat), s.Ready → n + m < 2 ^ 32 → n % tilesPerRow s.width = 0 →
    exec .process { s with blocks := BitVec.ofNat 32 (n + m) } = .next u → u.halted = false →
    exec .process { s with blocks := BitVec.ofNat 32 n } = .next t →
    ∀ v : State, v = { t with
        src := s.src + BitVec.ofNat 32 (16 * s.width.toNat * (n / tilesPerRow s.width)),
        offset := s.offset + BitVec.ofNat 32 n, blocks := BitVec.ofNat 32 m } →
      exec .process v = .next { u with src := v.src, offset := v.offset, blocks := v.blocks }

/-! ## The block decoder -/

/-- 41_decoder.md R81: DECODE does what the block word in `BLK`, permuted, stands for. -/
def Obligations.DecodeRunsItsBlockWord : Prop :=
  ∀ s : State, exec .decode s = exec (decodeBlock (permute s.blk)) s

/-- 41_decoder.md R90: DECODE completes on every block word, every pixel then has alpha 0xFF; it writes
`PIX`, `MODE` and `UNK` and nothing else, and never clears `UNK`. -/
def Obligations.DecodeIsTotalAndOpaque : Prop :=
  ∀ s : State, s.Idle → ∃ px : Tile, exec .decode s = .next { s with
      pix := px, mode := classify (permute s.blk),
      unk := s.unk || decide (classify (permute s.blk) = .t ∨ classify (permute s.blk) = .h) } ∧
    ∀ k : Fin 16, px[k].extractLsb' 24 8 = 0xFF#8

/-- 41_decoder.md R83, R85, R86, R87: the pixels of an INDIV word. A 4-bit value becomes 17 times itself. -/
def Obligations.IndivPixelsFollowFields : Prop :=
  ∀ (s : State) (f : IndivFields), s.Idle →
    ∃ px : Tile, exec (.blockIndiv f) s = .next { s with pix := px, mode := .indiv } ∧
      ∀ (k : Fin 16) (m0 m1 : Int),
        m0 = tableModifier s.params.modtab f.tcw0 f.selL f.selM k →
        m1 = tableModifier s.params.modtab f.tcw1 f.selL f.selM k →
        (firstSubBlock f.flip k →
          pixelIs px[k] (17 * f.r1.toNat + m0) (17 * f.g1.toNat + m0) (17 * f.b1.toNat + m0)) ∧
        (¬ firstSubBlock f.flip k →
          pixelIs px[k] (17 * f.r2.toNat + m1) (17 * f.g2.toNat + m1) (17 * f.b2.toNat + m1))

/-- 41_decoder.md R84 to R87: the pixels of a DIFF word. A 5-bit value `v` becomes `8*v + v/4`; the second
endpoint is the first plus the two's-complement delta. -/
def Obligations.DiffPixelsFollowFields : Prop :=
  ∀ (s : State) (f : DiffFields) (e : Int → Int), s.Idle → f.wf = true → (∀ v, e v = 8 * v + v / 4) →
    ∃ px : Tile, exec (.blockDiff f) s = .next { s with pix := px, mode := .diff } ∧
      ∀ (k : Fin 16) (m0 m1 : Int),
        m0 = tableModifier s.params.modtab f.tcw0 f.selL f.selM k →
        m1 = tableModifier s.params.modtab f.tcw1 f.selL f.selM k →
        (firstSubBlock f.flip k →
          pixelIs px[k] (e f.r1.toNat + m0) (e f.g1.toNat + m0) (e f.b1.toNat + m0)) ∧
        (¬ firstSubBlock f.flip k →
          pixelIs px[k] (e (f.r1.toNat + f.dr.toInt) + m1) (e (f.g1.toNat + f.dg.toInt) + m1)
            (e (f.b1.toNat + f.db.toInt) + m1))

/-- 41_decoder.md R89: a T or H word decodes to opaque black, `MODE` is 2 or 3 and `UNK` is set; nothing else
changes, so the unit does not halt. -/
def Obligations.UnknownModesDecodeToBlack : Prop :=
  ∀ s : State, s.Idle → ∃ px : Tile, (∀ k : Fin 16, px[k] = 0xFF000000#32) ∧
    (∀ f : TFields, f.wf = true →
      exec (.blockT f) s = .next { s with pix := px, mode := .t, unk := true }) ∧
    (∀ f : HFields, f.wf = true →
      exec (.blockH f) s = .next { s with pix := px, mode := .h, unk := true })

/-- 41_decoder.md R88: the pixels of a PLANAR word, `i` the column and `j` the row. -/
def Obligations.PlanarPixelsFollowFields : Prop :=
  ∀ (s : State) (f : PlanarFields), s.Idle → f.wf = true →
    ∃ px : Tile, exec (.blockPlanar f) s = .next { s with pix := px, mode := .planar } ∧
      ∀ k : Fin 16, pixelIs px[k]
        (planarValue k (expand6Nat f.ro) (expand6Nat f.rh) (expand6Nat f.rv))
        (planarValue k (expand7Nat f.go) (expand7Nat f.gh) (expand7Nat f.gv))
        (planarValue k (expand6Nat f.bo) (expand6Nat f.bh) (expand6Nat f.bv))

/-- The model's choice (notes/assumptions/10.md): a block-word term whose fields give another class, so that
no word is it, is refused. -/
def Obligations.IllFormedBlockTermsAreRefused : Prop :=
  ∀ (i : Instr) (s : State), i.wellFormed = false → exec i s = .refused .illFormedBlockWord

/-- 30_encoding.md R56, R57, R58, R61 (the base-colour and planar positions are the spec's general knowledge G2,
G3, notes/assumptions/12.md): where each field of an INDIV, DIFF or PLANAR word lies in the decode word, in plain
numbers; the split planar fields assembled. -/
def Obligations.BlockFieldsSitAtTheirPositions : Prop :=
  ∀ (w : BlockWord) (bits : Nat → Nat → Nat), (∀ lo n, bits lo n = w.toNat / 2 ^ lo % 2 ^ n) →
    (∀ f, decodeBlock w = .blockIndiv f →
      bits 1 1 = 0 ∧ f.flip.toNat = bits 0 1 ∧ f.tcw1.toNat = bits 2 3 ∧ f.tcw0.toNat = bits 5 3 ∧
      f.b2.toNat = bits 8 4 ∧ f.b1.toNat = bits 12 4 ∧ f.g2.toNat = bits 16 4 ∧ f.g1.toNat = bits 20 4 ∧
      f.r2.toNat = bits 24 4 ∧ f.r1.toNat = bits 28 4 ∧ f.selL.toNat = bits 32 16 ∧
      f.selM.toNat = bits 48 16) ∧
    (∀ f, decodeBlock w = .blockDiff f →
      bits 1 1 = 1 ∧ f.flip.toNat = bits 0 1 ∧ f.tcw1.toNat = bits 2 3 ∧ f.tcw0.toNat = bits 5 3 ∧
      f.db.toNat = bits 8 3 ∧ f.b1.toNat = bits 11 5 ∧ f.dg.toNat = bits 16 3 ∧ f.g1.toNat = bits 19 5 ∧
      f.dr.toNat = bits 24 3 ∧ f.r1.toNat = bits 27 5 ∧ f.selL.toNat = bits 32 16 ∧
      f.selM.toNat = bits 48 16) ∧
    (∀ f, decodeBlock w = .blockPlanar f →
      bits 1 1 = 1 ∧ f.ro.toNat = bits 25 6 ∧ f.go.toNat = 64 * bits 24 1 + bits 17 6 ∧
      f.bo.toNat = 32 * bits 16 1 + 8 * bits 11 2 + bits 7 3 ∧ f.rh.toNat = 2 * bits 2 5 + bits 0 1 ∧
      f.gh.toNat = bits 57 7 ∧ f.bh.toNat = bits 51 6 ∧ f.rv.toNat = bits 45 6 ∧ f.gv.toNat = bits 38 7 ∧
      f.bv.toNat = bits 32 6 ∧ f.f31.toNat = bits 31 1 ∧ f.f23.toNat = bits 23 1 ∧
      f.f15_13.toNat = bits 13 3 ∧ f.f10.toNat = bits 10 1)

/-- 30_encoding.md R59: the class of a decode word, red tested before green, green before blue. -/
def Obligations.ClassFollowsOverflowOrder : Prop :=
  ∀ (w : BlockWord) (r2 g2 b2 : Int),
    r2 = (w.extractLsb' 27 5).toNat + (w.extractLsb' 24 3).toInt →
    g2 = (w.extractLsb' 19 5).toNat + (w.extractLsb' 16 3).toInt →
    b2 = (w.extractLsb' 11 5).toNat + (w.extractLsb' 8 3).toInt →
    (classify w = .indiv ↔ w.getLsbD 1 = false) ∧
    (classify w = .t ↔ w.getLsbD 1 = true ∧ (r2 < 0 ∨ 31 < r2)) ∧
    (classify w = .h ↔ w.getLsbD 1 = true ∧ (0 ≤ r2 ∧ r2 ≤ 31) ∧ (g2 < 0 ∨ 31 < g2)) ∧
    (classify w = .planar ↔
      w.getLsbD 1 = true ∧ (0 ≤ r2 ∧ r2 ≤ 31) ∧ (0 ≤ g2 ∧ g2 ≤ 31) ∧ (b2 < 0 ∨ 31 < b2)) ∧
    (classify w = .diff ↔
      w.getLsbD 1 = true ∧ (0 ≤ r2 ∧ r2 ≤ 31) ∧ (0 ≤ g2 ∧ g2 ≤ 31) ∧ (0 ≤ b2 ∧ b2 ≤ 31))

/-- 30_encoding.md R60: the sixteen values of the byte `(v, dv)` that overflow. -/
def Obligations.OverflowSetIsTheSixteenBytes : Prop :=
  ∀ (v : BitVec 5) (dv : BitVec 3), overflows v dv = true ↔
    (v ++ dv : BitVec 8) ∈ ([0x04#8, 0x0C#8, 0x14#8, 0x1C#8, 0x05#8, 0x0D#8, 0x15#8, 0x06#8, 0x0E#8, 0x07#8,
      0xF9#8, 0xF2#8, 0xFA#8, 0xEB#8, 0xF3#8, 0xFB#8] : List (BitVec 8))

/-- 30_encoding.md R54: `P` reverses the bytes of each half, is an involution and a bijection, has the values
the rule names, and turns the memory bytes `b_0` to `b_7` into `b_4 b_5 b_6 b_7 b_0 b_1 b_2 b_3`. -/
def Obligations.PermutationReversesHalves : Prop :=
  (∀ d : BlockWord,
    (permute d).extractLsb' 0 8 = d.extractLsb' 24 8 ∧ (permute d).extractLsb' 8 8 = d.extractLsb' 16 8 ∧
    (permute d).extractLsb' 16 8 = d.extractLsb' 8 8 ∧ (permute d).extractLsb' 24 8 = d.extractLsb' 0 8 ∧
    (permute d).extractLsb' 32 8 = d.extractLsb' 56 8 ∧ (permute d).extractLsb' 40 8 = d.extractLsb' 48 8 ∧
    (permute d).extractLsb' 48 8 = d.extractLsb' 40 8 ∧ (permute d).extractLsb' 56 8 = d.extractLsb' 32 8) ∧
  (∀ d : BlockWord, permute (permute d) = d) ∧ Function.Bijective permute ∧
  permute 0#64 = 0#64 ∧ permute 0xFFFFFFFFFFFFFFFF#64 = 0xFFFFFFFFFFFFFFFF#64 ∧
  permute 0x0123456789ABCDEF#64 = 0x67452301EFCDAB89#64 ∧
  ∀ b0 b1 b2 b3 b4 b5 b6 b7 : Byte,
    permute (word8 b0 b1 b2 b3 b4 b5 b6 b7) = b4 ++ b5 ++ b6 ++ b7 ++ b0 ++ b1 ++ b2 ++ b3

/-- 30_encoding.md R66: with `K` the big-endian reading of the eight memory bytes, `w[n] = K[(n + 32) mod 64]`. -/
def Obligations.DecodeWordExchangesStandardHalves : Prop :=
  ∀ (b0 b1 b2 b3 b4 b5 b6 b7 : Byte) (n : Nat), n < 64 →
    (permute (word8 b0 b1 b2 b3 b4 b5 b6 b7)).getLsbD n =
      (b0 ++ b1 ++ b2 ++ b3 ++ b4 ++ b5 ++ b6 ++ b7).getLsbD ((n + 32) % 64)

/-! ## The packer -/

/-- 43_packer.md R117, R118, R119: PACK of legal operands leaves in `BLK` the word `w`, permuted, whose fields
are the operands, and changes nothing else. -/
def Obligations.PackAssemblesFields : Prop :=
  ∀ s : State, s.Idle → s.packOperandsLegal →
    ∃ w : BlockWord, exec .pack s = .next { s with blk := permute w } ∧
      (s.pk0.toNat % 4 < 2 →
        w.getLsbD 0 = s.pk0.getLsbD 2 ∧ w.getLsbD 1 = s.pk0.getLsbD 0 ∧
        w.extractLsb' 5 3 = s.pk0.extractLsb' 3 3 ∧ w.extractLsb' 2 3 = s.pk0.extractLsb' 6 3 ∧
        w.extractLsb' 32 32 = s.pk3) ∧
      (s.pk0.toNat % 4 = 0 →
        w.extractLsb' 28 4 = s.pk1.extractLsb' 0 4 ∧ w.extractLsb' 24 4 = s.pk2.extractLsb' 0 4 ∧
        w.extractLsb' 20 4 = s.pk1.extractLsb' 8 4 ∧ w.extractLsb' 16 4 = s.pk2.extractLsb' 8 4 ∧
        w.extractLsb' 12 4 = s.pk1.extractLsb' 16 4 ∧ w.extractLsb' 8 4 = s.pk2.extractLsb' 16 4) ∧
      (s.pk0.toNat % 4 = 1 →
        w.extractLsb' 27 5 = s.pk1.extractLsb' 0 5 ∧ w.extractLsb' 24 3 = s.pk2.extractLsb' 0 3 ∧
        w.extractLsb' 19 5 = s.pk1.extractLsb' 8 5 ∧ w.extractLsb' 16 3 = s.pk2.extractLsb' 8 3 ∧
        w.extractLsb' 11 5 = s.pk1.extractLsb' 16 5 ∧ w.extractLsb' 8 3 = s.pk2.extractLsb' 16 3) ∧
      (s.pk0.toNat % 4 = 2 →
        w.extractLsb' 25 6 = s.pk1.extractLsb' 0 6 ∧
        w.extractLsb' 24 1 = s.pk1.extractLsb' 14 1 ∧ w.extractLsb' 17 6 = s.pk1.extractLsb' 8 6 ∧
        w.extractLsb' 16 1 = s.pk1.extractLsb' 21 1 ∧ w.extractLsb' 11 2 = s.pk1.extractLsb' 19 2 ∧
        w.extractLsb' 7 3 = s.pk1.extractLsb' 16 3 ∧
        w.extractLsb' 2 5 = s.pk2.extractLsb' 1 5 ∧ w.getLsbD 0 = s.pk2.getLsbD 0 ∧
        w.getLsbD 1 = true ∧
        w.extractLsb' 57 7 = s.pk2.extractLsb' 8 7 ∧ w.extractLsb' 51 6 = s.pk2.extractLsb' 16 6 ∧
        w.extractLsb' 45 6 = s.pk3.extractLsb' 0 6 ∧ w.extractLsb' 38 7 = s.pk3.extractLsb' 8 7 ∧
        w.extractLsb' 32 6 = s.pk3.extractLsb' 16 6 ∧
        w.getLsbD 31 = s.pk1.getLsbD 1 ∧ w.getLsbD 23 = s.pk1.getLsbD 9 ∧
        (4 ≤ (s.pk1.extractLsb' 19 2).toNat + (s.pk1.extractLsb' 17 2).toNat →
          w.extractLsb' 13 3 = 0b111#3 ∧ w.getLsbD 10 = false) ∧
        ((s.pk1.extractLsb' 19 2).toNat + (s.pk1.extractLsb' 17 2).toNat < 4 →
          w.extractLsb' 13 3 = 0b000#3 ∧ w.getLsbD 10 = true))

/-- 43_packer.md R120: operands that fail a check raise `ERR_RANGE`, and nothing else changes. -/
def Obligations.PackChecksOperands : Prop :=
  ∀ s : State, s.Idle → ¬ s.packOperandsLegal → exec .pack s = .next (raise .range s)

/-- 43_packer.md R121 items 1 to 3: what PACK packed, the decoder extracts: the word's row and every field are
the operands', and a DECODE after the PACK runs that row. -/
def Obligations.PackThenDecodeReturnsFields : Prop :=
  ∀ s : State, s.Idle → s.packOperandsLegal →
    ∃ (t : State) (i : Instr), exec .pack s = .next t ∧ exec .decode t = exec i t ∧
      decodeBlock (permute t.blk) = i ∧ i.wellFormed = true ∧
      (s.pk0.toNat % 4 = 0 → i = .blockIndiv (packIndiv s)) ∧
      (s.pk0.toNat % 4 = 1 → i = .blockDiff (packDiff s)) ∧
      (s.pk0.toNat % 4 = 2 → i = .blockPlanar (packPlanar s))

/-- 43_packer.md R121 item 4: every word of class INDIV or DIFF is packed from exactly one setting of the
operand registers. -/
def Obligations.PackReachesEveryEtc1WordOnce : Prop :=
  ∀ (s : State) (w : BlockWord), s.Ready → classify w = .indiv ∨ classify w = .diff →
    ∃! p : BitVec 9 × Word × Word × Word,
      exec .pack (s.withPack p) = .next { s.withPack p with blk := permute w }

/-- 43_packer.md R119: whatever the nine colour fields, the free bits PACK chooses make the word PLANAR, and
for blue no other choice of `w[15:13]`, `w[10]` does. -/
def Obligations.PlanarFreeBitsForceBlueOverflow : Prop :=
  ∀ (ro : BitVec 6) (go : BitVec 7) (bo rh : BitVec 6) (gh : BitVec 7) (bh rv : BitVec 6) (gv : BitVec 7)
    (bv : BitVec 6) (f : PlanarFields),
    f = planarWithFreeBits ro go bo rh gh bh rv gv bv →
    f.wf = true ∧
    ∀ (f15_13 : BitVec 3) (f10 : Bool), PlanarFields.wf { f with f15_13 := f15_13, f10 := f10 } = true →
      f15_13 = f.f15_13 ∧ f10 = f.f10

/-! ## Registers, errors, the life of a command -/

/-- 10_state.md R10: the register map. -/
def Obligations.RegisterMapIsTheSpecs : Prop :=
  (([0x00#8, 0x04#8, 0x08#8, 0x0C#8, 0x10#8, 0x14#8, 0x18#8, 0x1C#8, 0x20#8, 0x24#8, 0x28#8, 0x2C#8, 0x30#8,
      0x34#8, 0x38#8, 0x3C#8, 0x40#8, 0x44#8, 0x48#8, 0x4C#8] : List (BitVec 8)).map Reg.ofOffset =
    ([.cmd, .status, .cfg, .cap, .ksel, .src, .width, .dst, .offset, .blocks, .curSrc, .curDst, .tcnt, .rem,
      .blkLo, .blkHi, .pk0, .pk1, .pk2, .pk3] : List Reg).map some) ∧
  (∀ off : BitVec 8, 0x50 ≤ off.toNat → off.toNat ≤ 0x7C → off.toNat % 4 = 0 →
    Reg.ofOffset off = some .reserved) ∧
  ∀ k : Fin 16, Reg.ofOffset (BitVec.ofNat 8 (0x80 + 4 * k.val)) = some (.tile k) ∧
    Reg.ofOffset (BitVec.ofNat 8 (0xC0 + 4 * k.val)) = some (.pix k)

/-- 10_state.md R12: the fields of `STATUS`, and the codes of `ECODE` and `MODE`. -/
def Obligations.StatusFieldsReadAsLaidOut : Prop :=
  ∀ (s : State) (v : Word), v = readReg s .status →
    v.getLsbD 0 = s.busy ∧ v.getLsbD 1 = false ∧ (v.getLsbD 2 = true ↔ v.extractLsb' 4 4 ≠ 0#4) ∧
    v.getLsbD 3 = false ∧ v.getLsbD 11 = s.unk ∧ v.extractLsb' 12 20 = 0#20 ∧
    (s.ecode = .none ↔ v.extractLsb' 4 4 = 0#4) ∧ (s.ecode = .cmd ↔ v.extractLsb' 4 4 = 1#4) ∧
    (s.ecode = .size ↔ v.extractLsb' 4 4 = 2#4) ∧ (s.ecode = .align ↔ v.extractLsb' 4 4 = 3#4) ∧
    (s.ecode = .bus ↔ v.extractLsb' 4 4 = 4#4) ∧ (s.ecode = .range ↔ v.extractLsb' 4 4 = 5#4) ∧
    (s.mode = .indiv ↔ v.extractLsb' 8 3 = 0#3) ∧ (s.mode = .diff ↔ v.extractLsb' 8 3 = 1#3) ∧
    (s.mode = .t ↔ v.extractLsb' 8 3 = 2#3) ∧ (s.mode = .h ↔ v.extractLsb' 8 3 = 3#3) ∧
    (s.mode = .planar ↔ v.extractLsb' 8 3 = 4#3)

/-- 10_state.md R22 items 2 and 3: a read returns the register's value at any time, busy or halted, `CMD` and
reserved offsets reading 0, and changes nothing of the unit. -/
def Obligations.HostReadReturnsRegister : Prop :=
  ∀ (s : State) (off : BitVec 8) (r : Reg) (rest : List HostEvent),
    s.inputs = .read off :: rest → Reg.ofOffset off = some r →
    ∃ v : Word, step s = .next { s with inputs := rest, lastRead := some v } ∧
      (r = .cmd ∨ r = .reserved → v = 0#32) ∧
      (r = .status → v = statusWord s) ∧ (r = .cfg → v = s.cfg.setWidth 32) ∧
      (r = .cap → v = if s.params.capAvx2 then 1#32 else 0#32) ∧ (r = .ksel → v = s.ksel.setWidth 32) ∧
      (r = .src → v = s.src) ∧ (r = .width → v = s.width) ∧ (r = .dst → v = s.dst) ∧
      (r = .offset → v = s.offset) ∧ (r = .blocks → v = s.blocks) ∧
      (r = .curSrc → v = s.curSrc) ∧ (r = .curDst → v = s.curDst) ∧ (r = .tcnt → v = s.tcnt) ∧
      (r = .rem → v = s.rem) ∧ (r = .blkLo → v = s.blk.extractLsb' 0 32) ∧
      (r = .blkHi → v = s.blk.extractLsb' 32 32) ∧ (r = .pk0 → v = s.pk0.setWidth 32) ∧
      (r = .pk1 → v = s.pk1) ∧ (r = .pk2 → v = s.pk2) ∧ (r = .pk3 → v = s.pk3) ∧
      (∀ k : Fin 16, r = .tile k → v = s.tile[k]) ∧ ∀ k : Fin 16, r = .pix k → v = s.pix[k]

/-- 10_state.md R22 items 3 to 5, R13, 43_packer.md R116: a host write to an idle unit, halted or not, lands in
the stored bits of a read-write register and in no other register; a write to a read-only register or a
reserved offset has no effect. -/
def Obligations.HostWriteThenRead : Prop :=
  ∀ (s : State) (off : BitVec 8) (v : Word) (r : Reg) (rest : List HostEvent),
    s.inputs = .write off v :: rest → Reg.ofOffset off = some r → r ≠ .cmd → s.busy = false →
    ∃ t : State, step s = .next t ∧
      (∀ r' : Reg, r' ≠ r → readReg t r' = readReg s r') ∧
      (r = .cfg → readReg t r = v &&& 0x00000007#32) ∧ (r = .pk0 → readReg t r = v &&& 0x000001FF#32) ∧
      (r = .src ∨ r = .width ∨ r = .dst ∨ r = .offset ∨ r = .blocks ∨ r = .blkLo ∨ r = .blkHi ∨
        r = .pk1 ∨ r = .pk2 ∨ r = .pk3 ∨ (∃ k, r = .tile k) → readReg t r = v) ∧
      (r = .status ∨ r = .cap ∨ r = .ksel ∨ r = .curSrc ∨ r = .curDst ∨ r = .tcnt ∨ r = .rem ∨
        r = .reserved ∨ (∃ k, r = .pix k) → t = { s with inputs := rest }) ∧
      t.mem = s.mem ∧ t.params = s.params ∧ t.todo = s.todo ∧ t.inputs = rest ∧ t.lastRead = s.lastRead

/-- 10_state.md R22 item 4: every aligned host write is ignored while `BUSY = 1`, one to `CMD` too. -/
def Obligations.BusyUnitIgnoresWrites : Prop :=
  ∀ (s : State) (off : BitVec 8) (v : Word) (rest : List HostEvent), s.busy = true → off.toNat % 4 = 0 →
    (s.inputs = .write off v :: rest ∨ s.inputs = .launch v :: rest) →
    step s = .next { s with inputs := rest }

/-- 93_implementation_defined.md U11 (the model's choice, notes/assumptions/9.md): a host access that is not
aligned is refused. -/
def Obligations.UnalignedHostAccessIsRefused : Prop :=
  ∀ (s : State) (off : BitVec 8) (v : Word) (rest : List HostEvent), off.toNat % 4 ≠ 0 →
    (s.inputs = .write off v :: rest ∨ s.inputs = .read off :: rest) →
    step s = .refused .unalignedHostAccess

/-- 60_exceptions.md R134: `raise E` records the code, clears `BUSY`, ends the command and changes no other
register and no memory; the unit then reads as halted. -/
def Obligations.RaiseRecordsOnlyTheCode : Prop :=
  ∀ (s : State) (e : Err), e ≠ .none →
    (∀ r : Reg, r ≠ .status → readReg (raise e s) r = readReg s r) ∧
    (readReg (raise e s) .status).extractLsb' 4 4 = errCode e ∧
    (readReg (raise e s) .status).getLsbD 2 = true ∧ (readReg (raise e s) .status).getLsbD 0 = false ∧
    (readReg (raise e s) .status).extractLsb' 8 4 = (readReg s .status).extractLsb' 8 4 ∧
    (raise e s).todo = [] ∧ (raise e s).mem = s.mem ∧ (raise e s).params = s.params ∧
    (raise e s).inputs = s.inputs ∧ (raise e s).lastRead = s.lastRead

/-- 30_encoding.md R51, R52: the legal command words are the eleven of the opcode map, each its own command. -/
def Obligations.LegalCommandWordsAreTheEleven : Prop :=
  ∀ (v : Word) (i : Instr), decodeCommand v = .ok i ↔
    (v, i) ∈ ([(0x00000000#32, .nop), (0x00000001#32, .select), (0x00000002#32, .gather),
      (0x00000003#32, .encode), (0x00000004#32, .store), (0x00000005#32, .process), (0x00000006#32, .load),
      (0x00000007#32, .decode), (0x00000008#32, .pack), (0x00000009#32, .start),
      (0x0000000F#32, .sreset)] : List (Word × Instr))

/-- 44_control.md R127: what a write of `v` to `CMD` does: ignored while busy; while halted only SRESET runs;
an illegal word raises `ERR_CMD` and changes nothing else; a legal one runs its command. -/
def Obligations.CommandWriteFollowsLifecycle : Prop :=
  ∀ (s t : State) (v : Word) (rest : List HostEvent),
    s.inputs = .write 0x00#8 v :: rest → t = { s with inputs := rest } →
    (s.busy = true → step s = .next t) ∧
    (s.busy = false → s.ecode ≠ .none → v = 0x0000000F#32 → step s = exec .sreset t) ∧
    (s.busy = false → s.ecode ≠ .none → v ≠ 0x0000000F#32 → step s = .next t) ∧
    (s.busy = false → s.ecode = .none → (∀ i, decodeCommand v ≠ .ok i) → step s = .next (raise .cmd t)) ∧
    ∀ i, s.busy = false → s.ecode = .none → decodeCommand v = .ok i → step s = exec i t

/-- 44_control.md R127 step 6: however a command ends, the unit is idle then: `BUSY = 0`. -/
def Obligations.CommandsEndIdle : Prop :=
  ∀ (i : Instr) (s t : State), exec i s = .next t → t.Idle

/-- 60_exceptions.md R139: the errors each command can raise, from a unit that is not halted. -/
def Obligations.ErrorsPerCommand : Prop :=
  ∀ (i : Instr) (s t : State), s.ecode = .none → exec i s = .next t →
    (i = .nop ∨ i = .select ∨ i = .encode ∨ i = .decode ∨ i = .sreset → t.ecode = .none) ∧
    (i = .start → t.ecode = .none ∨ t.ecode = .size ∨ t.ecode = .align) ∧
    (i = .gather ∨ i = .process → t.ecode = .none ∨ t.ecode = .size ∨ t.ecode = .align ∨ t.ecode = .bus) ∧
    (i = .store ∨ i = .load → t.ecode = .none ∨ t.ecode = .align ∨ t.ecode = .bus) ∧
    (i = .pack → t.ecode = .none ∨ t.ecode = .range)

/-- 44_control.md R128: the frame of each command: what is not listed for it is unchanged, in completion and in
error alike (`BUSY`, `ECODE` and the lines of the command apart). A block word changes what DECODE does. -/
def Obligations.CommandsChangeOnlyWhatIsListed : Prop :=
  ∀ (s t : State), ∀ same : State → Prop,
    (∀ u, same u ↔ u = { s with busy := u.busy, ecode := u.ecode, todo := u.todo }) →
    (exec .nop s = .next t → same t) ∧
    (exec .select s = .next t → same { t with ksel := s.ksel }) ∧
    (exec .start s = .next t →
      same { t with curSrc := s.curSrc, curDst := s.curDst, tcnt := s.tcnt, rem := s.rem }) ∧
    (exec .gather s = .next t → same { t with tile := s.tile, curSrc := s.curSrc, tcnt := s.tcnt }) ∧
    (exec .encode s = .next t →
      same { t with blk := s.blk, tile := if s.ksel.getLsbD 1 then s.tile else t.tile }) ∧
    (exec .store s = .next t → same { t with mem := s.mem, curDst := s.curDst }) ∧
    (exec .process s = .next t →
      same { t with
        ksel := s.ksel, curSrc := s.curSrc, curDst := s.curDst, tcnt := s.tcnt, rem := s.rem
        tile := s.tile, blk := s.blk, mem := s.mem }) ∧
    (exec .load s = .next t → same { t with blk := s.blk, curDst := s.curDst }) ∧
    (exec .decode s = .next t → same { t with pix := s.pix, mode := s.mode, unk := s.unk }) ∧
    (exec .pack s = .next t → same { t with blk := s.blk }) ∧
    (exec .sreset s = .next t → t.mem = s.mem ∧ t.params = s.params ∧ t.inputs = s.inputs) ∧
    (∀ w, exec (decodeBlock w) s = .next t → same { t with pix := s.pix, mode := s.mode, unk := s.unk })

/-! ## Fetching, decoding, encoding -/

/-- 44_control.md R127, 41_decoder.md R81: when the bytes of the word about to be written to `CMD` decode to an
instruction, one step of a ready unit is that instruction's meaning, the event taken from the queue; and when
that word is DECODE's, the step is also the meaning of the block word that the eight bytes of `BLK` decode to. -/
def Obligations.StepRunsDecodedInstruction : Prop :=
  ∀ (s : State) (v : Word) (i : Instr) (rest : List HostEvent), s.Ready →
    s.inputs = .write 0x00#8 v :: rest →
    (decode .command (bytes4 v) = .ok (i, []) → step s = exec i { s with inputs := rest }) ∧
    (v = 0x00000007#32 → decode .block (bytes8 s.blk) = .ok (i, []) →
      step s = exec i { s with inputs := rest })

/-- The model's own interface (notes/assumptions/14.md), derived from 44_control.md R127: from any state, the
step after withFetchWord runs the instruction decodeTableWord reads. -/
def Obligations.FetchWordRunsTableInstruction : Prop :=
  ∀ (s : State) (nbits w : Nat) (i : Instr), decodeTableWord nbits w = some i →
    ∃ t : State, step (s.withFetchWord nbits w) = exec i t ∧ t.Ready ∧
      t = { s with busy := false, todo := [], ecode := .none, blk := t.blk } ∧
      (nbits = 32 → t.blk = s.blk) ∧ (nbits ≠ 32 → permute t.blk = BitVec.ofNat 64 w)

/-- 30_encoding.md R50 to R64: decoding the encoding of a well-formed instruction gives it back, every operand
at every value, and leaves the bytes after it. -/
def Obligations.DecodeOfEncodeIsIdentity : Prop :=
  ∀ (i : Instr) (rest : List Byte), i.wellFormed = true →
    decode (encodeWord i).kind (encode i ++ rest) = .ok (i, rest)

/-- 30_encoding.md R59, R65: what decodes is well-formed, and encodes to the very bytes it was decoded from: no
bit of a command word or block word is dropped, and no two words decode alike. -/
def Obligations.EncodeOfDecodeIsIdentity : Prop :=
  ∀ (k : WordKind) (bytes rest : List Byte) (i : Instr), decode k bytes = .ok (i, rest) →
    i.wellFormed = true ∧ (encodeWord i).kind = k ∧ encode i ++ rest = bytes

/-- 30_encoding.md R51, 95_test_vectors.md sections 2.2 and 2.3: words written out from the spec decode to what
they stand for. -/
def Obligations.SpecWordsDecodeAsWritten : Prop :=
  decode .command [0x05#8, 0x00#8, 0x00#8, 0x00#8] = .ok (.process, []) ∧
  decode .command [0x0F#8, 0x00#8, 0x00#8, 0x00#8] = .ok (.sreset, []) ∧
  decode .command [0x17#8, 0x00#8, 0x00#8, 0x00#8] = .error .illegalCommand ∧
  decode .block [0x1F#8, 0x2E#8, 0x3D#8, 0x29#8, 0xCC#8, 0xCC#8, 0xAA#8, 0xAA#8] =
    .ok (.blockIndiv ⟨true, 1#3, 2#3, 1#4, 2#4, 3#4, 15#4, 14#4, 13#4, 0xAAAA#16, 0xCCCC#16⟩, []) ∧
  decode .block [0xF1#8, 0x80#8, 0x80#8, 0x02#8, 0#8, 0#8, 0#8, 0#8] =
    .ok (.blockDiff ⟨false, 0#3, 0#3, 30#5, 16#5, 16#5, 1#3, 0#3, 0#3, 0#16, 0#16⟩, []) ∧
  decode .block [0xE6#8, 0xC4#8, 0x14#8, 0xA3#8, 0xAB#8, 0x51#8, 0x0C#8, 0xCC#8] =
    .ok (.blockPlanar ⟨51#6, 34#7, 17#6, 17#6, 85#7, 42#6, 8#6, 51#7, 12#6, true, true, 0#3, true⟩, [])

/-- 30_encoding.md R68: `DECODEW d` of a ready unit leaves what DECODE leaves with `BLK = d`, and then reads
`STATUS`. That its `WAIT` is one read of `STATUS` is the model's choice (notes/assumptions/13.md). -/
def Obligations.DecodewRunsDecode : Prop :=
  ∀ (s t : State) (d : BlockWord), s.Ready → s.inputs = (ScriptLine.decodeW d).events →
    exec .decode { s with blk := d, inputs := [] } = .next t →
    Host.Core.run Sys2Proof.core 4 s =
      .next { t with inputs := [], lastRead := some (statusWord t) }

/-- 20_memory.md R31: a stored word reads back, its byte `i` at address `a + i`, and other bytes are as before. -/
def Obligations.BlockWordAccessIsLittleEndian : Prop :=
  ∀ (m : Memory) (a : Word) (d : BlockWord), Memory.wf m = true →
    memRead8 (memWrite8 m a d) a = d ∧
    (∀ i, i < 8 → readByte (memWrite8 m a d) (a.toNat + i) = d.extractLsb' (8 * i) 8) ∧
    (∀ x, ¬ inBytes a 8 x → readByte (memWrite8 m a d) x = readByte m x) ∧
    Memory.wf (memWrite8 m a d) = true ∧
    memRead4 m a = readByte m (a.toNat + 3) ++ readByte m (a.toNat + 2) ++ readByte m (a.toNat + 1)
      ++ readByte m a.toNat

/-- 20_memory.md R32, 00_scope.md R4 (the data that `Mapped` is held as is notes/assumptions/5.md): an access of
`n` bytes at `a` is admitted exactly when `a + n <= 2^32` and `Mapped(a, n)`, that is every one of its bytes is
in a region and no bar refuses the access; and any predicate that maps an access only where it maps its bytes
is `Mapped` for some regions and bars. -/
def Obligations.AdmissionIsBoundAndMapped : Prop :=
  (∀ (p : Params) (a : Word) (n : Nat), admitted p a n = true ↔
    a.toNat + n ≤ 2 ^ 32 ∧
    (∀ i, i < n → ∃ r ∈ p.regions, r.base ≤ a.toNat + i ∧ a.toNat + i < r.base + r.size) ∧
    ∀ b ∈ p.bars, ¬ (b.width = n ∧ b.base ≤ a.toNat ∧ a.toNat < b.base + b.size)) ∧
  ∀ M : Nat → Nat → Bool, (∀ a n i, M a n = true → i < n → M (a + i) 1 = true) →
    ∃ (regions : List Region) (bars : List Bar), ∀ p : Params, p.regions = regions → p.bars = bars →
      ∀ (a : Word) (n : Nat), admitted p a n = true ↔ a.toNat + n ≤ 2 ^ 32 ∧ M a.toNat n = true

/-- 20_memory.md R32, 10_state.md R14 (that the change of `Mapped` is an event, and its refusal, are the model's
choice, notes/assumptions/5.md): a change of `Mapped` in an idle unit changes it and nothing else, and is refused
while `BUSY = 1`; no other step changes a parameter, and no step at all the strap or the modifier table. -/
def Obligations.ParametersChangeOnlyByRemap : Prop :=
  (∀ (s : State) (regions : List Region) (bars : List Bar) (rest : List HostEvent),
    s.inputs = .remap regions bars :: rest →
    (s.busy = false → step s = .next { s with
      inputs := rest, params := { s.params with regions := regions, bars := bars } }) ∧
    (s.busy = true → step s = .refused .remapWhileBusy)) ∧
  ∀ s t : State, step s = .next t →
    t.params.capAvx2 = s.params.capAvx2 ∧ t.params.modtab = s.params.modtab ∧
    (t.params ≠ s.params → s.busy = false ∧ ∃ regions bars, s.inputs = .remap regions bars :: t.inputs)

/-- 20_memory.md R34 item 2, R41 (how other masters reach the machine is notes/assumptions/3.md): a store of the
host or another bus master, and the 8-byte store of another unit, put all their bytes into memory at once, keep
every other byte and change nothing else; another unit's access that is misaligned or not admitted (R32, R33)
changes nothing; a store that reaches past the last address is refused (the model's choice). -/
def Obligations.StoresOfOtherMastersAreWhole : Prop :=
  ∀ (s : State) (a : Word) (rest : List HostEvent), Memory.wf s.mem = true →
    (∀ bytes : List Byte, s.inputs = .busWrite a bytes :: rest →
      (a.toNat + bytes.length ≤ 2 ^ 32 →
        ∃ m : Memory, step s = .next { s with inputs := rest, mem := m } ∧ Memory.wf m = true ∧
          (∀ (i : Nat) (h : i < bytes.length), readByte m (a.toNat + i) = bytes[i]) ∧
          ∀ x : Nat, ¬ inBytes a bytes.length x → readByte m x = readByte s.mem x) ∧
      (2 ^ 32 < a.toNat + bytes.length → step s = .refused .busWritePastTop)) ∧
    ∀ d : BlockWord, s.inputs = .unitStore a d :: rest →
      (a.toNat % 8 = 0 → admitted s.params a 8 = true →
        ∃ m : Memory, step s = .next { s with inputs := rest, mem := m } ∧ Memory.wf m = true ∧
          memRead8 m a = d ∧ ∀ x : Nat, ¬ inBytes a 8 x → readByte m x = readByte s.mem x) ∧
      (a.toNat % 8 ≠ 0 ∨ admitted s.params a 8 = false → step s = .next { s with inputs := rest })

/-- 20_memory.md R34, 70_reset_and_hazards.md R154, R155 (at which moments the other store can land is
notes/assumptions/2.md and 3.md): whenever a word store of another unit or of the host lands during a LOAD of
that word, the LOAD returns the old or the new eight bytes, whole; and during a STORE to that word, the final
word is one of the two stored, whole. -/
def Obligations.RacingWordAccessesAreWhole : Prop :=
  ∀ (s u v t : State) (d : BlockWord) (e : HostEvent) (j n : Nat), s.Ready → Memory.wf s.mem = true →
    s.curDst.toNat % 8 = 0 → admitted s.params s.curDst 8 = true →
    e = .unitStore s.curDst d ∨ e = .busWrite s.curDst (bytes8 d) →
    hostEvent e (ticks j u) = .next v → t = ticks n v → t.busy = false →
    (hostEvent (.launch 0x00000006#32) s = .next u → t.blk = memRead8 s.mem s.curDst ∨ t.blk = d) ∧
    (hostEvent (.launch 0x00000004#32) s = .next u →
      memRead8 t.mem s.curDst = s.blk ∨ memRead8 t.mem s.curDst = d)

/-! ## The machine as a whole -/

/-- Every step keeps the invariant: canonical memory, aligned cursors (20_memory.md R33), no halted unit busy
(60_exceptions.md R134), `MODE` 2 or 3 only with `UNK` (10_state.md R12), `PIX` only decoder outputs (R21). -/
def Obligations.StepKeepsInvariant : Prop :=
  ∀ s t : State, s.Inv → step s = .next t → t.Inv

/-- The state after reset satisfies the invariant. -/
def Obligations.ResetSatisfiesInvariant : Prop := State.reset.Inv

/-- 44_control.md R127 steps 4 to 6 (the lines are the model's choice, notes/assumptions/2.md): a command left running and taken line by line, with nothing else
happening, ends in the very state its meaning gives. -/
def Obligations.LinesOfACommandReachItsMeaning : Prop :=
  ∀ (s t : State) (v : Word), s.Idle → hostEvent (.write 0x00#8 v) s = .next t →
    ∃ (u : State) (n : Nat), hostEvent (.launch v) s = .next u ∧ ticks n u = t

/-- 70_reset_and_hazards.md R151 (that it lands between two lines is notes/assumptions/2.md): a reset that lands after any number of lines of a PROCESS leaves the
registers at their reset values and the memory as a PROCESS of some `n` of its blocks leaves it: the first
`n` words whole, the rest untouched. -/
def Obligations.ResetDuringProcessKeepsWholeWords : Prop :=
  ∀ (s u : State) (j : Nat), s.Ready → hostEvent (.launch 0x00000005#32) s = .next u →
    ∃ (n : Nat) (t : State), n ≤ s.blocks.toNat ∧
      exec .process { s with blocks := BitVec.ofNat 32 n } = .next t ∧
      hostEvent .hwReset (ticks j u) = .next { s.resetUnit with mem := t.mem }
end

