-- ==== Sys2Proof/Laws/Admission.lean ====
section
/-! SUPPORT. What `Mapped` says of an access, and that its plain data can say whatever the rule allows
(20_memory.md R32; notes/assumptions/5.md). -/

namespace Sys2Proof.Machine

theorem mappedByte_iff {p : Params} {a : Nat} :
    mappedByte p a = true ↔ ∃ r ∈ p.regions, r.base ≤ a ∧ a < r.base + r.size := by
  simp [mappedByte]

theorem barred_iff {p : Params} {a n : Nat} :
    barred p a n = true ↔ ∃ b ∈ p.bars, b.width = n ∧ b.base ≤ a ∧ a < b.base + b.size := by
  simp [barred, and_assoc]

theorem mapped_iff {p : Params} {a n : Nat} :
    mapped p a n = true ↔ (∀ i, i < n → mappedByte p (a + i) = true) ∧ barred p a n = false := by
  simp [mapped]

/-- The bytes below a bound that a predicate maps, each a region of its own. -/
def regionsOf (M : Nat → Nat → Bool) (bound : Nat) : List Region :=
  ((List.range bound).filter fun a => M a 1).map fun a => ⟨a, 1⟩

/-- The accesses up to a bound that a predicate does not map, each a bar of its own. -/
def barsOf (M : Nat → Nat → Bool) (bound : Nat) : List Bar :=
  (List.range (bound + 1)).flatMap fun n =>
    ((List.range (bound + 1)).filter fun a => !M a n).map fun a => ⟨a, 1, n⟩

theorem mappedByte_regionsOf {M : Nat → Nat → Bool} {bound a : Nat} {p : Params}
    (hp : p.regions = regionsOf M bound) (ha : a < bound) : mappedByte p a = M a 1 := by
  rw [Bool.eq_iff_iff, mappedByte_iff, hp]
  simp only [regionsOf, List.mem_map, List.mem_filter, List.mem_range]
  constructor
  · rintro ⟨r, ⟨b, ⟨-, hb⟩, rfl⟩, h1, h2⟩
    obtain rfl : a = b := by dsimp only at h1 h2; omega
    exact hb
  · intro h
    exact ⟨⟨a, 1⟩, ⟨a, ⟨ha, h⟩, rfl⟩, Nat.le_refl a, Nat.lt_succ_self a⟩

theorem barred_barsOf {M : Nat → Nat → Bool} {bound a n : Nat} {p : Params}
    (hp : p.bars = barsOf M bound) (ha : a + n ≤ bound) : barred p a n = !M a n := by
  rw [Bool.eq_iff_iff, barred_iff, hp]
  simp only [barsOf, List.mem_flatMap, List.mem_map, List.mem_filter, List.mem_range]
  constructor
  · rintro ⟨r, ⟨k, -, b, ⟨-, hb⟩, rfl⟩, rfl, h1, h2⟩
    obtain rfl : a = b := by dsimp only at h1 h2; omega
    exact hb
  · intro h
    exact ⟨⟨a, 1, n⟩, ⟨n, by omega, a, ⟨by omega, h⟩, rfl⟩, rfl, Nat.le_refl a, Nat.lt_succ_self a⟩

/-- A predicate that maps an access only where it maps its bytes is what these regions and bars say. -/
theorem mapped_of_predicate {M : Nat → Nat → Bool} (hM : ∀ a n i, M a n = true → i < n → M (a + i) 1 = true)
    {bound a n : Nat} {p : Params} (hr : p.regions = regionsOf M bound) (hb : p.bars = barsOf M bound)
    (ha : a + n ≤ bound) : mapped p a n = M a n := by
  rw [Bool.eq_iff_iff, mapped_iff, barred_barsOf hb ha, Bool.not_eq_false']
  exact ⟨And.right, fun h => ⟨fun i hi => by
    rw [mappedByte_regionsOf hr (by omega)]; exact hM a n i h hi, h⟩⟩

end Sys2Proof.Machine
end

