-- ==== Sys2Proof/Laws/Bits.lean ====
section
/-! SUPPORT. Laws of the pure functions of Machine/Bits.lean: the permutation, byte order, the expansions,
the clamp and the channels of an opaque pixel. -/

namespace Sys2Proof.Machine

/-! ## The permutation -/

@[simp] theorem permute_permute (d : BlockWord) : permute (permute d) = d := by
  unfold permute
  ext i hi
  interval_cases i <;> simp

theorem permute_injective : Function.Injective permute := fun a b h => by
  simpa using congrArg permute h

/-! ## Byte order -/

@[simp] theorem word4_extract (v : Word) :
    word4 (v.extractLsb' 0 8) (v.extractLsb' 8 8) (v.extractLsb' 16 8) (v.extractLsb' 24 8) = v := by
  apply BitVec.eq_of_getLsbD_eq
  intro i hi
  simp only [word4, BitVec.getLsbD_append, BitVec.getLsbD_extractLsb']
  interval_cases i <;> simp

@[simp] theorem word8_extract (d : BlockWord) :
    word8 (d.extractLsb' 0 8) (d.extractLsb' 8 8) (d.extractLsb' 16 8) (d.extractLsb' 24 8)
      (d.extractLsb' 32 8) (d.extractLsb' 40 8) (d.extractLsb' 48 8) (d.extractLsb' 56 8) = d := by
  apply BitVec.eq_of_getLsbD_eq
  intro i hi
  simp only [word8, BitVec.getLsbD_append, BitVec.getLsbD_extractLsb']
  interval_cases i <;> simp

theorem bytes4_word4 (b0 b1 b2 b3 : Byte) : bytes4 (word4 b0 b1 b2 b3) = [b0, b1, b2, b3] := by
  simp only [bytes4, word4, List.cons.injEq, and_true]
  refine ⟨?_, ?_, ?_, ?_⟩ <;>
  · ext i hi
    simp only [BitVec.getElem_extractLsb', BitVec.getLsbD_append]
    grind

theorem bytes8_word8 (b0 b1 b2 b3 b4 b5 b6 b7 : Byte) :
    bytes8 (word8 b0 b1 b2 b3 b4 b5 b6 b7) = [b0, b1, b2, b3, b4, b5, b6, b7] := by
  simp only [bytes8, word8, List.cons.injEq, and_true]
  refine ⟨?_, ?_, ?_, ?_, ?_, ?_, ?_, ?_⟩ <;>
  · ext i hi
    simp only [BitVec.getElem_extractLsb', BitVec.getLsbD_append]
    grind

/-- The two halves of a stored word, written as `BLK_LO` and `BLK_HI` are. -/
@[simp] theorem halves_append (d : BlockWord) : d.extractLsb' 32 32 ++ d.extractLsb' 0 32 = d := by
  apply BitVec.eq_of_getLsbD_eq
  intro i hi
  simp only [BitVec.getLsbD_append, BitVec.getLsbD_extractLsb']
  by_cases h : i < 32
  · simp [h]
  · have h1 : i - 32 < 32 := by omega
    have h2 : 32 + (i - 32) = i := by omega
    simp [h, h1, h2]

theorem extract_low_append (a b : Word) : (a ++ b : BlockWord).extractLsb' 0 32 = b := by
  ext i hi
  simp only [BitVec.getElem_extractLsb', BitVec.getLsbD_append]
  grind

theorem extract_high_append (a b : Word) : (a ++ b : BlockWord).extractLsb' 32 32 = a := by
  ext i hi
  simp only [BitVec.getElem_extractLsb', BitVec.getLsbD_append]
  grind

/-! ## Expansions, sums, clamps -/

theorem expand4_toNat (v : BitVec 4) : (expand4 v).toNat = 17 * v.toNat := by
  revert v; decide

theorem expand5_toNat (v : BitVec 5) : (expand5 v).toNat = 8 * v.toNat + v.toNat / 4 := by
  revert v; decide

theorem expand6_toNat (v : BitVec 6) : (expand6 v).toNat = expand6Nat v := by
  revert v; decide

theorem expand7_toNat (v : BitVec 7) : (expand7 v).toNat = expand7Nat v := by
  revert v; decide

theorem sext3_eq_toInt (v : BitVec 3) : sext3 v = v.toInt := by
  revert v; decide

theorem diffSum_eq (v : BitVec 5) (dv : BitVec 3) : diffSum v dv = v.toNat + dv.toInt := by
  rw [diffSum, sext3_eq_toInt]

theorem overflows_iff (v : BitVec 5) (dv : BitVec 3) :
    overflows v dv = true ↔ (v.toNat : Int) + dv.toInt < 0 ∨ 31 < (v.toNat : Int) + dv.toInt := by
  simp [overflows, diffSum_eq]

theorem clampU8_toNat (v : Int) : ((clampU8 v).toNat : Int) = clampInt v := by
  unfold clampU8 clampInt
  split
  · simp; omega
  · split
    · simp; omega
    · rw [BitVec.toNat_ofInt]; omega

/-! ## Opaque pixels -/

@[simp] theorem opaquePixel_red (c : Rgb) : (opaquePixel c).extractLsb' 0 8 = c.r := by
  ext i hi
  simp only [opaquePixel, rgba, BitVec.getElem_extractLsb', BitVec.getLsbD_append]
  grind

@[simp] theorem opaquePixel_green (c : Rgb) : (opaquePixel c).extractLsb' 8 8 = c.g := by
  ext i hi
  simp only [opaquePixel, rgba, BitVec.getElem_extractLsb', BitVec.getLsbD_append]
  grind

@[simp] theorem opaquePixel_blue (c : Rgb) : (opaquePixel c).extractLsb' 16 8 = c.b := by
  ext i hi
  simp only [opaquePixel, rgba, BitVec.getElem_extractLsb', BitVec.getLsbD_append]
  grind

@[simp] theorem opaquePixel_alpha (c : Rgb) : (opaquePixel c).extractLsb' 24 8 = 0xFF#8 := by
  ext i hi
  simp only [opaquePixel, rgba, BitVec.getElem_extractLsb', BitVec.getLsbD_append]
  grind

/-- A pixel of three clamped channels, in plain numbers. -/
theorem opaquePixel_is (r g b : Int) :
    pixelIs (opaquePixel ⟨clampU8 r, clampU8 g, clampU8 b⟩) r g b := by
  simp [pixelIs, clampU8_toNat]

end Sys2Proof.Machine
end

