-- ==== Sys2Proof/Laws/Decode.lean ====
section
/-! SUPPORT. Laws of the decoder and the encoder: field extraction and word assembly undo each other
(30_encoding.md R56 to R64), and the class of an assembled word (R59). -/

namespace Sys2Proof

open Machine

/-! ## Extraction after assembly -/

@[simp] theorem indivFields_indivWord (f : IndivFields) : indivFields (indivWord f) = f := by
  cases f
  simp only [indivFields, IndivFields.mk.injEq]
  refine ⟨?_, ?_, ?_, ?_, ?_, ?_, ?_, ?_, ?_, ?_, ?_⟩
  · (simp only [indivWord, BitVec.getLsbD_append]; simp)
  all_goals
    ext i hi
    simp only [indivWord, BitVec.getElem_extractLsb', BitVec.getLsbD_append]
    grind

@[simp] theorem diffFields_diffWord (f : DiffFields) : diffFields (diffWord f) = f := by
  cases f
  simp only [diffFields, DiffFields.mk.injEq, fieldR1, fieldDr, fieldG1, fieldDg, fieldB1, fieldDb]
  refine ⟨?_, ?_, ?_, ?_, ?_, ?_, ?_, ?_, ?_, ?_, ?_⟩
  · (simp only [diffWord, BitVec.getLsbD_append]; simp)
  all_goals
    ext i hi
    simp only [diffWord, BitVec.getElem_extractLsb', BitVec.getLsbD_append]
    grind

@[simp] theorem tFields_tWord (f : TFields) : tFields (tWord f) = f := by
  cases f
  simp only [tFields, TFields.mk.injEq, fieldR1, fieldDr]
  refine ⟨?_, ?_, ?_, ?_, ?_⟩
  on_goal 5 => (simp only [tWord, BitVec.getLsbD_append]; simp)
  all_goals
    ext i hi
    simp only [tWord, BitVec.getElem_extractLsb', BitVec.getLsbD_append]
    grind

@[simp] theorem hFields_hWord (f : HFields) : hFields (hWord f) = f := by
  cases f
  simp only [hFields, HFields.mk.injEq, fieldR1, fieldDr, fieldG1, fieldDg]
  refine ⟨?_, ?_, ?_, ?_, ?_, ?_, ?_⟩
  on_goal 7 => (simp only [hWord, BitVec.getLsbD_append]; simp)
  all_goals
    ext i hi
    simp only [hWord, BitVec.getElem_extractLsb', BitVec.getLsbD_append]
    grind

@[simp] theorem planarFields_planarWord (f : PlanarFields) : planarFields (planarWord f) = f := by
  cases f
  simp only [planarFields, PlanarFields.mk.injEq]
  refine ⟨?_, ?_, ?_, ?_, ?_, ?_, ?_, ?_, ?_, ?_, ?_, ?_, ?_⟩
  on_goal 13 => (simp only [planarWord, BitVec.getLsbD_append]; simp)
  on_goal 11 => (simp only [planarWord, BitVec.getLsbD_append]; simp)
  on_goal 10 => (simp only [planarWord, BitVec.getLsbD_append]; simp)
  all_goals
    ext i hi
    simp only [planarWord, BitVec.getElem_extractLsb', BitVec.getLsbD_append, BitVec.getElem_append,
      BitVec.getLsbD_extractLsb']
    grind

/-! ## Assembly after extraction -/

theorem indivWord_indivFields {w : BlockWord} (h : w.getLsbD 1 = false) :
    indivWord (indivFields w) = w := by
  apply BitVec.eq_of_getLsbD_eq
  intro i hi
  simp only [indivWord, indivFields, BitVec.getLsbD_append, BitVec.getLsbD_extractLsb']
  interval_cases i <;> first | (simp; done) | simpa using h.symm

theorem diffWord_diffFields {w : BlockWord} (h : w.getLsbD 1 = true) : diffWord (diffFields w) = w := by
  apply BitVec.eq_of_getLsbD_eq
  intro i hi
  simp only [diffWord, diffFields, fieldR1, fieldDr, fieldG1, fieldDg, fieldB1, fieldDb,
    BitVec.getLsbD_append, BitVec.getLsbD_extractLsb']
  interval_cases i <;> first | (simp; done) | simpa using h.symm

theorem tWord_tFields {w : BlockWord} (h : w.getLsbD 1 = true) : tWord (tFields w) = w := by
  apply BitVec.eq_of_getLsbD_eq
  intro i hi
  simp only [tWord, tFields, fieldR1, fieldDr, BitVec.getLsbD_append, BitVec.getLsbD_extractLsb']
  interval_cases i <;> first | (simp; done) | simpa using h.symm

theorem hWord_hFields {w : BlockWord} (h : w.getLsbD 1 = true) : hWord (hFields w) = w := by
  apply BitVec.eq_of_getLsbD_eq
  intro i hi
  simp only [hWord, hFields, fieldR1, fieldDr, fieldG1, fieldDg, BitVec.getLsbD_append,
    BitVec.getLsbD_extractLsb']
  interval_cases i <;> first | (simp; done) | simpa using h.symm

theorem planarWord_planarFields {w : BlockWord} (h : w.getLsbD 1 = true) :
    planarWord (planarFields w) = w := by
  apply BitVec.eq_of_getLsbD_eq
  intro i hi
  simp only [planarWord, planarFields, BitVec.getLsbD_append, BitVec.getLsbD_extractLsb']
  interval_cases i <;> first | (simp; done) | simpa using h.symm

/-! ## The bits mode detection reads, in an assembled word -/

theorem indivWord_bit1 (f : IndivFields) : (indivWord f).getLsbD 1 = false := by
  (simp only [indivWord, BitVec.getLsbD_append]; simp)

theorem diffWord_bit1 (f : DiffFields) : (diffWord f).getLsbD 1 = true := by
  (simp only [diffWord, BitVec.getLsbD_append]; simp)

theorem tWord_bit1 (f : TFields) : (tWord f).getLsbD 1 = true := by
  (simp only [tWord, BitVec.getLsbD_append]; simp)

theorem hWord_bit1 (f : HFields) : (hWord f).getLsbD 1 = true := by
  (simp only [hWord, BitVec.getLsbD_append]; simp)

theorem planarWord_bit1 (f : PlanarFields) : (planarWord f).getLsbD 1 = true := by
  (simp only [planarWord, BitVec.getLsbD_append]; simp)

theorem fieldR1_planarWord (f : PlanarFields) : fieldR1 (planarWord f) = f.r1 := by
  ext i hi
  simp only [planarWord, fieldR1, PlanarFields.r1, BitVec.getElem_extractLsb', BitVec.getLsbD_append,
    BitVec.getLsbD_extractLsb']
  grind

theorem fieldDr_planarWord (f : PlanarFields) : fieldDr (planarWord f) = f.dr := by
  ext i hi
  simp only [planarWord, fieldDr, PlanarFields.dr, BitVec.getElem_extractLsb', BitVec.getLsbD_append,
    BitVec.getLsbD_extractLsb']
  grind

theorem fieldG1_planarWord (f : PlanarFields) : fieldG1 (planarWord f) = f.g1 := by
  ext i hi
  simp only [planarWord, fieldG1, PlanarFields.g1, BitVec.getElem_extractLsb', BitVec.getLsbD_append,
    BitVec.getLsbD_extractLsb']
  grind

theorem fieldDg_planarWord (f : PlanarFields) : fieldDg (planarWord f) = f.dg := by
  ext i hi
  simp only [planarWord, fieldDg, PlanarFields.dg, BitVec.getElem_extractLsb', BitVec.getLsbD_append,
    BitVec.getLsbD_extractLsb']
  grind

theorem fieldB1_planarWord (f : PlanarFields) : fieldB1 (planarWord f) = f.b1 := by
  ext i hi
  simp only [planarWord, fieldB1, PlanarFields.b1, BitVec.getElem_extractLsb', BitVec.getLsbD_append,
    BitVec.getLsbD_extractLsb']
  grind

theorem fieldDb_planarWord (f : PlanarFields) : fieldDb (planarWord f) = f.db := by
  ext i hi
  simp only [planarWord, fieldDb, PlanarFields.db, BitVec.getElem_extractLsb', BitVec.getLsbD_append,
    BitVec.getLsbD_extractLsb']
  grind

/-! ## The class of a word -/

theorem classify_eq_indiv {w : BlockWord} : classify w = .indiv ↔ w.getLsbD 1 = false := by
  unfold classify; split_ifs <;> simp_all

theorem classify_eq_t {w : BlockWord} : classify w = .t ↔
    w.getLsbD 1 = true ∧ overflows (fieldR1 w) (fieldDr w) = true := by
  unfold classify; split_ifs <;> simp_all

theorem classify_eq_h {w : BlockWord} : classify w = .h ↔
    w.getLsbD 1 = true ∧ overflows (fieldR1 w) (fieldDr w) = false ∧
      overflows (fieldG1 w) (fieldDg w) = true := by
  unfold classify; split_ifs <;> simp_all

theorem classify_eq_planar {w : BlockWord} : classify w = .planar ↔
    w.getLsbD 1 = true ∧ overflows (fieldR1 w) (fieldDr w) = false ∧
      overflows (fieldG1 w) (fieldDg w) = false ∧ overflows (fieldB1 w) (fieldDb w) = true := by
  unfold classify; split_ifs <;> simp_all

theorem classify_eq_diff {w : BlockWord} : classify w = .diff ↔
    w.getLsbD 1 = true ∧ overflows (fieldR1 w) (fieldDr w) = false ∧
      overflows (fieldG1 w) (fieldDg w) = false ∧ overflows (fieldB1 w) (fieldDb w) = false := by
  unfold classify; split_ifs <;> simp_all

theorem classify_indivWord (f : IndivFields) : classify (indivWord f) = .indiv :=
  classify_eq_indiv.2 (indivWord_bit1 f)

theorem classify_diffWord {f : DiffFields} (h : f.wf = true) : classify (diffWord f) = .diff := by
  have e := diffFields_diffWord f
  simp only [diffFields] at e
  rw [classify_eq_diff]
  refine ⟨diffWord_bit1 f, ?_⟩
  rw [← e] at h
  simpa [DiffFields.wf, and_assoc] using h

theorem classify_tWord {f : TFields} (h : f.wf = true) : classify (tWord f) = .t := by
  have e := tFields_tWord f
  simp only [tFields] at e
  rw [classify_eq_t]
  refine ⟨tWord_bit1 f, ?_⟩
  rw [← e] at h
  simpa [TFields.wf] using h

theorem classify_hWord {f : HFields} (h : f.wf = true) : classify (hWord f) = .h := by
  have e := hFields_hWord f
  simp only [hFields] at e
  rw [classify_eq_h]
  refine ⟨hWord_bit1 f, ?_⟩
  rw [← e] at h
  simpa [HFields.wf] using h

theorem classify_planarWord {f : PlanarFields} (h : f.wf = true) : classify (planarWord f) = .planar := by
  rw [classify_eq_planar]
  refine ⟨planarWord_bit1 f, ?_⟩
  simpa [PlanarFields.wf, fieldR1_planarWord, fieldDr_planarWord, fieldG1_planarWord, fieldDg_planarWord,
    fieldB1_planarWord, fieldDb_planarWord, and_assoc] using h

/-! ## Block words and their terms -/

theorem decodeBlock_indivWord (f : IndivFields) : decodeBlock (indivWord f) = .blockIndiv f := by
  simp [decodeBlock, classify_indivWord]

theorem decodeBlock_diffWord {f : DiffFields} (h : f.wf = true) :
    decodeBlock (diffWord f) = .blockDiff f := by
  simp [decodeBlock, classify_diffWord h]

theorem decodeBlock_tWord {f : TFields} (h : f.wf = true) : decodeBlock (tWord f) = .blockT f := by
  simp [decodeBlock, classify_tWord h]

theorem decodeBlock_hWord {f : HFields} (h : f.wf = true) : decodeBlock (hWord f) = .blockH f := by
  simp [decodeBlock, classify_hWord h]

theorem decodeBlock_planarWord {f : PlanarFields} (h : f.wf = true) :
    decodeBlock (planarWord f) = .blockPlanar f := by
  simp [decodeBlock, classify_planarWord h]

theorem diffFields_wf {w : BlockWord} (h : classify w = .diff) : (diffFields w).wf = true := by
  simpa [DiffFields.wf, diffFields, and_assoc] using (classify_eq_diff.1 h).2

theorem tFields_wf {w : BlockWord} (h : classify w = .t) : (tFields w).wf = true := by
  simpa [TFields.wf, tFields] using (classify_eq_t.1 h).2

theorem hFields_wf {w : BlockWord} (h : classify w = .h) : (hFields w).wf = true := by
  simpa [HFields.wf, hFields] using (classify_eq_h.1 h).2

theorem planarFields_wf {w : BlockWord} (h : classify w = .planar) : (planarFields w).wf = true := by
  have h := classify_eq_planar.1 h
  have e := planarWord_planarFields h.1
  rw [PlanarFields.wf, ← fieldR1_planarWord, ← fieldDr_planarWord, ← fieldG1_planarWord,
    ← fieldDg_planarWord, ← fieldB1_planarWord, ← fieldDb_planarWord, e]
  simpa [and_assoc] using h.2

/-- What decodes as a block word encodes to that word, and is well-formed. -/
theorem encodeWord_decodeBlock (w : BlockWord) :
    encodeWord (decodeBlock w) = .block w ∧ (decodeBlock w).wellFormed = true := by
  rcases h : classify w with _ | _ | _ | _ | _ <;> simp only [decodeBlock, h]
  · exact ⟨congrArg _ (indivWord_indivFields (classify_eq_indiv.1 h)), rfl⟩
  · exact ⟨congrArg _ (diffWord_diffFields (classify_eq_diff.1 h).1), diffFields_wf h⟩
  · exact ⟨congrArg _ (tWord_tFields (classify_eq_t.1 h).1), tFields_wf h⟩
  · exact ⟨congrArg _ (hWord_hFields (classify_eq_h.1 h).1), hFields_wf h⟩
  · exact ⟨congrArg _ (planarWord_planarFields (classify_eq_planar.1 h).1), planarFields_wf h⟩

/-- The block word an encoded instruction decodes to. -/
theorem decodeBlock_encodeWord {i : Instr} {w : BlockWord} (h : i.wellFormed = true)
    (e : encodeWord i = .block w) : decodeBlock w = i := by
  cases i <;> simp only [encodeWord, Encoded.block.injEq, reduceCtorEq] at e <;> subst e
  · exact decodeBlock_indivWord _
  · exact decodeBlock_diffWord h
  · exact decodeBlock_tWord h
  · exact decodeBlock_hWord h
  · exact decodeBlock_planarWord h

/-! ## Command words -/

/-- A command word decodes to an instruction exactly when that instruction is encoded as it. -/
theorem decodeCommand_eq_ok {v : Word} {i : Instr} :
    decodeCommand v = .ok i ↔ encodeWord i = .command v := by
  constructor
  · unfold decodeCommand
    split <;> intro h <;> simp only [Except.ok.injEq, reduceCtorEq] at h <;> subst h <;>
      simp only [encodeWord, Encoded.command.injEq] <;> apply BitVec.eq_of_toNat_eq <;> simp_all
  · cases i <;> simp only [encodeWord, Encoded.command.injEq, reduceCtorEq, false_imp_iff] <;>
      rintro rfl <;> rfl

end Sys2Proof
end

