-- ==== Sys2Proof/Laws/Memory.lean ====
section
/-! SUPPORT. Laws of the memory: the canonical form is kept, a read after a write, and equal memories
from equal reads (20_memory.md R30, R31). -/

namespace Sys2Proof.Machine

/-! ## The canonical form -/

/-- The canonical form, as a property of all pairs of entries. -/
theorem Memory.wf_iff {m : Memory} : Memory.wf m = true ↔
    m.Pairwise (fun c d => c.1 < d.1) ∧ ∀ c ∈ m, c.2 ≠ Memory.blank := by
  induction m with
  | nil => simp [Memory.wf]
  | cons c m ih =>
    obtain ⟨a, v⟩ := c
    cases m with
    | nil => simp [Memory.wf]
    | cons d m =>
      obtain ⟨b, u⟩ := d
      simp only [Memory.wf, Bool.and_eq_true, decide_eq_true_eq, ih, List.pairwise_cons, List.mem_cons,
        forall_eq_or_imp]
      constructor
      · rintro ⟨⟨h1, h2⟩, ⟨h3, h4⟩, h5⟩
        exact ⟨⟨⟨h1, fun x hx => h1.trans (h3 x hx)⟩, h3, h4⟩, h2, h5⟩
      · rintro ⟨⟨⟨h1, -⟩, h3, h4⟩, h2, h5⟩
        exact ⟨⟨h1, h2⟩, ⟨h3, h4⟩, h5⟩

theorem Memory.wf_cons {a : Nat} {v : Byte} {m : Memory} : Memory.wf ((a, v) :: m) = true ↔
    v ≠ Memory.blank ∧ (∀ c ∈ m, a < c.1) ∧ Memory.wf m = true := by
  simp only [Memory.wf_iff, List.pairwise_cons, List.mem_cons, forall_eq_or_imp]
  tauto

theorem Memory.wf_nil : Memory.wf [] = true := rfl

/-- A byte below every listed address is not listed. -/
theorem readByte_of_lt {m : Memory} {a : Nat} (h : ∀ c ∈ m, a < c.1) : readByte m a = Memory.blank := by
  induction m with
  | nil => rfl
  | cons c m ih =>
    obtain ⟨b, u⟩ := c
    have hb := h (b, u) (by simp)
    simp only [readByte, if_neg (show a ≠ b by simp at hb; omega)]
    exact ih fun c hc => h c (by simp [hc])

/-- Every entry of a written memory is the written one or an entry that was there. -/
theorem mem_writeByte {a : Nat} {v : Byte} {m : Memory} {c : Host.Cell} (h : c ∈ writeByte a v m) :
    (c = (a, v) ∧ v ≠ Memory.blank) ∨ c ∈ m := by
  induction m with
  | nil => simp only [writeByte] at h; split at h <;> simp_all
  | cons d m ih =>
    obtain ⟨b, u⟩ := d
    simp only [writeByte] at h
    split_ifs at h <;> simp only [List.mem_cons] at h ⊢ <;> tauto

/-- Writing a byte keeps the canonical form. -/
theorem wf_writeByte {m : Memory} (h : Memory.wf m = true) (a : Nat) (v : Byte) :
    Memory.wf (writeByte a v m) = true := by
  induction m with
  | nil => simp only [writeByte]; split <;> simp_all [Memory.wf]
  | cons d m ih =>
    obtain ⟨b, u⟩ := d
    have ⟨hu, hb, hm⟩ := Memory.wf_cons.1 h
    simp only [writeByte]
    split_ifs with h1 h2 h3 h4
    · exact h
    · refine Memory.wf_cons.2 ⟨h2, ?_, h⟩
      intro c hc
      rcases List.mem_cons.1 hc with rfl | hc
      · exact h1
      · exact h1.trans (hb c hc)
    · exact hm
    · subst h3; exact Memory.wf_cons.2 ⟨h4, hb, hm⟩
    · refine Memory.wf_cons.2 ⟨hu, fun c hc => ?_, ih hm⟩
      rcases mem_writeByte hc with ⟨rfl, -⟩ | hc
      · simp only; omega
      · exact hb c hc

/-- A byte read after one byte was written. -/
theorem readByte_writeByte {m : Memory} (h : Memory.wf m = true) (a : Nat) (v : Byte) (x : Nat) :
    readByte (writeByte a v m) x = if x = a then v else readByte m x := by
  induction m with
  | nil => simp only [writeByte]; split_ifs <;> simp_all [readByte]
  | cons d m ih =>
    obtain ⟨b, u⟩ := d
    have ⟨hu, hb, hm⟩ := Memory.wf_cons.1 h
    rcases lt_trichotomy a b with h1 | rfl | h1
    · have hlow : readByte ((b, u) :: m) a = Memory.blank :=
        readByte_of_lt fun c hc => by
          rcases List.mem_cons.1 hc with rfl | hc
          · exact h1
          · exact h1.trans (hb c hc)
      simp only [writeByte, if_pos h1]
      split_ifs <;> first | (simp_all; done) | simp [readByte, *]
    · have hlow : readByte m a = Memory.blank := readByte_of_lt hb
      simp only [writeByte, lt_irrefl, if_false, if_true]
      split_ifs <;> simp_all [readByte]
    · simp only [writeByte, if_neg (not_lt.2 h1.le), if_neg h1.ne', readByte, ih hm]
      split_ifs <;> first | rfl | omega

/-- Equal bytes at every address make equal memories, in the canonical form. -/
theorem Memory.ext_of_reads {m n : Memory} (hm : Memory.wf m = true) (hn : Memory.wf n = true)
    (h : ∀ a, readByte m a = readByte n a) : m = n := by
  induction m generalizing n with
  | nil =>
    cases n with
    | nil => rfl
    | cons d n =>
      obtain ⟨b, u⟩ := d
      exact absurd (by simpa [readByte] using (h b).symm) (Memory.wf_cons.1 hn).1
  | cons c m ih =>
    obtain ⟨a, v⟩ := c
    have ⟨hv, ha, hm'⟩ := Memory.wf_cons.1 hm
    cases n with
    | nil => exact absurd (by simpa [readByte] using h a) hv
    | cons d n =>
      obtain ⟨b, u⟩ := d
      have ⟨hu, hb, hn'⟩ := Memory.wf_cons.1 hn
      have above {l : Memory} {k x : Nat} (hl : ∀ c ∈ l, k < c.1) (hx : x < k) :
          readByte l x = Memory.blank := readByte_of_lt fun c hc => hx.trans (hl c hc)
      have hab : a = b := by
        rcases lt_trichotomy a b with hlt | he | hlt
        · have := h a
          simp only [readByte, if_true, if_neg hlt.ne, above hb hlt] at this
          exact absurd this hv
        · exact he
        · have := (h b).symm
          simp only [readByte, if_true, if_neg hlt.ne, above ha hlt] at this
          exact absurd this hu
      subst hab
      have hvu : v = u := by simpa [readByte] using h a
      subst hvu
      rw [ih hm' hn' fun x => ?_]
      by_cases hx : x = a
      · subst hx; rw [readByte_of_lt ha, readByte_of_lt hb]
      · simpa [readByte, hx] using h x

/-! ## Writes of several bytes -/

theorem wf_writeBytes {m : Memory} (h : Memory.wf m = true) (a : Nat) (bs : List Byte) :
    Memory.wf (writeBytes a bs m) = true := by
  induction bs generalizing a m with
  | nil => exact h
  | cons b bs ih => exact ih (wf_writeByte h a b) (a + 1)

/-- A byte outside the written ones reads as before. -/
theorem readByte_writeBytes_other {m : Memory} (h : Memory.wf m = true) (a : Nat) (bs : List Byte)
    (x : Nat) (hx : x < a ∨ a + bs.length ≤ x) : readByte (writeBytes a bs m) x = readByte m x := by
  induction bs generalizing a m with
  | nil => rfl
  | cons b bs ih =>
    simp only [List.length_cons] at hx
    rw [writeBytes, ih (wf_writeByte h a b) _ (by omega), readByte_writeByte h, if_neg (by omega)]

/-- A written byte reads as written. -/
theorem readByte_writeBytes_same {m : Memory} (h : Memory.wf m = true) (a : Nat) (bs : List Byte)
    (i : Nat) (hi : i < bs.length) : readByte (writeBytes a bs m) (a + i) = bs[i] := by
  induction bs generalizing a m i with
  | nil => simp at hi
  | cons b bs ih =>
    cases i with
    | zero =>
      rw [writeBytes, readByte_writeBytes_other (wf_writeByte h a b) _ _ _ (by omega),
        readByte_writeByte h]
      simp
    | succ i =>
      have := ih (wf_writeByte h a b) (a + 1) i (by simpa using hi)
      rw [writeBytes, show a + (i + 1) = a + 1 + i by omega, this]
      rfl

/-! ## Block words -/

theorem wf_memWrite8 {m : Memory} (h : Memory.wf m = true) (a : Word) (d : BlockWord) :
    Memory.wf (memWrite8 m a d) = true := wf_writeBytes h _ _

theorem readByte_memWrite8_other {m : Memory} (h : Memory.wf m = true) (a : Word) (d : BlockWord) (x : Nat)
    (hx : ¬ inBytes a 8 x) : readByte (memWrite8 m a d) x = readByte m x :=
  readByte_writeBytes_other h _ _ _ (by simp only [inBytes, not_and, not_lt] at hx; simp [bytes8]; omega)

theorem readByte_memWrite8_same {m : Memory} (h : Memory.wf m = true) (a : Word) (d : BlockWord) (i : Nat)
    (hi : i < 8) : readByte (memWrite8 m a d) (a.toNat + i) = d.extractLsb' (8 * i) 8 := by
  rw [memWrite8, readByte_writeBytes_same h _ _ i (by simpa [bytes8] using hi)]
  interval_cases i <;> rfl

/-- A stored word reads back. -/
theorem memRead8_memWrite8 {m : Memory} (h : Memory.wf m = true) (a : Word) (d : BlockWord) :
    memRead8 (memWrite8 m a d) a = d := by
  have r (i : Nat) (hi : i < 8) := readByte_memWrite8_same h a d i hi
  have r0 := r 0 (by omega)
  rw [Nat.add_zero] at r0
  rw [memRead8, r0, r 1 (by omega), r 2 (by omega), r 3 (by omega), r 4 (by omega), r 5 (by omega),
    r 6 (by omega), r 7 (by omega)]
  exact word8_extract d

/-- A read of eight bytes depends on those bytes only. -/
theorem memRead8_congr {m n : Memory} {a : Word}
    (h : ∀ i, i < 8 → readByte m (a.toNat + i) = readByte n (a.toNat + i)) : memRead8 m a = memRead8 n a := by
  have h0 := h 0 (by omega)
  rw [Nat.add_zero] at h0
  rw [memRead8, memRead8, h0, h 1 (by omega), h 2 (by omega), h 3 (by omega), h 4 (by omega),
    h 5 (by omega), h 6 (by omega), h 7 (by omega)]

/-- A read of four bytes depends on those bytes only. -/
theorem memRead4_congr {m n : Memory} {a : Word}
    (h : ∀ i, i < 4 → readByte m (a.toNat + i) = readByte n (a.toNat + i)) : memRead4 m a = memRead4 n a := by
  have h0 := h 0 (by omega)
  rw [Nat.add_zero] at h0
  rw [memRead4, memRead4, h0, h 1 (by omega), h 2 (by omega), h 3 (by omega)]

/-- Byte `i` of a word read from memory is the byte at `a + i`. -/
theorem extract_memRead8 (m : Memory) (a : Word) (i : Nat) (hi : i < 8) :
    (memRead8 m a).extractLsb' (8 * i) 8 = readByte m (a.toNat + i) := by
  have h := bytes8_word8 (readByte m a.toNat) (readByte m (a.toNat + 1)) (readByte m (a.toNat + 2))
    (readByte m (a.toNat + 3)) (readByte m (a.toNat + 4)) (readByte m (a.toNat + 5))
    (readByte m (a.toNat + 6)) (readByte m (a.toNat + 7))
  simp only [bytes8, List.cons.injEq] at h
  obtain ⟨h0, h1, h2, h3, h4, h5, h6, h7, -⟩ := h
  interval_cases i
  exacts [h0, h1, h2, h3, h4, h5, h6, h7]

end Sys2Proof.Machine
end

