-- ==== Sys2Proof/Laws/State.lean ====
section
/-! SUPPORT. One lemma per field per update of the state, so that no later proof unfolds a record update. -/

namespace Sys2Proof.Machine

/-! ## `raise` (60_exceptions.md R134) -/

@[simp] theorem raise_cfg (e : Err) (s : State) : (raise e s).cfg = s.cfg := rfl
@[simp] theorem raise_ksel (e : Err) (s : State) : (raise e s).ksel = s.ksel := rfl
@[simp] theorem raise_src (e : Err) (s : State) : (raise e s).src = s.src := rfl
@[simp] theorem raise_width (e : Err) (s : State) : (raise e s).width = s.width := rfl
@[simp] theorem raise_dst (e : Err) (s : State) : (raise e s).dst = s.dst := rfl
@[simp] theorem raise_offset (e : Err) (s : State) : (raise e s).offset = s.offset := rfl
@[simp] theorem raise_blocks (e : Err) (s : State) : (raise e s).blocks = s.blocks := rfl
@[simp] theorem raise_curSrc (e : Err) (s : State) : (raise e s).curSrc = s.curSrc := rfl
@[simp] theorem raise_curDst (e : Err) (s : State) : (raise e s).curDst = s.curDst := rfl
@[simp] theorem raise_tcnt (e : Err) (s : State) : (raise e s).tcnt = s.tcnt := rfl
@[simp] theorem raise_rem (e : Err) (s : State) : (raise e s).rem = s.rem := rfl
@[simp] theorem raise_blk (e : Err) (s : State) : (raise e s).blk = s.blk := rfl
@[simp] theorem raise_pk0 (e : Err) (s : State) : (raise e s).pk0 = s.pk0 := rfl
@[simp] theorem raise_pk1 (e : Err) (s : State) : (raise e s).pk1 = s.pk1 := rfl
@[simp] theorem raise_pk2 (e : Err) (s : State) : (raise e s).pk2 = s.pk2 := rfl
@[simp] theorem raise_pk3 (e : Err) (s : State) : (raise e s).pk3 = s.pk3 := rfl
@[simp] theorem raise_tile (e : Err) (s : State) : (raise e s).tile = s.tile := rfl
@[simp] theorem raise_pix (e : Err) (s : State) : (raise e s).pix = s.pix := rfl
@[simp] theorem raise_busy (e : Err) (s : State) : (raise e s).busy = false := rfl
@[simp] theorem raise_ecode (e : Err) (s : State) : (raise e s).ecode = e := rfl
@[simp] theorem raise_mode (e : Err) (s : State) : (raise e s).mode = s.mode := rfl
@[simp] theorem raise_unk (e : Err) (s : State) : (raise e s).unk = s.unk := rfl
@[simp] theorem raise_mem (e : Err) (s : State) : (raise e s).mem = s.mem := rfl
@[simp] theorem raise_params (e : Err) (s : State) : (raise e s).params = s.params := rfl
@[simp] theorem raise_todo (e : Err) (s : State) : (raise e s).todo = [] := rfl
@[simp] theorem raise_inputs (e : Err) (s : State) : (raise e s).inputs = s.inputs := rfl
@[simp] theorem raise_lastRead (e : Err) (s : State) : (raise e s).lastRead = s.lastRead := rfl

/-! ## Acceptance (44_control.md R127 step 4) -/

@[simp] theorem accept_cfg (s : State) : (accept s).cfg = s.cfg := rfl
@[simp] theorem accept_ksel (s : State) : (accept s).ksel = s.ksel := rfl
@[simp] theorem accept_src (s : State) : (accept s).src = s.src := rfl
@[simp] theorem accept_width (s : State) : (accept s).width = s.width := rfl
@[simp] theorem accept_dst (s : State) : (accept s).dst = s.dst := rfl
@[simp] theorem accept_offset (s : State) : (accept s).offset = s.offset := rfl
@[simp] theorem accept_blocks (s : State) : (accept s).blocks = s.blocks := rfl
@[simp] theorem accept_curSrc (s : State) : (accept s).curSrc = s.curSrc := rfl
@[simp] theorem accept_curDst (s : State) : (accept s).curDst = s.curDst := rfl
@[simp] theorem accept_tcnt (s : State) : (accept s).tcnt = s.tcnt := rfl
@[simp] theorem accept_rem (s : State) : (accept s).rem = s.rem := rfl
@[simp] theorem accept_blk (s : State) : (accept s).blk = s.blk := rfl
@[simp] theorem accept_pk0 (s : State) : (accept s).pk0 = s.pk0 := rfl
@[simp] theorem accept_pk1 (s : State) : (accept s).pk1 = s.pk1 := rfl
@[simp] theorem accept_pk2 (s : State) : (accept s).pk2 = s.pk2 := rfl
@[simp] theorem accept_pk3 (s : State) : (accept s).pk3 = s.pk3 := rfl
@[simp] theorem accept_tile (s : State) : (accept s).tile = s.tile := rfl
@[simp] theorem accept_pix (s : State) : (accept s).pix = s.pix := rfl
@[simp] theorem accept_busy (s : State) : (accept s).busy = true := rfl
@[simp] theorem accept_ecode (s : State) : (accept s).ecode = s.ecode := rfl
@[simp] theorem accept_mode (s : State) : (accept s).mode = s.mode := rfl
@[simp] theorem accept_unk (s : State) : (accept s).unk = s.unk := rfl
@[simp] theorem accept_mem (s : State) : (accept s).mem = s.mem := rfl
@[simp] theorem accept_params (s : State) : (accept s).params = s.params := rfl
@[simp] theorem accept_todo (s : State) : (accept s).todo = s.todo := rfl
@[simp] theorem accept_inputs (s : State) : (accept s).inputs = s.inputs := rfl
@[simp] theorem accept_lastRead (s : State) : (accept s).lastRead = s.lastRead := rfl

/-! ## Completion (44_control.md R127 step 6) -/

@[simp] theorem complete_cfg (s : State) : (complete s).cfg = s.cfg := rfl
@[simp] theorem complete_ksel (s : State) : (complete s).ksel = s.ksel := rfl
@[simp] theorem complete_src (s : State) : (complete s).src = s.src := rfl
@[simp] theorem complete_width (s : State) : (complete s).width = s.width := rfl
@[simp] theorem complete_dst (s : State) : (complete s).dst = s.dst := rfl
@[simp] theorem complete_offset (s : State) : (complete s).offset = s.offset := rfl
@[simp] theorem complete_blocks (s : State) : (complete s).blocks = s.blocks := rfl
@[simp] theorem complete_curSrc (s : State) : (complete s).curSrc = s.curSrc := rfl
@[simp] theorem complete_curDst (s : State) : (complete s).curDst = s.curDst := rfl
@[simp] theorem complete_tcnt (s : State) : (complete s).tcnt = s.tcnt := rfl
@[simp] theorem complete_rem (s : State) : (complete s).rem = s.rem := rfl
@[simp] theorem complete_blk (s : State) : (complete s).blk = s.blk := rfl
@[simp] theorem complete_pk0 (s : State) : (complete s).pk0 = s.pk0 := rfl
@[simp] theorem complete_pk1 (s : State) : (complete s).pk1 = s.pk1 := rfl
@[simp] theorem complete_pk2 (s : State) : (complete s).pk2 = s.pk2 := rfl
@[simp] theorem complete_pk3 (s : State) : (complete s).pk3 = s.pk3 := rfl
@[simp] theorem complete_tile (s : State) : (complete s).tile = s.tile := rfl
@[simp] theorem complete_pix (s : State) : (complete s).pix = s.pix := rfl
@[simp] theorem complete_busy (s : State) : (complete s).busy = false := rfl
@[simp] theorem complete_ecode (s : State) : (complete s).ecode = s.ecode := rfl
@[simp] theorem complete_mode (s : State) : (complete s).mode = s.mode := rfl
@[simp] theorem complete_unk (s : State) : (complete s).unk = s.unk := rfl
@[simp] theorem complete_mem (s : State) : (complete s).mem = s.mem := rfl
@[simp] theorem complete_params (s : State) : (complete s).params = s.params := rfl
@[simp] theorem complete_todo (s : State) : (complete s).todo = [] := rfl
@[simp] theorem complete_inputs (s : State) : (complete s).inputs = s.inputs := rfl
@[simp] theorem complete_lastRead (s : State) : (complete s).lastRead = s.lastRead := rfl

/-! ## The post-increment of `CUR_DST` -/

@[simp] theorem stepCurDst_cfg (s : State) : (stepCurDst s).cfg = s.cfg := rfl
@[simp] theorem stepCurDst_ksel (s : State) : (stepCurDst s).ksel = s.ksel := rfl
@[simp] theorem stepCurDst_src (s : State) : (stepCurDst s).src = s.src := rfl
@[simp] theorem stepCurDst_width (s : State) : (stepCurDst s).width = s.width := rfl
@[simp] theorem stepCurDst_dst (s : State) : (stepCurDst s).dst = s.dst := rfl
@[simp] theorem stepCurDst_offset (s : State) : (stepCurDst s).offset = s.offset := rfl
@[simp] theorem stepCurDst_blocks (s : State) : (stepCurDst s).blocks = s.blocks := rfl
@[simp] theorem stepCurDst_curSrc (s : State) : (stepCurDst s).curSrc = s.curSrc := rfl
@[simp] theorem stepCurDst_curDst (s : State) : (stepCurDst s).curDst = s.curDst + 8#32 := rfl
@[simp] theorem stepCurDst_tcnt (s : State) : (stepCurDst s).tcnt = s.tcnt := rfl
@[simp] theorem stepCurDst_rem (s : State) : (stepCurDst s).rem = s.rem := rfl
@[simp] theorem stepCurDst_blk (s : State) : (stepCurDst s).blk = s.blk := rfl
@[simp] theorem stepCurDst_pk0 (s : State) : (stepCurDst s).pk0 = s.pk0 := rfl
@[simp] theorem stepCurDst_pk1 (s : State) : (stepCurDst s).pk1 = s.pk1 := rfl
@[simp] theorem stepCurDst_pk2 (s : State) : (stepCurDst s).pk2 = s.pk2 := rfl
@[simp] theorem stepCurDst_pk3 (s : State) : (stepCurDst s).pk3 = s.pk3 := rfl
@[simp] theorem stepCurDst_tile (s : State) : (stepCurDst s).tile = s.tile := rfl
@[simp] theorem stepCurDst_pix (s : State) : (stepCurDst s).pix = s.pix := rfl
@[simp] theorem stepCurDst_busy (s : State) : (stepCurDst s).busy = s.busy := rfl
@[simp] theorem stepCurDst_ecode (s : State) : (stepCurDst s).ecode = s.ecode := rfl
@[simp] theorem stepCurDst_mode (s : State) : (stepCurDst s).mode = s.mode := rfl
@[simp] theorem stepCurDst_unk (s : State) : (stepCurDst s).unk = s.unk := rfl
@[simp] theorem stepCurDst_mem (s : State) : (stepCurDst s).mem = s.mem := rfl
@[simp] theorem stepCurDst_params (s : State) : (stepCurDst s).params = s.params := rfl
@[simp] theorem stepCurDst_todo (s : State) : (stepCurDst s).todo = s.todo := rfl
@[simp] theorem stepCurDst_inputs (s : State) : (stepCurDst s).inputs = s.inputs := rfl
@[simp] theorem stepCurDst_lastRead (s : State) : (stepCurDst s).lastRead = s.lastRead := rfl

/-! ## START's cursor (42_gatherer.md R100) -/

@[simp] theorem initCursor_cfg (s : State) : (initCursor s).cfg = s.cfg := rfl
@[simp] theorem initCursor_ksel (s : State) : (initCursor s).ksel = s.ksel := rfl
@[simp] theorem initCursor_src (s : State) : (initCursor s).src = s.src := rfl
@[simp] theorem initCursor_width (s : State) : (initCursor s).width = s.width := rfl
@[simp] theorem initCursor_dst (s : State) : (initCursor s).dst = s.dst := rfl
@[simp] theorem initCursor_offset (s : State) : (initCursor s).offset = s.offset := rfl
@[simp] theorem initCursor_blocks (s : State) : (initCursor s).blocks = s.blocks := rfl
@[simp] theorem initCursor_curSrc (s : State) : (initCursor s).curSrc = s.src := rfl
@[simp] theorem initCursor_curDst (s : State) : (initCursor s).curDst = s.dst + 8#32 * s.offset := rfl
@[simp] theorem initCursor_tcnt (s : State) : (initCursor s).tcnt = 0#32 := rfl
@[simp] theorem initCursor_rem (s : State) : (initCursor s).rem = s.blocks := rfl
@[simp] theorem initCursor_blk (s : State) : (initCursor s).blk = s.blk := rfl
@[simp] theorem initCursor_pk0 (s : State) : (initCursor s).pk0 = s.pk0 := rfl
@[simp] theorem initCursor_pk1 (s : State) : (initCursor s).pk1 = s.pk1 := rfl
@[simp] theorem initCursor_pk2 (s : State) : (initCursor s).pk2 = s.pk2 := rfl
@[simp] theorem initCursor_pk3 (s : State) : (initCursor s).pk3 = s.pk3 := rfl
@[simp] theorem initCursor_tile (s : State) : (initCursor s).tile = s.tile := rfl
@[simp] theorem initCursor_pix (s : State) : (initCursor s).pix = s.pix := rfl
@[simp] theorem initCursor_busy (s : State) : (initCursor s).busy = s.busy := rfl
@[simp] theorem initCursor_ecode (s : State) : (initCursor s).ecode = s.ecode := rfl
@[simp] theorem initCursor_mode (s : State) : (initCursor s).mode = s.mode := rfl
@[simp] theorem initCursor_unk (s : State) : (initCursor s).unk = s.unk := rfl
@[simp] theorem initCursor_mem (s : State) : (initCursor s).mem = s.mem := rfl
@[simp] theorem initCursor_params (s : State) : (initCursor s).params = s.params := rfl
@[simp] theorem initCursor_todo (s : State) : (initCursor s).todo = s.todo := rfl
@[simp] theorem initCursor_inputs (s : State) : (initCursor s).inputs = s.inputs := rfl
@[simp] theorem initCursor_lastRead (s : State) : (initCursor s).lastRead = s.lastRead := rfl

/-! ## SELECT (40_selector.md R70) -/

@[simp] theorem selectBody_cfg (s : State) : (selectBody s).cfg = s.cfg := rfl
@[simp] theorem selectBody_ksel (s : State) : (selectBody s).ksel = selectKernel s.alphaAsLuma s.etc2 s.dither s.params.capAvx2 := rfl
@[simp] theorem selectBody_src (s : State) : (selectBody s).src = s.src := rfl
@[simp] theorem selectBody_width (s : State) : (selectBody s).width = s.width := rfl
@[simp] theorem selectBody_dst (s : State) : (selectBody s).dst = s.dst := rfl
@[simp] theorem selectBody_offset (s : State) : (selectBody s).offset = s.offset := rfl
@[simp] theorem selectBody_blocks (s : State) : (selectBody s).blocks = s.blocks := rfl
@[simp] theorem selectBody_curSrc (s : State) : (selectBody s).curSrc = s.curSrc := rfl
@[simp] theorem selectBody_curDst (s : State) : (selectBody s).curDst = s.curDst := rfl
@[simp] theorem selectBody_tcnt (s : State) : (selectBody s).tcnt = s.tcnt := rfl
@[simp] theorem selectBody_rem (s : State) : (selectBody s).rem = s.rem := rfl
@[simp] theorem selectBody_blk (s : State) : (selectBody s).blk = s.blk := rfl
@[simp] theorem selectBody_pk0 (s : State) : (selectBody s).pk0 = s.pk0 := rfl
@[simp] theorem selectBody_pk1 (s : State) : (selectBody s).pk1 = s.pk1 := rfl
@[simp] theorem selectBody_pk2 (s : State) : (selectBody s).pk2 = s.pk2 := rfl
@[simp] theorem selectBody_pk3 (s : State) : (selectBody s).pk3 = s.pk3 := rfl
@[simp] theorem selectBody_tile (s : State) : (selectBody s).tile = s.tile := rfl
@[simp] theorem selectBody_pix (s : State) : (selectBody s).pix = s.pix := rfl
@[simp] theorem selectBody_busy (s : State) : (selectBody s).busy = s.busy := rfl
@[simp] theorem selectBody_ecode (s : State) : (selectBody s).ecode = s.ecode := rfl
@[simp] theorem selectBody_mode (s : State) : (selectBody s).mode = s.mode := rfl
@[simp] theorem selectBody_unk (s : State) : (selectBody s).unk = s.unk := rfl
@[simp] theorem selectBody_mem (s : State) : (selectBody s).mem = s.mem := rfl
@[simp] theorem selectBody_params (s : State) : (selectBody s).params = s.params := rfl
@[simp] theorem selectBody_todo (s : State) : (selectBody s).todo = s.todo := rfl
@[simp] theorem selectBody_inputs (s : State) : (selectBody s).inputs = s.inputs := rfl
@[simp] theorem selectBody_lastRead (s : State) : (selectBody s).lastRead = s.lastRead := rfl

/-! ## ENCODE (40_selector.md R73) -/

@[simp] theorem encodeBody_cfg (s : State) : (encodeBody s).cfg = s.cfg := rfl
@[simp] theorem encodeBody_ksel (s : State) : (encodeBody s).ksel = s.ksel := rfl
@[simp] theorem encodeBody_src (s : State) : (encodeBody s).src = s.src := rfl
@[simp] theorem encodeBody_width (s : State) : (encodeBody s).width = s.width := rfl
@[simp] theorem encodeBody_dst (s : State) : (encodeBody s).dst = s.dst := rfl
@[simp] theorem encodeBody_offset (s : State) : (encodeBody s).offset = s.offset := rfl
@[simp] theorem encodeBody_blocks (s : State) : (encodeBody s).blocks = s.blocks := rfl
@[simp] theorem encodeBody_curSrc (s : State) : (encodeBody s).curSrc = s.curSrc := rfl
@[simp] theorem encodeBody_curDst (s : State) : (encodeBody s).curDst = s.curDst := rfl
@[simp] theorem encodeBody_tcnt (s : State) : (encodeBody s).tcnt = s.tcnt := rfl
@[simp] theorem encodeBody_rem (s : State) : (encodeBody s).rem = s.rem := rfl
@[simp] theorem encodeBody_blk (s : State) : (encodeBody s).blk = (kernel s.ksel s.tile).2 := rfl
@[simp] theorem encodeBody_pk0 (s : State) : (encodeBody s).pk0 = s.pk0 := rfl
@[simp] theorem encodeBody_pk1 (s : State) : (encodeBody s).pk1 = s.pk1 := rfl
@[simp] theorem encodeBody_pk2 (s : State) : (encodeBody s).pk2 = s.pk2 := rfl
@[simp] theorem encodeBody_pk3 (s : State) : (encodeBody s).pk3 = s.pk3 := rfl
@[simp] theorem encodeBody_tile (s : State) : (encodeBody s).tile = (kernel s.ksel s.tile).1 := rfl
@[simp] theorem encodeBody_pix (s : State) : (encodeBody s).pix = s.pix := rfl
@[simp] theorem encodeBody_busy (s : State) : (encodeBody s).busy = s.busy := rfl
@[simp] theorem encodeBody_ecode (s : State) : (encodeBody s).ecode = s.ecode := rfl
@[simp] theorem encodeBody_mode (s : State) : (encodeBody s).mode = s.mode := rfl
@[simp] theorem encodeBody_unk (s : State) : (encodeBody s).unk = s.unk := rfl
@[simp] theorem encodeBody_mem (s : State) : (encodeBody s).mem = s.mem := rfl
@[simp] theorem encodeBody_params (s : State) : (encodeBody s).params = s.params := rfl
@[simp] theorem encodeBody_todo (s : State) : (encodeBody s).todo = s.todo := rfl
@[simp] theorem encodeBody_inputs (s : State) : (encodeBody s).inputs = s.inputs := rfl
@[simp] theorem encodeBody_lastRead (s : State) : (encodeBody s).lastRead = s.lastRead := rfl

/-! ## DECODE's flags (41_decoder.md R81) -/

@[simp] theorem setModeFlags_cfg (m : Mode) (s : State) : (setModeFlags m s).cfg = s.cfg := rfl
@[simp] theorem setModeFlags_ksel (m : Mode) (s : State) : (setModeFlags m s).ksel = s.ksel := rfl
@[simp] theorem setModeFlags_src (m : Mode) (s : State) : (setModeFlags m s).src = s.src := rfl
@[simp] theorem setModeFlags_width (m : Mode) (s : State) : (setModeFlags m s).width = s.width := rfl
@[simp] theorem setModeFlags_dst (m : Mode) (s : State) : (setModeFlags m s).dst = s.dst := rfl
@[simp] theorem setModeFlags_offset (m : Mode) (s : State) : (setModeFlags m s).offset = s.offset := rfl
@[simp] theorem setModeFlags_blocks (m : Mode) (s : State) : (setModeFlags m s).blocks = s.blocks := rfl
@[simp] theorem setModeFlags_curSrc (m : Mode) (s : State) : (setModeFlags m s).curSrc = s.curSrc := rfl
@[simp] theorem setModeFlags_curDst (m : Mode) (s : State) : (setModeFlags m s).curDst = s.curDst := rfl
@[simp] theorem setModeFlags_tcnt (m : Mode) (s : State) : (setModeFlags m s).tcnt = s.tcnt := rfl
@[simp] theorem setModeFlags_rem (m : Mode) (s : State) : (setModeFlags m s).rem = s.rem := rfl
@[simp] theorem setModeFlags_blk (m : Mode) (s : State) : (setModeFlags m s).blk = s.blk := rfl
@[simp] theorem setModeFlags_pk0 (m : Mode) (s : State) : (setModeFlags m s).pk0 = s.pk0 := rfl
@[simp] theorem setModeFlags_pk1 (m : Mode) (s : State) : (setModeFlags m s).pk1 = s.pk1 := rfl
@[simp] theorem setModeFlags_pk2 (m : Mode) (s : State) : (setModeFlags m s).pk2 = s.pk2 := rfl
@[simp] theorem setModeFlags_pk3 (m : Mode) (s : State) : (setModeFlags m s).pk3 = s.pk3 := rfl
@[simp] theorem setModeFlags_tile (m : Mode) (s : State) : (setModeFlags m s).tile = s.tile := rfl
@[simp] theorem setModeFlags_pix (m : Mode) (s : State) : (setModeFlags m s).pix = s.pix := rfl
@[simp] theorem setModeFlags_busy (m : Mode) (s : State) : (setModeFlags m s).busy = s.busy := rfl
@[simp] theorem setModeFlags_ecode (m : Mode) (s : State) : (setModeFlags m s).ecode = s.ecode := rfl
@[simp] theorem setModeFlags_mode (m : Mode) (s : State) : (setModeFlags m s).mode = m := rfl
@[simp] theorem setModeFlags_unk (m : Mode) (s : State) : (setModeFlags m s).unk = (s.unk || unknownMode m) := rfl
@[simp] theorem setModeFlags_mem (m : Mode) (s : State) : (setModeFlags m s).mem = s.mem := rfl
@[simp] theorem setModeFlags_params (m : Mode) (s : State) : (setModeFlags m s).params = s.params := rfl
@[simp] theorem setModeFlags_todo (m : Mode) (s : State) : (setModeFlags m s).todo = s.todo := rfl
@[simp] theorem setModeFlags_inputs (m : Mode) (s : State) : (setModeFlags m s).inputs = s.inputs := rfl
@[simp] theorem setModeFlags_lastRead (m : Mode) (s : State) : (setModeFlags m s).lastRead = s.lastRead := rfl

/-! ## A decoded block (41_decoder.md R81) -/

@[simp] theorem showBlock_cfg (m : Mode) (px : Tile) (s : State) : (showBlock m px s).cfg = s.cfg := rfl
@[simp] theorem showBlock_ksel (m : Mode) (px : Tile) (s : State) : (showBlock m px s).ksel = s.ksel := rfl
@[simp] theorem showBlock_src (m : Mode) (px : Tile) (s : State) : (showBlock m px s).src = s.src := rfl
@[simp] theorem showBlock_width (m : Mode) (px : Tile) (s : State) : (showBlock m px s).width = s.width := rfl
@[simp] theorem showBlock_dst (m : Mode) (px : Tile) (s : State) : (showBlock m px s).dst = s.dst := rfl
@[simp] theorem showBlock_offset (m : Mode) (px : Tile) (s : State) : (showBlock m px s).offset = s.offset := rfl
@[simp] theorem showBlock_blocks (m : Mode) (px : Tile) (s : State) : (showBlock m px s).blocks = s.blocks := rfl
@[simp] theorem showBlock_curSrc (m : Mode) (px : Tile) (s : State) : (showBlock m px s).curSrc = s.curSrc := rfl
@[simp] theorem showBlock_curDst (m : Mode) (px : Tile) (s : State) : (showBlock m px s).curDst = s.curDst := rfl
@[simp] theorem showBlock_tcnt (m : Mode) (px : Tile) (s : State) : (showBlock m px s).tcnt = s.tcnt := rfl
@[simp] theorem showBlock_rem (m : Mode) (px : Tile) (s : State) : (showBlock m px s).rem = s.rem := rfl
@[simp] theorem showBlock_blk (m : Mode) (px : Tile) (s : State) : (showBlock m px s).blk = s.blk := rfl
@[simp] theorem showBlock_pk0 (m : Mode) (px : Tile) (s : State) : (showBlock m px s).pk0 = s.pk0 := rfl
@[simp] theorem showBlock_pk1 (m : Mode) (px : Tile) (s : State) : (showBlock m px s).pk1 = s.pk1 := rfl
@[simp] theorem showBlock_pk2 (m : Mode) (px : Tile) (s : State) : (showBlock m px s).pk2 = s.pk2 := rfl
@[simp] theorem showBlock_pk3 (m : Mode) (px : Tile) (s : State) : (showBlock m px s).pk3 = s.pk3 := rfl
@[simp] theorem showBlock_tile (m : Mode) (px : Tile) (s : State) : (showBlock m px s).tile = s.tile := rfl
@[simp] theorem showBlock_pix (m : Mode) (px : Tile) (s : State) : (showBlock m px s).pix = px := rfl
@[simp] theorem showBlock_busy (m : Mode) (px : Tile) (s : State) : (showBlock m px s).busy = s.busy := rfl
@[simp] theorem showBlock_ecode (m : Mode) (px : Tile) (s : State) : (showBlock m px s).ecode = s.ecode := rfl
@[simp] theorem showBlock_mode (m : Mode) (px : Tile) (s : State) : (showBlock m px s).mode = m := rfl
@[simp] theorem showBlock_unk (m : Mode) (px : Tile) (s : State) : (showBlock m px s).unk = (s.unk || unknownMode m) := rfl
@[simp] theorem showBlock_mem (m : Mode) (px : Tile) (s : State) : (showBlock m px s).mem = s.mem := rfl
@[simp] theorem showBlock_params (m : Mode) (px : Tile) (s : State) : (showBlock m px s).params = s.params := rfl
@[simp] theorem showBlock_todo (m : Mode) (px : Tile) (s : State) : (showBlock m px s).todo = s.todo := rfl
@[simp] theorem showBlock_inputs (m : Mode) (px : Tile) (s : State) : (showBlock m px s).inputs = s.inputs := rfl
@[simp] theorem showBlock_lastRead (m : Mode) (px : Tile) (s : State) : (showBlock m px s).lastRead = s.lastRead := rfl

/-! ## Lines added in front of the running command's -/

@[simp] theorem pushLines_cfg (l : List Act) (s : State) : (pushLines l s).cfg = s.cfg := rfl
@[simp] theorem pushLines_ksel (l : List Act) (s : State) : (pushLines l s).ksel = s.ksel := rfl
@[simp] theorem pushLines_src (l : List Act) (s : State) : (pushLines l s).src = s.src := rfl
@[simp] theorem pushLines_width (l : List Act) (s : State) : (pushLines l s).width = s.width := rfl
@[simp] theorem pushLines_dst (l : List Act) (s : State) : (pushLines l s).dst = s.dst := rfl
@[simp] theorem pushLines_offset (l : List Act) (s : State) : (pushLines l s).offset = s.offset := rfl
@[simp] theorem pushLines_blocks (l : List Act) (s : State) : (pushLines l s).blocks = s.blocks := rfl
@[simp] theorem pushLines_curSrc (l : List Act) (s : State) : (pushLines l s).curSrc = s.curSrc := rfl
@[simp] theorem pushLines_curDst (l : List Act) (s : State) : (pushLines l s).curDst = s.curDst := rfl
@[simp] theorem pushLines_tcnt (l : List Act) (s : State) : (pushLines l s).tcnt = s.tcnt := rfl
@[simp] theorem pushLines_rem (l : List Act) (s : State) : (pushLines l s).rem = s.rem := rfl
@[simp] theorem pushLines_blk (l : List Act) (s : State) : (pushLines l s).blk = s.blk := rfl
@[simp] theorem pushLines_pk0 (l : List Act) (s : State) : (pushLines l s).pk0 = s.pk0 := rfl
@[simp] theorem pushLines_pk1 (l : List Act) (s : State) : (pushLines l s).pk1 = s.pk1 := rfl
@[simp] theorem pushLines_pk2 (l : List Act) (s : State) : (pushLines l s).pk2 = s.pk2 := rfl
@[simp] theorem pushLines_pk3 (l : List Act) (s : State) : (pushLines l s).pk3 = s.pk3 := rfl
@[simp] theorem pushLines_tile (l : List Act) (s : State) : (pushLines l s).tile = s.tile := rfl
@[simp] theorem pushLines_pix (l : List Act) (s : State) : (pushLines l s).pix = s.pix := rfl
@[simp] theorem pushLines_busy (l : List Act) (s : State) : (pushLines l s).busy = s.busy := rfl
@[simp] theorem pushLines_ecode (l : List Act) (s : State) : (pushLines l s).ecode = s.ecode := rfl
@[simp] theorem pushLines_mode (l : List Act) (s : State) : (pushLines l s).mode = s.mode := rfl
@[simp] theorem pushLines_unk (l : List Act) (s : State) : (pushLines l s).unk = s.unk := rfl
@[simp] theorem pushLines_mem (l : List Act) (s : State) : (pushLines l s).mem = s.mem := rfl
@[simp] theorem pushLines_params (l : List Act) (s : State) : (pushLines l s).params = s.params := rfl
@[simp] theorem pushLines_todo (l : List Act) (s : State) : (pushLines l s).todo = l ++ s.todo := rfl
@[simp] theorem pushLines_inputs (l : List Act) (s : State) : (pushLines l s).inputs = s.inputs := rfl
@[simp] theorem pushLines_lastRead (l : List Act) (s : State) : (pushLines l s).lastRead = s.lastRead := rfl

/-! ## Reset (10_state.md R25) -/

@[simp] theorem resetUnit_cfg (s : State) : s.resetUnit.cfg = 0#3 := rfl
@[simp] theorem resetUnit_ksel (s : State) : s.resetUnit.ksel = 0#3 := rfl
@[simp] theorem resetUnit_src (s : State) : s.resetUnit.src = 0#32 := rfl
@[simp] theorem resetUnit_width (s : State) : s.resetUnit.width = 0#32 := rfl
@[simp] theorem resetUnit_dst (s : State) : s.resetUnit.dst = 0#32 := rfl
@[simp] theorem resetUnit_offset (s : State) : s.resetUnit.offset = 0#32 := rfl
@[simp] theorem resetUnit_blocks (s : State) : s.resetUnit.blocks = 0#32 := rfl
@[simp] theorem resetUnit_curSrc (s : State) : s.resetUnit.curSrc = 0#32 := rfl
@[simp] theorem resetUnit_curDst (s : State) : s.resetUnit.curDst = 0#32 := rfl
@[simp] theorem resetUnit_tcnt (s : State) : s.resetUnit.tcnt = 0#32 := rfl
@[simp] theorem resetUnit_rem (s : State) : s.resetUnit.rem = 0#32 := rfl
@[simp] theorem resetUnit_blk (s : State) : s.resetUnit.blk = 0#64 := rfl
@[simp] theorem resetUnit_pk0 (s : State) : s.resetUnit.pk0 = 0#9 := rfl
@[simp] theorem resetUnit_pk1 (s : State) : s.resetUnit.pk1 = 0#32 := rfl
@[simp] theorem resetUnit_pk2 (s : State) : s.resetUnit.pk2 = 0#32 := rfl
@[simp] theorem resetUnit_pk3 (s : State) : s.resetUnit.pk3 = 0#32 := rfl
@[simp] theorem resetUnit_tile (s : State) : s.resetUnit.tile = Vector.replicate 16 0#32 := rfl
@[simp] theorem resetUnit_pix (s : State) : s.resetUnit.pix = Vector.replicate 16 0#32 := rfl
@[simp] theorem resetUnit_busy (s : State) : s.resetUnit.busy = false := rfl
@[simp] theorem resetUnit_ecode (s : State) : s.resetUnit.ecode = .none := rfl
@[simp] theorem resetUnit_mode (s : State) : s.resetUnit.mode = .indiv := rfl
@[simp] theorem resetUnit_unk (s : State) : s.resetUnit.unk = false := rfl
@[simp] theorem resetUnit_mem (s : State) : s.resetUnit.mem = s.mem := rfl
@[simp] theorem resetUnit_params (s : State) : s.resetUnit.params = s.params := rfl
@[simp] theorem resetUnit_todo (s : State) : s.resetUnit.todo = [] := rfl
@[simp] theorem resetUnit_inputs (s : State) : s.resetUnit.inputs = s.inputs := rfl
@[simp] theorem resetUnit_lastRead (s : State) : s.resetUnit.lastRead = s.lastRead := rfl

end Sys2Proof.Machine
end

