-- ==== Sys2Proof/Laws/Commands.lean ====
section
/-! SUPPORT. What each command's pseudocode can do, said once: its errors in the order they are tested
(60_exceptions.md R133), and the state it goes on with. Later proofs cite these and unfold no command. -/

namespace Sys2Proof.Machine

/-! ## Sequencing and the ends of a command -/

@[simp] theorem andThen_go (s : State) (g : State → Flow) : (Flow.go s).andThen g = g s := rfl
@[simp] theorem andThen_stop (s : State) (g : State → Flow) : (Flow.stop s).andThen g = .stop s := rfl
@[simp] theorem state_go (s : State) : (Flow.go s).state = s := rfl
@[simp] theorem state_stop (s : State) : (Flow.stop s).state = s := rfl
@[simp] theorem finish_go (s : State) : (Flow.go s).finish = .next (complete s) := rfl
@[simp] theorem finish_stop (s : State) : (Flow.stop s).finish = .next s := rfl

theorem require_true {c : Bool} (h : c = true) (e : Err) (s : State) : require c e s = .go s := by
  simp [require, h]

theorem require_false {c : Bool} (h : c = false) (e : Err) (s : State) :
    require c e s = .stop (raise e s) := by
  simp [require, h]

theorem runCommand_go {body : State → Flow} {s t : State} (h : body (accept s) = .go t) :
    runCommand body s = .next (complete t) := by
  simp [runCommand, h]

theorem runCommand_stop {body : State → Flow} {s t : State} (h : body (accept s) = .stop t) :
    runCommand body s = .next t := by
  simp [runCommand, h]

/-- However a command ends, some state is left. -/
theorem runCommand_next (body : State → Flow) (s : State) : ∃ t, runCommand body s = .next t := by
  rcases h : body (accept s) with t | t
  · exact ⟨_, runCommand_go h⟩
  · exact ⟨_, runCommand_stop h⟩

/-- What the end of a command says of its pseudocode. -/
theorem runCommand_cases {body : State → Flow} {s t : State} (h : runCommand body s = .next t) :
    (∃ u, body (accept s) = .go u ∧ t = complete u) ∨ body (accept s) = .stop t := by
  rcases e : body (accept s) with u | u
  · rw [runCommand_go e] at h
    exact .inl ⟨u, rfl, (Host.Outcome.next.inj h).symm⟩
  · rw [runCommand_stop e] at h
    exact .inr (by rw [Host.Outcome.next.inj h])

theorem complete_idle (s : State) : (complete s).Idle := ⟨rfl, rfl⟩

theorem raise_idle (e : Err) (s : State) : (raise e s).Idle := ⟨rfl, rfl⟩

theorem raise_accept (e : Err) (s : State) : raise e (accept s) = raise e s := rfl

/-- An idle unit in which a command changes nothing is as before. -/
theorem complete_of_idle {s : State} (h : s.Idle) : complete s = s := by
  obtain ⟨hb, ht⟩ := h
  cases s
  simp_all [complete]

theorem complete_accept {s : State} (h : s.Idle) : complete (accept s) = s :=
  (show complete (accept s) = complete s from rfl).trans (complete_of_idle h)

/-- A command of an idle unit that goes through, by what its pseudocode leaves of the accepted state. -/
theorem runCommand_completes {body : State → Flow} {s t : State} (h : s.Idle)
    (e : body (accept s) = .go (accept t)) (hb : t.busy = s.busy) (ht : t.todo = s.todo) :
    runCommand body s = .next t := by
  rw [runCommand_go e, complete_accept ⟨hb.trans h.busy, ht.trans h.todo⟩]

/-- A command that raises leaves the state it raised in with the code written. -/
theorem runCommand_raises {body : State → Flow} {s : State} {e : Err}
    (h : body (accept s) = .stop (raise e (accept s))) : runCommand body s = .next (raise e s) :=
  runCommand_stop h

/-! ## START -/

theorem widthLegal_iff {s : State} : s.widthLegal = true ↔ s.width.toNat ≠ 0 ∧ s.width.toNat % 4 = 0 := by
  simp [State.widthLegal, ← BitVec.toNat_inj]

theorem aligned_iff {a : Word} {n : Nat} : aligned a n = true ↔ a.toNat % n = 0 := by
  simp [aligned]

theorem aligned_false_iff {a : Word} {n : Nat} : aligned a n = false ↔ a.toNat % n ≠ 0 := by
  simp [aligned]

theorem widthLegal_false_iff {s : State} :
    s.widthLegal = false ↔ s.width.toNat = 0 ∨ s.width.toNat % 4 ≠ 0 := by
  rw [← Bool.not_eq_true, widthLegal_iff]; omega

/-- START's three checks pass. -/
structure State.ArgumentsLegal (s : State) : Prop where
  width : s.widthLegal = true
  src : aligned s.src 4 = true
  dst : aligned s.dst 8 = true

theorem startBody_size {s : State} (h : s.widthLegal = false) : startBody s = .stop (raise .size s) := by
  simp [startBody, checkWidth, require_false h]

theorem startBody_align {s : State} (hw : s.widthLegal = true)
    (h : aligned s.src 4 = false ∨ aligned s.dst 8 = false) : startBody s = .stop (raise .align s) := by
  cases hs : aligned s.src 4
  · simp [startBody, checkWidth, checkSrc, require_true hw, require_false hs]
  · have hd : aligned s.dst 8 = false := by simpa [hs] using h
    simp [startBody, checkWidth, checkSrc, checkDst, require_true hw, require_true hs, require_false hd]

theorem startBody_go {s : State} (h : s.ArgumentsLegal) : startBody s = .go (initCursor s) := by
  simp [startBody, checkWidth, checkSrc, checkDst, require_true h.width, require_true h.src,
    require_true h.dst]

/-- Everything START can do. -/
theorem startBody_cases (s : State) :
    (s.ArgumentsLegal ∧ startBody s = .go (initCursor s)) ∨
    ∃ e, (e = .size ∨ e = .align) ∧ startBody s = .stop (raise e s) := by
  cases hw : s.widthLegal
  · exact .inr ⟨.size, .inl rfl, startBody_size hw⟩
  · by_cases h : aligned s.src 4 = true ∧ aligned s.dst 8 = true
    · exact .inl ⟨⟨hw, h.1, h.2⟩, startBody_go ⟨hw, h.1, h.2⟩⟩
    · refine .inr ⟨.align, .inr rfl, startBody_align hw ?_⟩
      cases h1 : aligned s.src 4 <;> cases h2 : aligned s.dst 8 <;> simp_all

/-! ## GATHER -/

/-- GATHER's checks pass. -/
structure State.GatherLegal (s : State) : Prop where
  width : s.widthLegal = true
  cursor : aligned s.curSrc 4 = true
  bus : s.tileAdmitted = true

theorem gatherBody_size {s : State} (h : s.widthLegal = false) : gatherBody s = .stop (raise .size s) := by
  simp [gatherBody, checkWidth, require_false h]

theorem gatherBody_align {s : State} (hw : s.widthLegal = true) (h : aligned s.curSrc 4 = false) :
    gatherBody s = .stop (raise .align s) := by
  simp [gatherBody, checkWidth, checkCurSrc, require_true hw, require_false h]

theorem gatherBody_bus {s : State} (hw : s.widthLegal = true) (ha : aligned s.curSrc 4 = true)
    (h : s.tileAdmitted = false) : gatherBody s = .stop (raise .bus s) := by
  simp [gatherBody, checkWidth, checkCurSrc, checkTile, require_true hw, require_true ha, require_false h]

theorem gatherBody_go {s : State} (h : s.GatherLegal) :
    gatherBody s = .go (advance { s with tile := readTile s }) := by
  simp [gatherBody, checkWidth, checkCurSrc, checkTile, require_true h.width, require_true h.cursor,
    require_true h.bus]

/-- Everything GATHER can do. -/
theorem gatherBody_cases (s : State) :
    (s.GatherLegal ∧ gatherBody s = .go (advance { s with tile := readTile s })) ∨
    ∃ e, (e = .size ∨ e = .align ∨ e = .bus) ∧ gatherBody s = .stop (raise e s) := by
  cases hw : s.widthLegal
  · exact .inr ⟨.size, .inl rfl, gatherBody_size hw⟩
  · cases ha : aligned s.curSrc 4
    · exact .inr ⟨.align, .inr (.inl rfl), gatherBody_align hw ha⟩
    · cases hb : s.tileAdmitted
      · exact .inr ⟨.bus, .inr (.inr rfl), gatherBody_bus hw ha hb⟩
      · exact .inl ⟨⟨hw, ha, hb⟩, gatherBody_go ⟨hw, ha, hb⟩⟩

/-- The cursor after `advance` (42_gatherer.md R103). -/
theorem advance_eq (s : State) : advance s =
    if s.tcnt + 1#32 = s.width / 4#32 then
      { s with curSrc := s.curSrc + 16#32 + 12#32 * s.width, tcnt := 0#32 }
    else { s with curSrc := s.curSrc + 16#32, tcnt := s.tcnt + 1#32 } := rfl

/-- `advance` changes the cursor only. -/
theorem advance_frame (s : State) :
    advance s = { s with curSrc := (advance s).curSrc, tcnt := (advance s).tcnt } := by
  rw [advance_eq]; split <;> rfl

theorem tileAdmitted_iff {s : State} :
    s.tileAdmitted = true ↔ ∀ k : Fin 16, admitted s.params (s.tileAddr k) 4 = true := by
  simp [State.tileAdmitted]

/-! ## STORE and LOAD -/

/-- STORE's and LOAD's checks pass. -/
structure State.BlockAccessLegal (s : State) : Prop where
  cursor : aligned s.curDst 8 = true
  bus : admitted s.params s.curDst 8 = true

/-- The state STORE goes on with. -/
def stored (s : State) : State := stepCurDst { s with mem := memWrite8 s.mem s.curDst s.blk }

/-- The state LOAD goes on with. -/
def loaded (s : State) : State := stepCurDst { s with blk := memRead8 s.mem s.curDst }

theorem storeBody_align {s : State} (h : aligned s.curDst 8 = false) :
    storeBody s = .stop (raise .align s) := by
  simp [storeBody, checkCurDst, require_false h]

theorem storeBody_bus {s : State} (ha : aligned s.curDst 8 = true)
    (h : admitted s.params s.curDst 8 = false) : storeBody s = .stop (raise .bus s) := by
  simp [storeBody, checkCurDst, checkBlockAccess, require_true ha, require_false h]

theorem storeBody_go {s : State} (h : s.BlockAccessLegal) : storeBody s = .go (stored s) := by
  simp [storeBody, checkCurDst, checkBlockAccess, require_true h.cursor, require_true h.bus, stored]

/-- Everything STORE can do. -/
theorem storeBody_cases (s : State) :
    (s.BlockAccessLegal ∧ storeBody s = .go (stored s)) ∨
    ∃ e, (e = .align ∨ e = .bus) ∧ storeBody s = .stop (raise e s) := by
  cases ha : aligned s.curDst 8
  · exact .inr ⟨.align, .inl rfl, storeBody_align ha⟩
  · cases hb : admitted s.params s.curDst 8
    · exact .inr ⟨.bus, .inr rfl, storeBody_bus ha hb⟩
    · exact .inl ⟨⟨ha, hb⟩, storeBody_go ⟨ha, hb⟩⟩

theorem loadBody_align {s : State} (h : aligned s.curDst 8 = false) :
    loadBody s = .stop (raise .align s) := by
  simp [loadBody, checkCurDst, require_false h]

theorem loadBody_bus {s : State} (ha : aligned s.curDst 8 = true)
    (h : admitted s.params s.curDst 8 = false) : loadBody s = .stop (raise .bus s) := by
  simp [loadBody, checkCurDst, checkBlockAccess, require_true ha, require_false h]

theorem loadBody_go {s : State} (h : s.BlockAccessLegal) : loadBody s = .go (loaded s) := by
  simp [loadBody, checkCurDst, checkBlockAccess, require_true h.cursor, require_true h.bus, loaded]

/-- Everything LOAD can do. -/
theorem loadBody_cases (s : State) :
    (s.BlockAccessLegal ∧ loadBody s = .go (loaded s)) ∨
    ∃ e, (e = .align ∨ e = .bus) ∧ loadBody s = .stop (raise e s) := by
  cases ha : aligned s.curDst 8
  · exact .inr ⟨.align, .inl rfl, loadBody_align ha⟩
  · cases hb : admitted s.params s.curDst 8
    · exact .inr ⟨.bus, .inr rfl, loadBody_bus ha hb⟩
    · exact .inl ⟨⟨ha, hb⟩, loadBody_go ⟨ha, hb⟩⟩

/-! ## PACK -/

/-- Everything PACK can do. -/
theorem packBody_cases (s : State) :
    (packLegal s = true ∧ packBody s = .go { s with blk := permute (packedWord s) }) ∨
    (packLegal s = false ∧ packBody s = .stop (raise .range s)) := by
  cases h : packLegal s
  · exact .inr ⟨rfl, by simp [packBody, require_false h]⟩
  · exact .inl ⟨rfl, by simp [packBody, require_true h]⟩

/-! ## PROCESS -/

/-- The registers and memory one iteration of PROCESS may change. -/
def State.BlockFrame (s t : State) : Prop :=
  t = { s with
    curSrc := t.curSrc, tcnt := t.tcnt, curDst := t.curDst, rem := t.rem, tile := t.tile, blk := t.blk,
    mem := t.mem }

theorem State.BlockFrame.refl (s : State) : s.BlockFrame s := rfl

theorem State.BlockFrame.trans {s t u : State} (h : s.BlockFrame t) (k : t.BlockFrame u) : s.BlockFrame u := by
  rw [State.BlockFrame] at *
  rw [k, h]

/-- The state one iteration of PROCESS has reached before its STORE. -/
def encoded (s : State) : State := encodeBody (advance { s with tile := readTile s })

/-- The state one whole iteration of PROCESS goes on with. -/
def processed (s : State) : State :=
  { stored (encoded s) with rem := (stored (encoded s)).rem - 1#32 }

/-- Everything one iteration of PROCESS can do: it goes through; GATHER raises and nothing else happens;
STORE raises after GATHER and ENCODE. -/
theorem processBlock_cases (s : State) :
    (s.GatherLegal ∧ (encoded s).BlockAccessLegal ∧ processBlock s = .go (processed s)) ∨
    (∃ e, (e = .size ∨ e = .align ∨ e = .bus) ∧ gatherBody s = .stop (raise e s) ∧
      processBlock s = .stop (raise e s)) ∨
    (s.GatherLegal ∧ ∃ e, (e = .align ∨ e = .bus) ∧ storeBody (encoded s) = .stop (raise e (encoded s)) ∧
      processBlock s = .stop (raise e (encoded s))) := by
  rcases gatherBody_cases s with ⟨hg, eg⟩ | ⟨e, he, eg⟩
  · rcases storeBody_cases (encoded s) with ⟨hs, es⟩ | ⟨e, he, es⟩
    · refine .inl ⟨hg, hs, ?_⟩
      rw [processBlock, eg, andThen_go, ← encoded, es, andThen_go, processed]
    · refine .inr (.inr ⟨hg, e, he, es, ?_⟩)
      rw [processBlock, eg, andThen_go, ← encoded, es, andThen_stop]
  · exact .inr (.inl ⟨e, he, eg, by rw [processBlock, eg, andThen_stop]⟩)

theorem encoded_frame (s : State) : s.BlockFrame (encoded s) := by
  rw [State.BlockFrame, encoded, encodeBody, advance_frame]

theorem processed_frame (s : State) : s.BlockFrame (processed s) :=
  (encoded_frame s).trans (show (encoded s).BlockFrame (processed s) from rfl)

/-- The whole loop changes what its iterations change, whether it ends or stops. -/
theorem processLoop_frame (n : Nat) (s : State) :
    (∃ t, processLoop n s = .go t ∧ s.BlockFrame t) ∨
    (∃ t e, processLoop n s = .stop (raise e t) ∧ (e = .size ∨ e = .align ∨ e = .bus) ∧ s.BlockFrame t) := by
  induction n generalizing s with
  | zero => exact .inl ⟨s, rfl, rfl⟩
  | succ n ih =>
    rw [processLoop]
    split_ifs with h0
    · exact .inl ⟨s, rfl, rfl⟩
    · rcases processBlock_cases s with ⟨-, -, h⟩ | ⟨e, he, -, h⟩ | ⟨-, e, he, -, h⟩ <;> rw [h]
      · rw [andThen_go]
        rcases ih (processed s) with ⟨t, ht, hf⟩ | ⟨t, e, ht, he, hf⟩
        · exact .inl ⟨t, ht, (processed_frame s).trans hf⟩
        · exact .inr ⟨t, e, ht, he, (processed_frame s).trans hf⟩
      · exact .inr ⟨s, e, rfl, he, rfl⟩
      · exact .inr ⟨_, e, rfl, .inr he, encoded_frame s⟩

/-- Everything PROCESS can do: START raises; the loop ends; the loop stops. -/
theorem processBody_cases (s : State) :
    (∃ e, (e = .size ∨ e = .align) ∧ startBody s = .stop (raise e s) ∧ processBody s = .stop (raise e s)) ∨
    (s.ArgumentsLegal ∧ processBody s = processLoop s.blocks.toNat (selectBody (initCursor s))) := by
  rcases startBody_cases s with ⟨h, e⟩ | ⟨e, he, h⟩
  · exact .inr ⟨h, by rw [processBody, e, andThen_go]; rfl⟩
  · exact .inl ⟨e, he, h, by rw [processBody, h, andThen_stop]⟩

end Sys2Proof.Machine
end

