-- ==== Sys2Proof/Laws/Gatherer.lean ====
section
/-! SUPPORT. The gatherer's addresses in plain numbers, the closed form of the walk (42_gatherer.md R106),
and the loop of PROCESS as a number of iterations (R105). -/

namespace Sys2Proof.Machine

/-! ## Addresses and the transform -/

theorem tileAddr_eq (s : State) (k : Fin 16) : s.tileAddr k =
    BitVec.ofNat 32 (s.curSrc.toNat + 4 * (k.val % 4 * s.width.toNat + k.val / 4)) := by
  apply BitVec.eq_of_toNat_eq
  simp [State.tileAddr]

theorem imagePixelAddr_eq (base width : Word) (x y : Nat) : imagePixelAddr base width x y =
    BitVec.ofNat 32 (base.toNat + 4 * (y * width.toNat + x)) := by
  apply BitVec.eq_of_toNat_eq
  simp [imagePixelAddr]

theorem tileAdmitted_iff_columns {s : State} {addr : Nat → Nat → Word}
    (h : ∀ c r, addr c r = BitVec.ofNat 32 (s.curSrc.toNat + 4 * (r * s.width.toNat + c))) :
    s.tileAdmitted = true ↔ ∀ c r, c < 4 → r < 4 → admitted s.params (addr c r) 4 = true := by
  rw [tileAdmitted_iff]
  constructor
  · intro hk c r hc hr
    have := hk ⟨4 * c + r, by omega⟩
    rw [tileAddr_eq] at this
    rw [h]
    simpa [show (4 * c + r) % 4 = r by omega, show (4 * c + r) / 4 = c by omega] using this
  · intro hk k
    rw [tileAddr_eq, ← h]
    exact hk _ _ (by omega) (by omega)

theorem transform_rgba (p : Pixel) : transform false p = p := rfl

theorem transform_alphaAsLuma (p : Pixel) : transform true p =
    0#8 ++ p.extractLsb' 24 8 ++ p.extractLsb' 24 8 ++ p.extractLsb' 24 8 := by
  apply BitVec.eq_of_getLsbD_eq
  intro i hi
  simp only [transform, if_true, BitVec.getLsbD_append, BitVec.getLsbD_or, BitVec.getLsbD_shiftLeft,
    BitVec.getLsbD_setWidth, BitVec.getLsbD_extractLsb']
  interval_cases i <;> simp

theorem readTile_get (s : State) (k : Fin 16) :
    (readTile s)[k] = transform s.alphaAsLuma (memRead4 s.mem (s.tileAddr k)) := by
  simp [readTile]

/-! ## Commands of an idle unit, by the states the pseudocode leaves -/

theorem execStart_next {s : State} (hs : s.Idle) (h : s.ArgumentsLegal) :
    execStart s = .next (initCursor s) :=
  runCommand_completes hs (startBody_go (s := accept s) ⟨h.width, h.src, h.dst⟩) rfl rfl

theorem execGather_next {s : State} (hs : s.Idle) (h : s.GatherLegal) :
    execGather s = .next (advance { s with tile := readTile s }) := by
  refine runCommand_completes hs
    ((gatherBody_go (s := accept s) ⟨h.width, h.cursor, h.bus⟩).trans ?_) ?_ ?_
  · simp only [advance_eq, accept]; split <;> rfl
  · rw [advance_frame]
  · rw [advance_frame]

theorem execEncode_next {s : State} (hs : s.Idle) : execEncode s = .next (encodeBody s) :=
  runCommand_completes hs rfl rfl rfl

theorem execStore_next {s : State} (hs : s.Idle) (h : s.BlockAccessLegal) :
    execStore s = .next (stored s) :=
  runCommand_completes hs (storeBody_go (s := accept s) ⟨h.cursor, h.bus⟩) rfl rfl

/-- A GATHER that leaves a unit unhalted has gone through. -/
theorem execGather_go {s t : State} (hs : s.Idle) (h : execGather s = .next t) (ht : t.halted = false) :
    s.GatherLegal ∧ t = advance { s with tile := readTile s } := by
  rcases gatherBody_cases (accept s) with ⟨hl, -⟩ | ⟨e, he, e'⟩
  · have hl : s.GatherLegal := ⟨hl.width, hl.cursor, hl.bus⟩
    rw [execGather_next hs hl] at h
    exact ⟨hl, (Host.Outcome.next.inj h).symm⟩
  · rw [execGather, runCommand_raises e', Host.Outcome.next.injEq] at h
    subst h
    rcases he with rfl | rfl | rfl <;> simp [State.halted] at ht

/-! ## The walk -/

/-- The cursor stands at tile `n` of the walk from `SRC`. -/
structure State.AtTile (s : State) (src : Word) (n : Nat) : Prop where
  curSrc : s.curSrc = BitVec.ofNat 32 (src.toNat + 16 * (n % tilesPerRow s.width)
    + 16 * s.width.toNat * (n / tilesPerRow s.width))
  tcnt : s.tcnt.toNat = n % tilesPerRow s.width

theorem width_div (w : Word) : (w / 4#32).toNat = tilesPerRow w := by
  simp [tilesPerRow, BitVec.toNat_udiv]

/-- START puts the cursor at tile 0. -/
theorem initCursor_atTile {s : State} : (initCursor s).AtTile s.src 0 :=
  ⟨by apply BitVec.eq_of_toNat_eq; simp [initCursor], by simp [initCursor]⟩

/-- `advance` moves the cursor to the next tile. -/
theorem advance_atTile {s : State} {src : Word} {n : Nat} (hw : s.widthLegal = true) (h : s.AtTile src n) :
    (advance s).AtTile src (n + 1) := by
  obtain ⟨hw0, hw4⟩ := widthLegal_iff.1 hw
  have hlt := s.width.isLt
  have hT : 0 < tilesPerRow s.width := by unfold tilesPerRow; omega
  have h4T : s.width.toNat = 4 * tilesPerRow s.width := by unfold tilesPerRow; omega
  have hTlt : tilesPerRow s.width < 2 ^ 30 := by omega
  have hmod := Nat.mod_lt n hT
  have htc : (s.tcnt + 1#32).toNat = n % tilesPerRow s.width + 1 := by
    rw [BitVec.toNat_add, h.tcnt]; simp; omega
  have hcond : s.tcnt + 1#32 = s.width / 4#32 ↔ n % tilesPerRow s.width + 1 = tilesPerRow s.width := by
    rw [← BitVec.toNat_inj, htc, width_div]
  have hdm := Nat.div_add_mod n (tilesPerRow s.width)
  rw [advance_eq]
  split_ifs with hc
  · have hc := hcond.1 hc
    have hn : n + 1 = tilesPerRow s.width * (n / tilesPerRow s.width + 1) := by rw [Nat.mul_add]; omega
    have hm : (n + 1) % tilesPerRow s.width = 0 := by rw [hn]; exact Nat.mul_mod_right _ _
    have hd : (n + 1) / tilesPerRow s.width = n / tilesPerRow s.width + 1 := by
      rw [hn]; exact Nat.mul_div_cancel_left _ hT
    refine ⟨?_, by simp [hm]⟩
    simp only [h.curSrc, hm, hd]
    apply BitVec.eq_of_toNat_eq
    simp only [BitVec.toNat_add, BitVec.toNat_ofNat, BitVec.toNat_mul, Nat.mod_add_mod, Nat.add_mod_mod,
      Nat.mod_mul_mod]
    congr 1
    have : n % tilesPerRow s.width = tilesPerRow s.width - 1 := by omega
    rw [this, Nat.mul_add]
    generalize n / tilesPerRow s.width = q at *
    generalize 16 * s.width.toNat * q = z
    omega
  · have hc := mt hcond.2 hc
    have hm : (n + 1) % tilesPerRow s.width = n % tilesPerRow s.width + 1 := by
      rw [Nat.add_mod, Nat.mod_eq_of_lt (show n % tilesPerRow s.width + 1 % tilesPerRow s.width < _ by
        have : 1 % tilesPerRow s.width ≤ 1 := Nat.mod_le _ _
        omega)]
      rw [Nat.mod_eq_of_lt (show 1 < tilesPerRow s.width by omega)]
    have hd : (n + 1) / tilesPerRow s.width = n / tilesPerRow s.width := by
      have := Nat.div_add_mod (n + 1) (tilesPerRow s.width)
      rw [hm] at this
      exact Nat.eq_of_mul_eq_mul_left hT (by omega)
    refine ⟨?_, by simp only [htc, hm]⟩
    simp only [h.curSrc, hm, hd]
    apply BitVec.eq_of_toNat_eq
    simp only [BitVec.toNat_add, BitVec.toNat_ofNat, Nat.mod_add_mod, Nat.add_mod_mod]
    congr 1
    omega

/-- At tile `n` the gatherer reads the pixels of tile `n` of the image. -/
theorem tileAddr_of_atTile {s : State} {src : Word} {n : Nat} (hw : s.widthLegal = true)
    (h : s.AtTile src n) (k : Fin 16) : s.tileAddr k = walkPixelAddr src s.width n k := by
  have h4T : s.width.toNat = 4 * tilesPerRow s.width := by
    have := (widthLegal_iff.1 hw).2
    unfold tilesPerRow; omega
  rw [tileAddr_eq, walkPixelAddr, imagePixelAddr_eq, h.curSrc]
  apply BitVec.eq_of_toNat_eq
  simp only [BitVec.toNat_ofNat, Nat.mod_add_mod]
  congr 1
  ring

/-! ## The loop of PROCESS -/

/-- Other registers than those an iteration writes pass through it. -/
theorem advance_with (s : State) (src off blk r : Word) :
    advance { s with src := src, offset := off, blocks := blk, rem := r } =
      { advance s with src := src, offset := off, blocks := blk, rem := r } := by
  simp only [advance_eq]
  split <;> rfl

theorem processed_with (s : State) (src off blk r : Word) :
    processed { s with src := src, offset := off, blocks := blk, rem := r } =
      { processed s with src := src, offset := off, blocks := blk, rem := r - 1#32 } := by
  have h : encoded { s with src := src, offset := off, blocks := blk, rem := r } =
      { encoded s with src := src, offset := off, blocks := blk, rem := r } :=
    congrArg encodeBody (advance_with { s with tile := readTile s } src off blk r)
  rw [processed, h]; rfl

/-- `n` iterations. -/
def processedN : Nat → State → State
  | 0, s => s
  | n + 1, s => processedN n (processed s)

theorem processedN_succ (n : Nat) (s : State) : processedN (n + 1) s = processed (processedN n s) := by
  induction n generalizing s with
  | zero => rfl
  | succ n ih => exact ih (processed s)

theorem processedN_add (n m : Nat) (s : State) : processedN (n + m) s = processedN m (processedN n s) := by
  induction n generalizing s with
  | zero => rw [Nat.zero_add]; rfl
  | succ n ih => rw [Nat.succ_add]; exact ih (processed s)

theorem processedN_frame (n : Nat) (s : State) : s.BlockFrame (processedN n s) := by
  induction n generalizing s with
  | zero => exact .refl s
  | succ n ih => exact (processed_frame s).trans (ih _)

theorem processedN_with (n : Nat) (s : State) (src off blk r : Word) :
    processedN n { s with src := src, offset := off, blocks := blk, rem := r } =
      { processedN n s with src := src, offset := off, blocks := blk, rem := r - BitVec.ofNat 32 n } := by
  induction n generalizing s r with
  | zero => simp [processedN]
  | succ n ih =>
    rw [processedN, processed_with, ih]
    have : r - 1#32 - BitVec.ofNat 32 n = r - BitVec.ofNat 32 (n + 1) := by
      rw [BitVec.ofNat_add, sub_sub, add_comm]
    rw [this]; rfl

theorem processed_rem (s : State) : (processed s).rem = s.rem - 1#32 := by
  have : (encoded s).rem = s.rem := by rw [encoded, encodeBody, advance_frame]
  show (encoded s).rem - 1#32 = _
  rw [this]

theorem processedN_rem (n : Nat) (s : State) : (processedN n s).rem = s.rem - BitVec.ofNat 32 n := by
  induction n generalizing s with
  | zero => simp [processedN]
  | succ n ih => rw [processedN, ih, processed_rem, BitVec.ofNat_add, sub_sub, add_comm (BitVec.ofNat 32 n)]

theorem processed_curDst (s : State) : (processed s).curDst = s.curDst + 8#32 := by
  have : (encoded s).curDst = s.curDst := by rw [encoded, encodeBody, advance_frame]
  show (encoded s).curDst + 8#32 = _
  rw [this]

theorem processedN_curDst (n : Nat) (s : State) :
    (processedN n s).curDst = s.curDst + 8#32 * BitVec.ofNat 32 n := by
  induction n generalizing s with
  | zero => simp [processedN]
  | succ n ih =>
    rw [processedN, ih, processed_curDst, BitVec.ofNat_add, mul_add, add_assoc, mul_comm 8#32 (BitVec.ofNat 32 1)]
    congr 1
    rw [add_comm]
    congr 1

/-- An iteration moves the cursor to the next tile. -/
theorem processed_atTile {s : State} {src : Word} {n : Nat} (hw : s.widthLegal = true)
    (h : s.AtTile src n) : (processed s).AtTile src (n + 1) := by
  have h' : (advance { s with tile := readTile s }).AtTile src (n + 1) :=
    advance_atTile (s := { s with tile := readTile s }) hw ⟨h.curSrc, h.tcnt⟩
  have hc : (processed s).curSrc = (advance { s with tile := readTile s }).curSrc := by
    simp only [processed, stored, stepCurDst, encoded, encodeBody]
  have ht : (processed s).tcnt = (advance { s with tile := readTile s }).tcnt := by
    simp only [processed, stored, stepCurDst, encoded, encodeBody]
  have e1 : (processed s).width = s.width := by rw [processed_frame s]
  have e2 : (advance { s with tile := readTile s }).width = s.width := by rw [advance_frame]
  have h1 := h'.curSrc
  have h2 := h'.tcnt
  rw [e2] at h1 h2
  exact ⟨by rw [hc, h1, e1], by rw [ht, h2, e1]⟩

theorem processedN_width (n : Nat) (s : State) : (processedN n s).width = s.width := by
  rw [processedN_frame n s]

theorem processedN_atTile {s : State} {src : Word} {m : Nat} (n : Nat) (hw : s.widthLegal = true)
    (h : s.AtTile src m) : (processedN n s).AtTile src (m + n) := by
  induction n with
  | zero => exact h
  | succ n ih =>
    rw [processedN_succ]
    refine processed_atTile ?_ ih
    rw [State.widthLegal, processedN_width]; exact hw

/-- One iteration goes through. -/
structure State.BlockLegal (s : State) : Prop where
  gather : s.GatherLegal
  store : (encoded s).BlockAccessLegal

theorem processBlock_go {s : State} (h : s.BlockLegal) : processBlock s = .go (processed s) := by
  rw [processBlock, gatherBody_go h.gather, andThen_go, ← encoded, storeBody_go h.store, andThen_go, processed]

/-- An iteration that does not go through stops; before its STORE, if it got there, memory is as it was. -/
theorem processBlock_stop {s : State} (h : ¬ s.BlockLegal) :
    ∃ e t, (e = .size ∨ e = .align ∨ e = .bus) ∧ (t = s ∨ t = encoded s) ∧
      processBlock s = .stop (raise e t) := by
  rcases processBlock_cases s with ⟨h1, h2, -⟩ | ⟨e, he, -, h3⟩ | ⟨-, e, he, -, h3⟩
  · exact absurd ⟨h1, h2⟩ h
  · exact ⟨e, s, he, .inl rfl, h3⟩
  · exact ⟨e, encoded s, .inr he, .inr rfl, h3⟩

/-- The loop, when the first `k` iterations go through. -/
theorem processLoop_after {s : State} {n : Nat} (k : Nat) (hn : s.rem.toNat = k + n)
    (h : ∀ i, i < k → (processedN i s).BlockLegal) :
    processLoop (k + n) s = processLoop n (processedN k s) ∧ (processedN k s).rem.toNat = n := by
  induction k generalizing s with
  | zero => exact ⟨by rw [Nat.zero_add]; rfl, by simpa [processedN] using hn⟩
  | succ k ih =>
    have h0 : s.BlockLegal := h 0 (by omega)
    have hr : s.rem ≠ 0#32 := by rintro he; rw [he] at hn; simp at hn; omega
    have hrem : (processed s).rem.toNat = k + n := by
      rw [processed_rem, BitVec.toNat_sub_of_le]
      · simp; omega
      · rw [BitVec.le_def]; simp; omega
    rw [show k + 1 + n = k + n + 1 by omega, processLoop, if_neg hr, processBlock_go h0, andThen_go]
    exact ih hrem fun i hi => h (i + 1) (by omega)

/-- The loop, when every iteration goes through. -/
theorem processLoop_go {s : State} (h : ∀ i, i < s.rem.toNat → (processedN i s).BlockLegal) :
    processLoop s.rem.toNat s = .go (processedN s.rem.toNat s) :=
  (processLoop_after (n := 0) s.rem.toNat rfl h).1

/-- The loop, when iteration `k` is the first that does not go through. -/
theorem processLoop_stop {s : State} {k : Nat} (hk : k < s.rem.toNat)
    (h : ∀ i, i < k → (processedN i s).BlockLegal) (hb : ¬ (processedN k s).BlockLegal) :
    ∃ e t, (e = .size ∨ e = .align ∨ e = .bus) ∧ (t = processedN k s ∨ t = encoded (processedN k s)) ∧
      processLoop s.rem.toNat s = .stop (raise e t) := by
  obtain ⟨e, t, he, ht, hs⟩ := processBlock_stop hb
  obtain ⟨h1, h2⟩ := processLoop_after (s := s) (n := s.rem.toNat - k) k (by omega) h
  rw [show k + (s.rem.toNat - k) = s.rem.toNat by omega] at h1
  refine ⟨e, t, he, ht, ?_⟩
  obtain ⟨n, hn⟩ : ∃ n, s.rem.toNat - k = n + 1 := ⟨s.rem.toNat - k - 1, by omega⟩
  rw [hn] at h1 h2
  have hr : (processedN k s).rem ≠ 0#32 := by rintro he; rw [he] at h2; simp at h2
  rw [h1, processLoop, if_neg hr, hs, andThen_stop]

/-- The loop ends, or stops at a first iteration that does not go through. -/
theorem processLoop_cases (s : State) :
    ((∀ i, i < s.rem.toNat → (processedN i s).BlockLegal) ∧
      processLoop s.rem.toNat s = .go (processedN s.rem.toNat s)) ∨
    ∃ k e t, k < s.rem.toNat ∧ (∀ i, i < k → (processedN i s).BlockLegal) ∧
      (e = .size ∨ e = .align ∨ e = .bus) ∧ (t = processedN k s ∨ t = encoded (processedN k s)) ∧
      processLoop s.rem.toNat s = .stop (raise e t) := by
  classical
  by_cases h : ∀ i, i < s.rem.toNat → (processedN i s).BlockLegal
  · exact .inl ⟨h, processLoop_go h⟩
  · simp only [not_forall] at h
    obtain ⟨hlt, hmin⟩ := Nat.find_spec h
    refine .inr ⟨Nat.find h, ?_⟩
    have hprev : ∀ i, i < Nat.find h → (processedN i s).BlockLegal := fun i hi => by
      by_contra hc
      exact Nat.find_min h hi ⟨by omega, hc⟩
    obtain ⟨e, t, he, ht, hl⟩ := processLoop_stop hlt hprev hmin
    exact ⟨e, t, hlt, hprev, he, ht, hl⟩

/-! ## What PROCESS leaves, by iterations -/

/-- The state in which PROCESS enters its loop. -/
def loopStart (s : State) : State := selectBody (initCursor (accept s))

theorem loopStart_frame (s : State) : loopStart s = { s with
    busy := true, ksel := s.kernelId, curSrc := s.src, curDst := s.dst + 8#32 * s.offset, tcnt := 0#32,
    rem := s.blocks } := rfl

theorem loopStart_atTile (s : State) : (loopStart s).AtTile s.src 0 := by
  have h := initCursor_atTile (s := accept s)
  exact ⟨h.curSrc, h.tcnt⟩

theorem processedN_loopStart_curDst (n : Nat) (s : State) :
    (processedN n (loopStart s)).curDst = s.rangeAddr n := processedN_curDst n (loopStart s)

/-- Everything PROCESS can do, by iterations: START's checks fail; all `BLOCKS` iterations go through; the
first that does not is number `k`. -/
theorem execProcess_cases (s : State) :
    (∃ e, (e = .size ∨ e = .align) ∧ execProcess s = .next (raise e s)) ∨
    (s.ArgumentsLegal ∧ (∀ i, i < s.blocks.toNat → (processedN i (loopStart s)).BlockLegal) ∧
      execProcess s = .next (complete (processedN s.blocks.toNat (loopStart s)))) ∨
    (s.ArgumentsLegal ∧ ∃ k e t, k < s.blocks.toNat ∧
      (∀ i, i < k → (processedN i (loopStart s)).BlockLegal) ∧ (e = .size ∨ e = .align ∨ e = .bus) ∧
      (t = processedN k (loopStart s) ∨ t = encoded (processedN k (loopStart s))) ∧
      execProcess s = .next (raise e t)) := by
  rcases processBody_cases (accept s) with ⟨e, he, -, h⟩ | ⟨hl, h⟩
  · exact .inl ⟨e, he, by rw [execProcess, runCommand_raises h]⟩
  · have hl : s.ArgumentsLegal := ⟨hl.width, hl.src, hl.dst⟩
    have hr : (loopStart s).rem = s.blocks := rfl
    have hp : processBody (accept s) = processLoop (loopStart s).rem.toNat (loopStart s) := h
    rcases processLoop_cases (loopStart s) with ⟨hb, hg⟩ | ⟨k, e, t, hk, hb, he, ht, hg⟩
    · exact .inr (.inl ⟨hl, hb, by rw [execProcess, runCommand_go (hp.trans hg), hr]⟩)
    · exact .inr (.inr ⟨hl, k, e, t, hk, hb, he, ht, by rw [execProcess, runCommand_stop (hp.trans hg)]⟩)

/-- PROCESS, when all its iterations go through. -/
theorem execProcess_go {s : State} (hl : s.ArgumentsLegal)
    (h : ∀ i, i < s.blocks.toNat → (processedN i (loopStart s)).BlockLegal) :
    execProcess s = .next (complete (processedN s.blocks.toNat (loopStart s))) := by
  have hp : processBody (accept s) = processLoop (loopStart s).rem.toNat (loopStart s) := by
    rw [processBody, startBody_go (s := accept s) ⟨hl.width, hl.src, hl.dst⟩]; rfl
  rw [execProcess, runCommand_go (hp.trans (processLoop_go h))]; rfl

/-! ## Memory over the iterations -/

theorem encoded_mem (s : State) : (encoded s).mem = s.mem := by
  rw [encoded, encodeBody, advance_frame]

theorem encoded_curDst (s : State) : (encoded s).curDst = s.curDst := by
  rw [encoded, encodeBody, advance_frame]

theorem encoded_blk (s : State) : (encoded s).blk = (kernel s.ksel (readTile s)).2 := by
  rw [encoded, encodeBody, advance_frame]

theorem processed_mem (s : State) :
    (processed s).mem = memWrite8 s.mem s.curDst (kernel s.ksel (readTile s)).2 := by
  rw [← encoded_mem s, ← encoded_curDst s, ← encoded_blk s]
  simp only [processed, stored, stepCurDst]

theorem wf_processedN {s : State} (h : Memory.wf s.mem = true) (n : Nat) :
    Memory.wf (processedN n s).mem = true := by
  induction n with
  | zero => exact h
  | succ n ih => rw [processedN_succ, processed_mem]; exact wf_memWrite8 ih _ _

/-- A byte no iteration stores to is as it was. -/
theorem readByte_processedN {s : State} (h : Memory.wf s.mem = true) (n : Nat) {a : Nat}
    (ha : ∀ i, i < n → ¬ inBytes (s.curDst + 8#32 * BitVec.ofNat 32 i) 8 a) :
    readByte (processedN n s).mem a = readByte s.mem a := by
  induction n with
  | zero => rfl
  | succ n ih =>
    rw [processedN_succ, processed_mem, readByte_memWrite8_other (wf_processedN h n),
      ih fun i hi => ha i (by omega)]
    rw [processedN_curDst]; exact ha n (by omega)

end Sys2Proof.Machine
end

