-- ==== Sys2Proof/Laws/Registers.lean ====
section
/-! SUPPORT. The register window: the fields of `STATUS` (10_state.md R12) and what a write leaves in each
register (R22). -/

namespace Sys2Proof.Machine

/-! ## `STATUS` -/

theorem statusWord_busy (s : State) : (statusWord s).getLsbD 0 = s.busy := by
  simp only [statusWord, BitVec.getLsbD_append]; simp

theorem statusWord_bit1 (s : State) : (statusWord s).getLsbD 1 = false := by
  simp only [statusWord, BitVec.getLsbD_append]; simp

theorem statusWord_halt (s : State) : (statusWord s).getLsbD 2 = s.halted := by
  simp only [statusWord, BitVec.getLsbD_append]; simp

theorem statusWord_bit3 (s : State) : (statusWord s).getLsbD 3 = false := by
  simp only [statusWord, BitVec.getLsbD_append]; simp

theorem statusWord_ecode (s : State) : (statusWord s).extractLsb' 4 4 = errCode s.ecode := by
  ext i hi
  simp only [statusWord, BitVec.getElem_extractLsb', BitVec.getLsbD_append]
  grind

theorem statusWord_mode (s : State) : (statusWord s).extractLsb' 8 3 = modeCode s.mode := by
  ext i hi
  simp only [statusWord, BitVec.getElem_extractLsb', BitVec.getLsbD_append]
  grind

theorem statusWord_unk (s : State) : (statusWord s).getLsbD 11 = s.unk := by
  simp only [statusWord, BitVec.getLsbD_append]; simp

theorem statusWord_high (s : State) : (statusWord s).extractLsb' 12 20 = 0#20 := by
  ext i hi
  simp only [statusWord, BitVec.getElem_extractLsb', BitVec.getLsbD_append]
  grind

theorem statusWord_mode_unk (s : State) :
    (statusWord s).extractLsb' 8 4 = BitVec.ofBool s.unk ++ modeCode s.mode := by
  ext i hi
  simp only [statusWord, BitVec.getElem_extractLsb', BitVec.getLsbD_append]
  grind

theorem halted_iff {s : State} : s.halted = true ↔ s.ecode ≠ .none := by
  simp [State.halted]

theorem not_halted_iff {s : State} : s.halted = false ↔ s.ecode = .none := by
  simp [State.halted]

theorem errCode_eq_zero {e : Err} : errCode e = 0#4 ↔ e = .none := by
  cases e <;> simp [errCode]

/-! ## Writes -/

/-- The stored bits of the two registers that store fewer than 32. -/
theorem setWidth_extract_cfg (v : Word) : (v.extractLsb' 0 3).setWidth 32 = v &&& 0x00000007#32 := by
  apply BitVec.eq_of_getLsbD_eq
  intro i hi
  simp only [BitVec.getLsbD_setWidth, BitVec.getLsbD_extractLsb', BitVec.getLsbD_and]
  interval_cases i <;> simp

theorem setWidth_extract_pk0 (v : Word) : (v.extractLsb' 0 9).setWidth 32 = v &&& 0x000001FF#32 := by
  apply BitVec.eq_of_getLsbD_eq
  intro i hi
  simp only [BitVec.getLsbD_setWidth, BitVec.getLsbD_extractLsb', BitVec.getLsbD_and]
  interval_cases i <;> simp

/-- A write to one register leaves every other as it was. -/
theorem readReg_writeReg_other (v : Word) (s : State) {r q : Reg} (h : q ≠ r) :
    readReg (writeReg v s r) q = readReg s q := by
  cases r <;> cases q <;> first
    | rfl
    | exact absurd rfl h
    | (simp only [readReg, writeReg, extract_low_append]; done)
    | (simp only [readReg, writeReg, extract_high_append]; done)
    | (rename_i j k
       have hjk : j.val ≠ k.val := fun e => h (by rw [Fin.ext e])
       simp [readReg, writeReg, hjk])

/-- A write touches nothing outside the registers. -/
theorem writeReg_outside (v : Word) (s : State) (r : Reg) :
    (writeReg v s r).mem = s.mem ∧ (writeReg v s r).params = s.params ∧ (writeReg v s r).todo = s.todo ∧
    (writeReg v s r).inputs = s.inputs ∧ (writeReg v s r).lastRead = s.lastRead := by
  cases r <;> exact ⟨rfl, rfl, rfl, rfl, rfl⟩

end Sys2Proof.Machine
end

