-- ==== Sys2Proof/Laws/Host.lean ====
section
/-! SUPPORT. What a write of `CMD` can do (44_control.md R127), and what one step does with each event. -/

namespace Sys2Proof.Machine

variable {run : Instr → State → Host.Outcome State Fault Refusal} {v : Word} {s : State}

theorem commandWrite_busy (h : s.busy = true) : commandWrite run v s = .next s := by
  simp [commandWrite, h]

theorem commandWrite_sreset (hb : s.busy = false) (he : s.ecode ≠ .none) :
    commandWrite run 0x0000000F#32 s = run .sreset s := by
  simp [commandWrite, hb, halted_iff.2 he]

theorem commandWrite_halted (hb : s.busy = false) (he : s.ecode ≠ .none) (hv : v ≠ 0x0000000F#32) :
    commandWrite run v s = .next s := by
  simp [commandWrite, hb, halted_iff.2 he, hv]

theorem commandWrite_illegal (hb : s.busy = false) (he : s.ecode = .none)
    (hv : ∀ i, decodeCommand v ≠ .ok i) : commandWrite run v s = .next (raise .cmd s) := by
  rcases h : decodeCommand v with e | i
  · simp [commandWrite, hb, not_halted_iff.2 he, h]
  · exact absurd h (hv i)

theorem commandWrite_legal {i : Instr} (hb : s.busy = false) (he : s.ecode = .none)
    (hv : decodeCommand v = .ok i) : commandWrite run v s = run i s := by
  simp [commandWrite, hb, not_halted_iff.2 he, hv]

/-- Everything a write of `CMD` can do. -/
theorem commandWrite_cases (run : Instr → State → Host.Outcome State Fault Refusal) (v : Word) (s : State) :
    commandWrite run v s = .next s ∨
    (s.busy = false ∧ s.ecode ≠ .none ∧ commandWrite run v s = run .sreset s) ∨
    (s.busy = false ∧ s.ecode = .none ∧ commandWrite run v s = .next (raise .cmd s)) ∨
    ∃ i, s.busy = false ∧ s.ecode = .none ∧ decodeCommand v = .ok i ∧ commandWrite run v s = run i s := by
  cases hb : s.busy
  · by_cases he : s.ecode = .none
    · rcases h : decodeCommand v with e | i
      · exact .inr (.inr (.inl ⟨rfl, he, commandWrite_illegal hb he (by simp [h])⟩))
      · exact .inr (.inr (.inr ⟨i, rfl, he, rfl, commandWrite_legal hb he h⟩))
    · by_cases hv : v = 0x0000000F#32
      · subst hv; exact .inr (.inl ⟨rfl, he, commandWrite_sreset hb he⟩)
      · exact .inl (commandWrite_halted hb he hv)
  · exact .inl (commandWrite_busy hb)

theorem step_nil (h : s.inputs = []) : step s = .next s := by
  simp [step, stepEvent, h]

theorem step_cons {e : HostEvent} {rest : List HostEvent} (h : s.inputs = e :: rest) :
    step s = hostEvent e { s with inputs := rest } := by
  simp [step, stepEvent, h]

theorem hostEvent_write_cmd (v : Word) (s : State) :
    hostEvent (.write 0x00#8 v) s = commandWrite exec v s := rfl

theorem hostWrite_register {off : BitVec 8} {r : Reg} (h : Reg.ofOffset off = some r) (hr : r ≠ .cmd)
    (v : Word) (s : State) :
    hostWrite off v s = .next (if s.busy then s else writeReg v s r) := by
  rw [hostWrite, h]
  cases hb : s.busy <;> cases r <;> first | exact absurd rfl hr | simp

theorem hostRead_register {off : BitVec 8} {r : Reg} (h : Reg.ofOffset off = some r) (s : State) :
    hostRead off s = .next { s with lastRead := some (readReg s r) } := by
  rw [hostRead, h]

/-! ## The parameters -/

theorem runCommand_params {body : State → Flow} {s t : State} (hb : ∀ u, (body u).state.params = u.params)
    (h : runCommand body s = .next t) : t.params = s.params := by
  rcases runCommand_cases h with ⟨u, hu, rfl⟩ | hu <;>
    simpa [hu] using hb (accept s)

theorem startBody_params (s : State) : (startBody s).state.params = s.params := by
  rcases startBody_cases s with ⟨-, h⟩ | ⟨e, -, h⟩ <;> rw [h] <;> rfl

theorem gatherBody_params (s : State) : (gatherBody s).state.params = s.params := by
  rcases gatherBody_cases s with ⟨-, h⟩ | ⟨e, -, h⟩ <;> rw [h]
  · rw [state_go, advance_frame]
  · rfl

theorem storeBody_params (s : State) : (storeBody s).state.params = s.params := by
  rcases storeBody_cases s with ⟨-, h⟩ | ⟨e, -, h⟩ <;> rw [h] <;> rfl

theorem loadBody_params (s : State) : (loadBody s).state.params = s.params := by
  rcases loadBody_cases s with ⟨-, h⟩ | ⟨e, -, h⟩ <;> rw [h] <;> rfl

theorem packBody_params (s : State) : (packBody s).state.params = s.params := by
  rcases packBody_cases s with ⟨-, h⟩ | ⟨-, h⟩ <;> rw [h] <;> rfl

theorem processBody_params (s : State) : (processBody s).state.params = s.params := by
  rcases processBody_cases s with ⟨e, -, -, h⟩ | ⟨-, h⟩ <;> rw [h]
  · rfl
  · rcases processLoop_frame s.blocks.toNat (selectBody (initCursor s)) with ⟨t, h, hf⟩ | ⟨t, e, h, -, hf⟩ <;>
      rw [h] <;> dsimp only [state_go, state_stop, raise_params] <;> rw [hf] <;> rfl

/-- No command touches the parameters. -/
theorem exec_params {i : Instr} {s t : State} (h : exec i s = .next t) : t.params = s.params := by
  cases i
  case start => exact runCommand_params startBody_params h
  case gather => exact runCommand_params gatherBody_params h
  case store => exact runCommand_params storeBody_params h
  case load => exact runCommand_params loadBody_params h
  case process => exact runCommand_params processBody_params h
  case pack => exact runCommand_params packBody_params h
  case blockDiff f =>
    rw [exec, execBlockDiff] at h
    split at h
    · exact runCommand_params (fun _ => rfl) h
    · cases h
  case blockT f =>
    rw [exec, execBlockT] at h
    split at h
    · exact runCommand_params (fun _ => rfl) h
    · cases h
  case blockH f =>
    rw [exec, execBlockH] at h
    split at h
    · exact runCommand_params (fun _ => rfl) h
    · cases h
  case blockPlanar f =>
    rw [exec, execBlockPlanar] at h
    split at h
    · exact runCommand_params (fun _ => rfl) h
    · cases h
  all_goals
    simp only [exec, execNop, execSelect, execEncode, execDecode, execSreset, execBlockIndiv] at h
    exact runCommand_params (fun _ => rfl) h

/-! ## Stores of other masters, and the platform -/

theorem busWrite_next {a : Word} {bytes : List Byte} (h : a.toNat + bytes.length ≤ 2 ^ 32) :
    busWrite a bytes s = .next { s with mem := writeBytes a.toNat bytes s.mem } := by
  rw [busWrite, if_pos h]

theorem busWrite_refused {a : Word} {bytes : List Byte} (h : 2 ^ 32 < a.toNat + bytes.length) :
    busWrite a bytes s = .refused .busWritePastTop := by
  rw [busWrite, if_neg (by omega)]

/-- A word of eight bytes at a multiple of 8 never reaches past the top. -/
theorem busWrite_word {a : Word} (d : BlockWord) (h : a.toNat % 8 = 0) :
    busWrite a (bytes8 d) s = .next { s with mem := memWrite8 s.mem a d } :=
  busWrite_next (by have := a.isLt; simp only [bytes8, List.length_cons, List.length_nil]; omega)

theorem unitStore_admitted {a : Word} {d : BlockWord} (h : a.toNat % 8 = 0)
    (ha : admitted s.params a 8 = true) : unitStore a d s = { s with mem := memWrite8 s.mem a d } := by
  simp [unitStore, aligned_iff.2 h, ha]

theorem unitStore_none {a : Word} {d : BlockWord} (h : a.toNat % 8 ≠ 0 ∨ admitted s.params a 8 = false) :
    unitStore a d s = s := by
  rcases h with h | h <;> simp [unitStore, h, aligned_false_iff.2]

theorem unitStore_frame (a : Word) (d : BlockWord) (s : State) :
    unitStore a d s = { s with mem := (unitStore a d s).mem } := by
  unfold unitStore; split <;> rfl

theorem wf_unitStore (h : Memory.wf s.mem = true) (a : Word) (d : BlockWord) :
    Memory.wf (unitStore a d s).mem = true := by
  unfold unitStore
  split
  · exact wf_memWrite8 h a d
  · exact h

theorem remap_idle {regions : List Region} {bars : List Bar} (h : s.busy = false) :
    remap regions bars s = .next { s with params := { s.params with regions := regions, bars := bars } } := by
  simp [remap, h]

theorem remap_busy {regions : List Region} {bars : List Bar} (h : s.busy = true) :
    remap regions bars s = .refused .remapWhileBusy := by
  simp [remap, h]

end Sys2Proof.Machine
end

