-- ==== Sys2Proof/Laws/Pixels.lean ====
section
/-! SUPPORT. The pixels of a block word in plain numbers (41_decoder.md R83 to R90). -/

namespace Sys2Proof.Machine

theorem unknownMode_eq (m : Mode) : unknownMode m = decide (m = .t ∨ m = .h) := by
  cases m <;> rfl

/-! ## ETC1 classes -/

theorem inFirstSubBlock_iff (flip : Bool) (k : Fin 16) :
    inFirstSubBlock flip k = true ↔ firstSubBlock flip k := by
  cases flip <;> simp [inFirstSubBlock, firstSubBlock]

theorem selector_toFin (l m : BitVec 16) (k : Fin 16) : (selector l m k).toFin =
    Fin.ofNat 4 (2 * (m.getLsbD k.val).toNat + (l.getLsbD k.val).toNat) := by
  unfold selector
  cases m.getLsbD k.val <;> cases l.getLsbD k.val <;> rfl

theorem modifier_selector (tab : ModTab) (cw : BitVec 3) (l m : BitVec 16) (k : Fin 16) :
    modifier tab cw (selector l m k) = tableModifier tab cw l m k := by
  rw [modifier, tableModifier, selector_toFin]

theorem modulatedPixel_is (base : Rgb) (m : Int) : pixelIs (modulatedPixel base m)
    (base.r.toNat + m) (base.g.toNat + m) (base.b.toNat + m) := opaquePixel_is _ _ _

/-- A pixel of an ETC1 word is its sub-block's endpoint, modulated. -/
theorem etc1Pixels_eq (tab : ModTab) (flip : Bool) (cw0 cw1 : BitVec 3) (e1 e2 : Rgb) (l m : BitVec 16)
    (k : Fin 16) :
    (firstSubBlock flip k → (etc1Pixels tab flip cw0 cw1 e1 e2 l m)[k] =
      modulatedPixel e1 (tableModifier tab cw0 l m k)) ∧
    (¬ firstSubBlock flip k → (etc1Pixels tab flip cw0 cw1 e1 e2 l m)[k] =
      modulatedPixel e2 (tableModifier tab cw1 l m k)) := by
  simp only [etc1Pixels, Fin.getElem_fin, Vector.getElem_ofFn, modifier_selector, ← inFirstSubBlock_iff]
  constructor <;> intro h <;> simp [h]

theorem diffChannel2_toNat (v : BitVec 5) (dv : BitVec 3) (h : overflows v dv = false) :
    ((diffChannel2 v dv).toNat : Int) =
      8 * ((v.toNat : Int) + dv.toInt) + ((v.toNat : Int) + dv.toInt) / 4 := by
  revert h; revert v dv; decide

/-! ## PLANAR -/

theorem planarChannel_eq (k : Fin 16) (o h v : BitVec 8) :
    planarChannel (k.val / 4) (k.val % 4) o h v = clampU8 (planarValue k o.toNat h.toNat v.toNat) := by
  rw [planarChannel, planarValue, Int.shiftRight_eq_div_pow]; rfl

/-! ## Alpha -/

theorem etc1Pixels_alpha (tab : ModTab) (flip : Bool) (cw0 cw1 : BitVec 3) (e1 e2 : Rgb)
    (l m : BitVec 16) (k : Fin 16) :
    (etc1Pixels tab flip cw0 cw1 e1 e2 l m)[k].extractLsb' 24 8 = 0xFF#8 := by
  simp only [etc1Pixels, Fin.getElem_fin, Vector.getElem_ofFn]
  split <;> exact opaquePixel_alpha _

theorem planarPixels_alpha (f : PlanarFields) (k : Fin 16) :
    (planarPixels f)[k].extractLsb' 24 8 = 0xFF#8 := by
  simp only [planarPixels, Fin.getElem_fin, Vector.getElem_ofFn]
  exact opaquePixel_alpha _

theorem blackPixels_get (k : Fin 16) : blackPixels[k] = 0xFF000000#32 := by
  simp [blackPixels]

/-- Every pixel the decoder gives is opaque (41_decoder.md R90). -/
theorem blockPixels_alpha (tab : ModTab) (w : BlockWord) (k : Fin 16) :
    (blockPixels tab w)[k].extractLsb' 24 8 = 0xFF#8 := by
  unfold blockPixels
  split
  · exact etc1Pixels_alpha ..
  · exact etc1Pixels_alpha ..
  · rw [blackPixels_get]; rfl
  · rw [blackPixels_get]; rfl
  · exact planarPixels_alpha _ _

/-! ## The block words as instructions -/

/-- What a block word's row does, for all rows at once. -/
theorem exec_decodeBlock (w : BlockWord) (s : State) : exec (decodeBlock w) s =
    runCommand (fun s => .go (showBlock (classify w) (blockPixels s.params.modtab w) s)) s := by
  rcases h : classify w with _ | _ | _ | _ | _ <;>
    simp only [decodeBlock, blockPixels, h, exec, execBlockIndiv, execBlockDiff, execBlockT, execBlockH,
      execBlockPlanar]
  · rw [if_pos (diffFields_wf h)]
  · rw [if_pos (tFields_wf h)]
  · rw [if_pos (hFields_wf h)]
  · rw [if_pos (planarFields_wf h)]

end Sys2Proof.Machine
end

