-- ==== Sys2Proof/Laws/Micro.lean ====
section
/-! SUPPORT. The lines of a command and its pseudocode as one function: a piece of pseudocode is simulated by
its lines, memory staying in a given set on the way (44_control.md R127 step 5). -/

namespace Sys2Proof.Machine

/-- The command runs from one state to another line by line, through memories in `R` only. -/
inductive Ticks (R : Memory → Prop) : State → State → Prop where
  | refl (s : State) : Ticks R s s
  | step {s t : State} (h : R s.mem) (k : Ticks R (tick s) t) : Ticks R s t

theorem Ticks.trans {R : Memory → Prop} {s t u : State} (h : Ticks R s t) (k : Ticks R t u) : Ticks R s u := by
  induction h with
  | refl => exact k
  | step hr _ ih => exact .step hr (ih k)

theorem Ticks.exists_ticks {R : Memory → Prop} {s t : State} (h : Ticks R s t) : ∃ n, ticks n s = t := by
  induction h with
  | refl s => exact ⟨0, rfl⟩
  | step _ _ ih => obtain ⟨n, hn⟩ := ih; exact ⟨n + 1, hn⟩

theorem tick_nil {s : State} (h : s.todo = []) : tick s = s := by
  simp [tick, h]

theorem ticks_nil {s : State} (h : s.todo = []) (n : Nat) : ticks n s = s := by
  induction n with
  | zero => rfl
  | succ n ih => rw [ticks, tick_nil h, ih]

/-- Where a run ends with nothing left to do, every moment from its start on has a memory in `R`. -/
theorem Ticks.always {R : Memory → Prop} {s t : State} (h : Ticks R s t) (ht : R t.mem) (he : t.todo = [])
    (n : Nat) : R (ticks n s).mem := by
  induction h generalizing n with
  | refl s => rw [ticks_nil he]; exact ht
  | step hr _ ih =>
    cases n with
    | zero => exact hr
    | succ n => exact ih ht he n

/-- The same state with other lines to do. -/
def State.withTodo (s : State) (l : List Act) : State := { s with todo := l }

theorem tick_withTodo (s : State) (a : Act) (l : List Act) :
    tick (s.withTodo (a :: l)) = runAct a (s.withTodo l) := rfl

/-- In a state, the lines do what the pseudocode does, whatever lines come after them. -/
def SimulatedAt (R : Memory → Prop) (body : State → Flow) (lines : List Act) (s : State) : Prop :=
  ∀ l, match body s with
    | .go t => Ticks R (s.withTodo (lines ++ l)) (t.withTodo l) ∧ R t.mem
    | .stop t => Ticks R (s.withTodo (lines ++ l)) t ∧ R t.mem

theorem SimulatedAt.andThen {R : Memory → Prop} {b c : State → Flow} {k l : List Act} {s : State}
    (h : SimulatedAt R b k s) (h' : ∀ t, b s = .go t → SimulatedAt R c l t) :
    SimulatedAt R (fun s => (b s).andThen c) (k ++ l) s := by
  intro m
  have h1 := h (l ++ m)
  rcases e : b s with t | t
  · have h2 := h' t e m
    simp only [e, andThen_go] at h1 ⊢
    rcases e2 : c t with u | u <;> simp only [e2] at h2 ⊢ <;>
      exact ⟨(List.append_assoc k l m ▸ h1.1).trans h2.1, h2.2⟩
  · simp only [e, andThen_stop] at h1 ⊢
    exact ⟨List.append_assoc k l m ▸ h1.1, h1.2⟩

/-- A line that tests a condition. -/
theorem simulatedAt_require {R : Memory → Prop} {a : Act} {e : Err} {c : State → Bool} {s : State}
    (hr : R s.mem) (ha : ∀ s, runAct a s = (require (c s) e s).state)
    (hc : ∀ l, c (s.withTodo l) = c s) : SimulatedAt R (fun s => require (c s) e s) [a] s := by
  intro l
  dsimp only
  cases h : c s
  · rw [require_false rfl]
    refine ⟨.step hr ?_, hr⟩
    rw [List.singleton_append, tick_withTodo, ha, require_false ((hc l).trans h)]
    exact .refl _
  · rw [require_true rfl]
    refine ⟨.step hr ?_, hr⟩
    rw [List.singleton_append, tick_withTodo, ha, require_true ((hc l).trans h)]
    exact .refl _

/-- A line that updates the state. -/
theorem simulatedAt_go {R : Memory → Prop} {a : Act} {f : State → State} {s : State} (hr : R s.mem)
    (hr' : R (f s).mem) (ha : ∀ l, runAct a (s.withTodo l) = (f s).withTodo l) :
    SimulatedAt R (fun s => .go (f s)) [a] s := by
  intro l
  refine ⟨.step hr ?_, hr'⟩
  rw [List.singleton_append, tick_withTodo, ha]
  exact .refl _

/-- No line at all. -/
theorem simulatedAt_nil {R : Memory → Prop} {s : State} (hr : R s.mem) :
    SimulatedAt R (fun s => .go s) [] s := fun _ => ⟨.refl _, hr⟩

/-- A line that only adds the lines that do the work. -/
theorem SimulatedAt.expands {R : Memory → Prop} {a : Act} {as : List Act} {body : State → Flow} {s : State}
    (hr : R s.mem) (ha : ∀ l, runAct a (s.withTodo l) = s.withTodo (as ++ l))
    (h : SimulatedAt R body as s) : SimulatedAt R body [a] s := by
  intro l
  have h1 := h l
  rw [← ha l, ← tick_withTodo] at h1
  rcases e : body s with t | t <;> simp only [e] at h1 ⊢ <;> exact ⟨.step hr h1.1, h1.2⟩

/-! ## Lines that write sixteen entries, or a block word -/

/-- Sixteen entries, set one after another. -/
def setEntries (v : Fin 16 → Pixel) (ks : List (Fin 16)) (t : Tile) : Tile :=
  ks.foldl (fun (t : Tile) (k : Fin 16) => t.set k (v k)) t

theorem setEntries_all (v : Fin 16 → Pixel) (t : Tile) :
    setEntries v (List.finRange 16) t = Vector.ofFn v := by
  have h : List.finRange 16 = [0, 1, 2, 3, 4, 5, 6, 7, 8, 9, 10, 11, 12, 13, 14, 15] := by decide
  rw [setEntries, h]
  simp only [List.foldl]
  apply Vector.ext
  intro i hi
  interval_cases i <;> simp

theorem simulatedAt_entries {R : Memory → Prop} {a : Fin 16 → Act} {v : Fin 16 → Pixel}
    {put : Tile → State} (hr : ∀ t, R (put t).mem)
    (ha : ∀ k t l, runAct (a k) ((put t).withTodo l) = (put (t.set k (v k))).withTodo l)
    (ks : List (Fin 16)) (t : Tile) (l : List Act) :
    Ticks R ((put t).withTodo (ks.map a ++ l)) ((put (setEntries v ks t)).withTodo l) := by
  induction ks generalizing t with
  | nil => exact .refl _
  | cons k ks ih =>
    refine .step (hr t) ?_
    rw [List.map_cons, List.cons_append, tick_withTodo, ha]
    exact ih (t.set k (v k))

theorem readPixels_simulated {R : Memory → Prop} {s : State} (hr : R s.mem) :
    SimulatedAt R (fun s => .go { s with tile := readTile s }) ((List.finRange 16).map .readPixel) s := by
  intro l
  have h := simulatedAt_entries (R := R) (a := .readPixel)
    (v := fun k => transform s.alphaAsLuma (memRead4 s.mem (s.tileAddr k)))
    (put := fun t => { s with tile := t }) (fun _ => hr) (fun _ _ _ => rfl) (List.finRange 16) s.tile l
  rw [setEntries_all] at h
  exact ⟨h, hr⟩

theorem tileLines_simulated {R : Memory → Prop} {s : State} (hr : R s.mem) (u : Tile) :
    SimulatedAt R (fun s => .go { s with tile := u }) (tileLines u) s := by
  intro l
  have h := simulatedAt_entries (R := R) (a := fun k => .setTile k u[k]) (v := fun k => u[k])
    (put := fun t => { s with tile := t }) (fun _ => hr) (fun _ _ _ => rfl) (List.finRange 16) s.tile l
  have hu : Vector.ofFn (fun k : Fin 16 => u[k]) = u := by
    apply Vector.ext; intro i hi; simp
  rw [setEntries_all, hu] at h
  exact ⟨h, hr⟩

theorem blkLines_simulated {R : Memory → Prop} {s : State} (hr : R s.mem) (d : BlockWord) :
    SimulatedAt R (fun s => .go { s with blk := d }) (blkLines d) s := by
  intro l
  refine ⟨.step hr (.step hr ?_), hr⟩
  have h : d.extractLsb' 32 32 ++
      (s.blk.extractLsb' 32 32 ++ d.extractLsb' 0 32 : BlockWord).extractLsb' 0 32 = d := by
    rw [extract_low_append, halves_append]
  have h' : tick (tick (s.withTodo (blkLines d ++ l))) = State.withTodo { s with
      blk := d.extractLsb' 32 32 ++
        (s.blk.extractLsb' 32 32 ++ d.extractLsb' 0 32 : BlockWord).extractLsb' 0 32 } l := rfl
  rw [h', h]
  exact .refl _

theorem pixLines_simulated {R : Memory → Prop} {s : State} (hr : R s.mem) (m : Mode) (px : Tile) :
    SimulatedAt R (fun s => .go (showBlock m px s)) (pixLines m px) s := by
  intro l
  have h := simulatedAt_entries (R := R) (a := fun k => .setPix k px[k]) (v := fun k => px[k])
    (put := fun t => { s with pix := t }) (fun _ => hr) (fun _ _ _ => rfl) (List.finRange 16) s.pix
    ([.setMode m] ++ l)
  have hu : Vector.ofFn (fun k : Fin 16 => px[k]) = px := by
    apply Vector.ext; intro i hi; simp
  rw [setEntries_all, hu] at h
  refine ⟨?_, hr⟩
  rw [pixLines, List.append_assoc]
  exact h.trans (.step hr (.refl _))

/-! ## The commands -/

/-- A line that tests a condition, and lines after it. -/
theorem SimulatedAt.check {R : Memory → Prop} {a : Act} {e : Err} {c : State → Bool} {body : State → Flow}
    {lines : List Act} {s : State} (hr : R s.mem) (ha : ∀ s, runAct a s = (require (c s) e s).state)
    (hc : ∀ l, c (s.withTodo l) = c s) (h : c s = true → SimulatedAt R body lines s) :
    SimulatedAt R (fun s => (require (c s) e s).andThen body) (a :: lines) s :=
  SimulatedAt.andThen (b := fun s => require (c s) e s) (k := [a]) (simulatedAt_require hr ha hc)
    fun t ht => by
      cases hs : c s
      · simp [require, hs] at ht
      · simp only [require, hs, if_true, Flow.go.injEq] at ht
        subst ht
        exact h hs

/-- A line that updates the state, and lines after it. -/
theorem SimulatedAt.update {R : Memory → Prop} {a : Act} {f : State → State} {body : State → Flow}
    {lines : List Act} {s : State} (hr : R s.mem) (hr' : R (f s).mem)
    (ha : ∀ l, runAct a (s.withTodo l) = (f s).withTodo l) (h : SimulatedAt R body lines (f s)) :
    SimulatedAt R (fun s => body (f s)) (a :: lines) s :=
  SimulatedAt.andThen (b := fun s => .go (f s)) (k := [a]) (simulatedAt_go hr hr' ha) fun t ht => by
    cases ht; exact h

theorem startLines_simulated {R : Memory → Prop} {s : State} (hr : R s.mem) :
    SimulatedAt R startBody startLines s := by
  refine .check hr (fun _ => rfl) (fun _ => rfl) fun _ => ?_
  refine .check hr (fun _ => rfl) (fun _ => rfl) fun _ => ?_
  refine .check hr (fun _ => rfl) (fun _ => rfl) fun _ => ?_
  refine .update (f := fun s => { s with curSrc := s.src })
    (body := fun s => .go { s with
      curDst := s.dst + 8#32 * s.offset, tcnt := 0#32, rem := s.blocks }) hr hr (fun _ => rfl) ?_
  refine .update (f := fun s => { s with curDst := s.dst + 8#32 * s.offset })
    (body := fun s => .go { s with tcnt := 0#32, rem := s.blocks }) hr hr (fun _ => rfl) ?_
  refine .update (f := fun s => { s with tcnt := 0#32 })
    (body := fun s => .go { s with rem := s.blocks }) hr hr (fun _ => rfl) ?_
  exact simulatedAt_go hr hr fun _ => rfl

theorem advance_simulated {R : Memory → Prop} {s : State} (hr : R s.mem) :
    SimulatedAt R (fun s => .go (advance s)) [.stepCurSrc, .stepTcnt, .wrapRow] s := by
  refine .update (f := fun s => { s with curSrc := s.curSrc + 16#32 })
    (body := fun s => .go (if s.tcnt + 1#32 = s.width / 4#32 then
      { s with curSrc := s.curSrc + 12#32 * s.width, tcnt := 0#32 } else { s with tcnt := s.tcnt + 1#32 }))
    hr hr (fun _ => rfl) ?_
  refine .update (f := fun s => { s with tcnt := s.tcnt + 1#32 })
    (body := fun s => .go (if s.tcnt = s.width / 4#32 then
      { s with curSrc := s.curSrc + 12#32 * s.width, tcnt := 0#32 } else s)) hr hr (fun _ => rfl) ?_
  generalize hu : ({ ({ s with curSrc := s.curSrc + 16#32 } : State) with tcnt := s.tcnt + 1#32 } : State) = u
  have hru : R u.mem := by subst hu; exact hr
  by_cases h : u.tcnt = u.width / 4#32
  · have hs : SimulatedAt R
        (fun s => .go { s with curSrc := s.curSrc + 12#32 * s.width, tcnt := 0#32 }) [.wrapRow] u := by
      refine .expands (as := [.skipRows, .clearTcnt]) hru (fun l => ?_) ?_
      · show (if u.tcnt = u.width / 4#32 then _ else _) = _
        rw [if_pos h]; rfl
      · refine .update (f := fun s => { s with curSrc := s.curSrc + 12#32 * s.width })
          (body := fun s => .go { s with tcnt := 0#32 }) hru hru (fun _ => rfl) ?_
        exact simulatedAt_go hru hru fun _ => rfl
    intro l
    simpa only [if_pos h] using hs l
  · have hs : SimulatedAt R (fun s => .go s) [.wrapRow] u := by
      refine simulatedAt_go (f := fun s => s) hru hru fun l => ?_
      show (if u.tcnt = u.width / 4#32 then _ else _) = _
      rw [if_neg h]
    intro l
    simpa only [if_neg h] using hs l

theorem gatherLines_simulated {R : Memory → Prop} {s : State} (hr : R s.mem) :
    SimulatedAt R gatherBody gatherLines s := by
  refine .check hr (fun _ => rfl) (fun _ => rfl) fun _ => ?_
  refine .check hr (fun _ => rfl) (fun _ => rfl) fun _ => ?_
  refine .check hr (fun _ => rfl) (fun _ => rfl) fun _ => ?_
  refine SimulatedAt.andThen (b := fun s => .go { s with tile := readTile s })
    (c := fun s => .go (advance s)) (readPixels_simulated hr) fun t ht => ?_
  cases ht
  exact advance_simulated hr

theorem encodeLines_simulated {R : Memory → Prop} {s : State} (hr : R s.mem) :
    SimulatedAt R (fun s => .go (encodeBody s)) encodeLines s := by
  have h : SimulatedAt R (fun t => .go { t with
      tile := (kernel s.ksel s.tile).1, blk := (kernel s.ksel s.tile).2 }) [.kernel] s := by
    refine .expands (as := tileLines (kernel s.ksel s.tile).1 ++ blkLines (kernel s.ksel s.tile).2) hr
      (fun _ => rfl) ?_
    refine SimulatedAt.andThen (b := fun t => .go { t with tile := (kernel s.ksel s.tile).1 })
      (c := fun t => .go { t with blk := (kernel s.ksel s.tile).2 }) (tileLines_simulated hr _) fun t ht => ?_
    cases ht
    exact blkLines_simulated (s := { s with tile := (kernel s.ksel s.tile).1 }) hr _
  exact h

theorem storeLines_simulated {R : Memory → Prop} {s : State} (hr : R s.mem)
    (hr' : s.BlockAccessLegal → R (memWrite8 s.mem s.curDst s.blk)) :
    SimulatedAt R storeBody storeLines s := by
  refine .check hr (fun _ => rfl) (fun _ => rfl) fun ha => ?_
  have h : SimulatedAt R (fun s =>
      (checkBlockAccess s).andThen fun s => .go { s with mem := memWrite8 s.mem s.curDst s.blk })
      [.memStore] s := by
    intro l
    dsimp only
    cases h : admitted s.params s.curDst 8
    · rw [checkBlockAccess, require_false h, andThen_stop]
      refine ⟨.step hr ?_, hr⟩
      have : tick (s.withTodo ([.memStore] ++ l)) = raise .bus s := by
        show ((checkBlockAccess (s.withTodo l)).andThen _).state = _
        rw [checkBlockAccess, require_false
          (show admitted (s.withTodo l).params (s.withTodo l).curDst 8 = false from h)]; rfl
      rw [this]; exact .refl _
    · rw [checkBlockAccess, require_true h, andThen_go]
      refine ⟨.step hr ?_, hr' ⟨ha, h⟩⟩
      have : tick (s.withTodo ([.memStore] ++ l)) =
          State.withTodo { s with mem := memWrite8 s.mem s.curDst s.blk } l := by
        show ((checkBlockAccess (s.withTodo l)).andThen _).state = _
        rw [checkBlockAccess, require_true
          (show admitted (s.withTodo l).params (s.withTodo l).curDst 8 = true from h)]; rfl
      rw [this]; exact .refl _
  have h2 := h.andThen (c := fun s => .go (stepCurDst s)) (l := [.stepCurDst]) fun t ht => by
    have hm : R t.mem := by
      rcases e : checkBlockAccess s with u | u <;> rw [e] at ht <;> cases ht
      rw [checkBlockAccess, require] at e
      split at e <;> cases e
      exact hr' ⟨ha, ‹_›⟩
    exact simulatedAt_go hm hm fun _ => rfl
  intro l
  have h3 := h2 l
  have e : ∀ s : State, (((checkBlockAccess s).andThen fun s =>
      .go { s with mem := memWrite8 s.mem s.curDst s.blk }).andThen fun s => .go (stepCurDst s)) =
      (checkBlockAccess s).andThen fun s =>
        .go (stepCurDst { s with mem := memWrite8 s.mem s.curDst s.blk }) := by
    intro s; cases checkBlockAccess s <;> rfl
  simp only [e] at h3
  exact h3

theorem loadLines_simulated {R : Memory → Prop} {s : State} (hr : R s.mem) :
    SimulatedAt R loadBody loadLines s := by
  refine .check hr (fun _ => rfl) (fun _ => rfl) fun _ => ?_
  cases h : admitted s.params s.curDst 8
  · intro l
    dsimp only
    rw [checkBlockAccess, require_false h, andThen_stop]
    refine ⟨.step hr ?_, hr⟩
    have : tick (s.withTodo ([.memLoad, .stepCurDst] ++ l)) = raise .bus s := by
      show ((checkBlockAccess (s.withTodo (.stepCurDst :: l))).andThen _).state = _
      rw [checkBlockAccess, require_false (show admitted (s.withTodo (.stepCurDst :: l)).params
        (s.withTodo (.stepCurDst :: l)).curDst 8 = false from h)]; rfl
    rw [this]; exact .refl _
  · have h1 : SimulatedAt R (fun t => .go { t with blk := memRead8 s.mem s.curDst }) [.memLoad] s := by
      refine .expands (as := blkLines (memRead8 s.mem s.curDst)) hr (fun l => ?_) (blkLines_simulated hr _)
      show ((checkBlockAccess (s.withTodo l)).andThen _).state = _
      rw [checkBlockAccess, require_true
        (show admitted (s.withTodo l).params (s.withTodo l).curDst 8 = true from h)]; rfl
    have h2 := h1.andThen (c := fun s => .go (stepCurDst s)) (l := [.stepCurDst]) fun t ht => by
      cases ht; exact simulatedAt_go hr hr fun _ => rfl
    intro l
    have h3 := h2 l
    dsimp only [andThen_go] at h3 ⊢
    rw [checkBlockAccess, require_true h, andThen_go]
    exact h3

theorem decodeLines_simulated {R : Memory → Prop} {s : State} (hr : R s.mem) :
    SimulatedAt R (fun s => .go (decodeBody s)) [.decodeBlk] s := by
  have h : SimulatedAt R (fun t => .go (showBlock (classify (permute s.blk))
      (blockPixels s.params.modtab (permute s.blk)) t)) [.decodeBlk] s :=
    .expands hr (fun _ => rfl) (pixLines_simulated hr _ _)
  exact h

theorem packLines_simulated {R : Memory → Prop} {s : State} (hr : R s.mem) :
    SimulatedAt R packBody [.packBlk] s := by
  cases h : packLegal s
  · intro l
    have : tick (s.withTodo ([.packBlk] ++ l)) = raise .range s := by
      show ((require (packLegal (s.withTodo l)) .range (s.withTodo l)).andThen _).state = _
      rw [require_false (show packLegal (s.withTodo l) = false from h)]; rfl
    rw [packBody, require_false h, andThen_stop]
    exact ⟨.step hr (this ▸ .refl _), hr⟩
  · have h1 : SimulatedAt R (fun t => .go { t with blk := permute (packedWord s) }) [.packBlk] s := by
      refine .expands (as := blkLines (permute (packedWord s))) hr (fun l => ?_) (blkLines_simulated hr _)
      show ((require (packLegal (s.withTodo l)) .range (s.withTodo l)).andThen _).state = _
      rw [require_true (show packLegal (s.withTodo l) = true from h)]; rfl
    intro l
    have h2 := h1 l
    rw [packBody, require_true h, andThen_go]
    exact h2

/-! ## PROCESS -/

/-- One iteration, up to the test of the next. -/
theorem blockLines_simulated {R : Memory → Prop} {s : State} (hr : R s.mem) (hr' : s.BlockLegal → R (processed s).mem) :
    SimulatedAt R processBlock (gatherLines ++ (encodeLines ++ (storeLines ++ [.stepRem]))) s := by
  refine (gatherLines_simulated hr).andThen fun t ht => ?_
  rcases gatherBody_cases s with ⟨hg, e⟩ | ⟨e, -, e'⟩
  · rw [e] at ht; cases ht
    have hm : (advance { s with tile := readTile s }).mem = s.mem := by rw [advance_frame]
    refine SimulatedAt.andThen (b := fun s => .go (encodeBody s)) (encodeLines_simulated (by rw [hm]; exact hr))
      (c := fun s => (storeBody s).andThen fun s => .go { s with rem := s.rem - 1#32 }) fun u hu => ?_
    cases hu
    have hr2 (h : (encoded s).BlockAccessLegal) :
        R (memWrite8 (encoded s).mem (encoded s).curDst (encoded s).blk) := by
      rw [encoded_mem, encoded_curDst, encoded_blk, ← processed_mem]; exact hr' ⟨hg, h⟩
    refine (storeLines_simulated (s := encoded s) ((encoded_mem s).symm ▸ hr) hr2).andThen fun u hu => ?_
    have hu' : R u.mem := by
      rcases storeBody_cases (encoded s) with ⟨hs, e⟩ | ⟨e, -, e'⟩
      · rw [e] at hu; cases hu; exact hr2 hs
      · rw [e'] at hu; cases hu
    exact simulatedAt_go hu' hu' fun _ => rfl
  · rw [e'] at ht; cases ht

/-- The loop: the memories on the way are those of whole iterations. -/
theorem processLoop_simulated {R : Memory → Prop} (n : Nat) {s : State} (hn : s.rem.toNat = n)
    (h : ∀ i, i ≤ n → (∀ j, j < i → (processedN j s).BlockLegal) → R (processedN i s).mem) :
    SimulatedAt R (processLoop n) [.loop] s := by
  induction n generalizing s with
  | zero =>
    have h0 : s.rem = 0#32 := BitVec.eq_of_toNat_eq hn
    have hr : R s.mem := h 0 (by omega) (by omega)
    refine simulatedAt_go (f := fun s => s) hr hr fun l => ?_
    show (if s.rem = 0#32 then _ else _) = _
    rw [if_pos h0]
  | succ n ih =>
    have h0 : s.rem ≠ 0#32 := by rintro e; rw [e] at hn; simp at hn
    have hr : R s.mem := h 0 (by omega) (by omega)
    have hs : SimulatedAt R (fun s => (processBlock s).andThen (processLoop n)) [.loop] s := by
      refine .expands (as := blockLines) hr (fun l => ?_) ?_
      · show (if s.rem = 0#32 then _ else _) = _
        rw [if_neg h0]; rfl
      · have e : blockLines = (gatherLines ++ (encodeLines ++ (storeLines ++ [.stepRem]))) ++ [.loop] := by
          simp [blockLines]
        rw [e]
        by_cases hb : s.BlockLegal
        · have hr1 : R (processed s).mem := h 1 (by omega) fun j hj => by
            rw [show j = 0 by omega]; exact hb
          refine (blockLines_simulated hr fun _ => hr1).andThen fun t ht => ?_
          rw [processBlock_go hb] at ht; cases ht
          refine ih ?_ fun i hi hj => h (i + 1) (by omega) fun j hj' => ?_
          · rw [processed_rem, BitVec.toNat_sub_of_le (by rw [BitVec.le_def]; simp; omega)]; simp; omega
          · cases j with
            | zero => exact hb
            | succ j => exact hj j (by omega)
        · refine (blockLines_simulated hr fun h => absurd h hb).andThen fun t ht => ?_
          obtain ⟨e, u, -, -, hu⟩ := processBlock_stop hb
          rw [hu] at ht; cases ht
    intro l
    have h1 := hs l
    rw [processLoop, if_neg h0]
    exact h1

/-! ## What no line touches -/

theorem require_outside (c : Bool) (e : Err) (s : State) :
    (require c e s).state.params = s.params ∧ (require c e s).state.inputs = s.inputs ∧
      (require c e s).state.lastRead = s.lastRead := by
  unfold require; split <;> exact ⟨rfl, rfl, rfl⟩

/-- No line touches the parameters, the queue of events, or what the host has read. -/
theorem runAct_outside (a : Act) (s : State) : (runAct a s).params = s.params ∧
    (runAct a s).inputs = s.inputs ∧ (runAct a s).lastRead = s.lastRead := by
  cases a <;> first
    | exact ⟨rfl, rfl, rfl⟩
    | exact require_outside _ _ _
    | (simp only [runAct, checkBlockAccess, require]; split <;> exact ⟨rfl, rfl, rfl⟩)

theorem ticks_outside (n : Nat) (s : State) : (ticks n s).params = s.params ∧
    (ticks n s).inputs = s.inputs ∧ (ticks n s).lastRead = s.lastRead := by
  induction n generalizing s with
  | zero => exact ⟨rfl, rfl, rfl⟩
  | succ n ih =>
    have h : (tick s).params = s.params ∧ (tick s).inputs = s.inputs ∧ (tick s).lastRead = s.lastRead := by
      unfold tick
      split
      · exact ⟨rfl, rfl, rfl⟩
      · exact runAct_outside _ _
    obtain ⟨h1, h2, h3⟩ := ih (tick s)
    exact ⟨h1.trans h.1, h2.trans h.2.1, h3.trans h.2.2⟩

end Sys2Proof.Machine
end

