-- ==== Sys2Proof/Laws/Packer.lean ====
section
/-! SUPPORT. PACK's operands in plain numbers, and the fields of the words it assembles (43_packer.md R116
to R120). -/

namespace Sys2Proof.Machine

/-! ## Slices of registers -/

theorem extract_extract (x : Word) (a b c d : Nat) (h : c + d ≤ b) :
    (x.extractLsb' a b).extractLsb' c d = x.extractLsb' (a + c) d := by
  ext i hi
  simp only [BitVec.getElem_extractLsb', BitVec.getLsbD_extractLsb']
  rw [decide_eq_true (by omega), Bool.true_and, Nat.add_assoc]

theorem extract_extract_low (x : Word) (a b d : Nat) (h : d ≤ b) :
    (x.extractLsb' a b).extractLsb' 0 d = x.extractLsb' a d := by
  rw [extract_extract _ _ _ _ _ (by omega), Nat.add_zero]

theorem selector_halves (x : Word) : x.extractLsb' 16 16 ++ x.extractLsb' 0 16 = x := by
  apply BitVec.eq_of_getLsbD_eq
  intro i hi
  simp only [BitVec.getLsbD_append, BitVec.getLsbD_extractLsb']
  interval_cases i <;> simp

theorem byteOf_eq (x : Word) (n : Nat) : byteOf x n = (x.extractLsb' (8 * n) 8).toNat := by
  rw [byteOf, BitVec.extractLsb'_toNat, Nat.shiftRight_eq_div_pow, Nat.pow_mul]

theorem topByte_eq_zero_iff (x : Word) : topByte x = 0#8 ↔ byteOf x 3 = 0 := by
  rw [byteOf_eq, topByte, ← BitVec.toNat_inj]; simp

theorem colourWithin_iff (x : Word) (r g b : Nat) : colourWithin x r g b = true ↔ coloursAtMost x r g b := by
  simp only [colourWithin, Bool.and_eq_true, decide_eq_true_eq]
  simp only [coloursAtMost, byteOf_eq, redByte, greenByte, blueByte, and_assoc]

theorem pmode_toNat (s : State) : s.pmode.toNat = s.pk0.toNat % 4 := by
  simp [State.pmode]

theorem pk0_bit0 (s : State) : s.pk0.getLsbD 0 = decide (s.pk0.toNat % 4 % 2 = 1) := by
  rw [Nat.mod_mod_of_dvd _ (by norm_num : 2 ∣ 4)]
  simp [BitVec.getLsbD, Nat.testBit_zero]

/-! ## The checks -/

theorem overflows_false_iff_sumInRange {v dv : BitVec 8} (hv : v.toNat ≤ 31) (hd : dv.toNat ≤ 7) :
    overflows (v.extractLsb' 0 5) (dv.extractLsb' 0 3) = false ↔ sumInRange v.toNat dv.toNat := by
  rw [← Bool.not_eq_true, overflows, diffSum, sext3]
  have h1 : (v.extractLsb' 0 5).toNat = v.toNat := by rw [BitVec.extractLsb'_toNat]; simp; omega
  have h2 : (dv.extractLsb' 0 3).toNat = dv.toNat := by rw [BitVec.extractLsb'_toNat]; simp; omega
  rw [h1, h2]
  simp [sumInRange]

theorem packDiff_wf_iff {s : State} (h1 : coloursAtMost s.pk1 31 31 31) (h2 : coloursAtMost s.pk2 7 7 7) :
    (packDiff s).wf = true ↔ ∀ n, n < 3 → sumInRange (byteOf s.pk1 n) (byteOf s.pk2 n) := by
  obtain ⟨h1r, h1g, h1b⟩ := h1
  obtain ⟨h2r, h2g, h2b⟩ := h2
  simp only [byteOf_eq] at *
  simp only [DiffFields.wf, packDiff, Bool.and_eq_true, Bool.not_eq_true', redByte, greenByte, blueByte]
  rw [overflows_false_iff_sumInRange h1r h2r, overflows_false_iff_sumInRange h1g h2g,
    overflows_false_iff_sumInRange h1b h2b]
  constructor
  · rintro ⟨⟨a, b⟩, c⟩ n hn
    interval_cases n <;> assumption
  · intro h
    exact ⟨⟨h 0 (by omega), h 1 (by omega)⟩, h 2 (by omega)⟩

/-- PACK's checks, as the rule lists them. -/
theorem packLegal_iff (s : State) : packLegal s = true ↔ s.packOperandsLegal := by
  have hm : s.pk0.toNat % 4 < 4 := Nat.mod_lt _ (by norm_num)
  rw [packLegal, State.packOperandsLegal]
  simp only [Bool.and_eq_true, decide_eq_true_eq, topByte_eq_zero_iff, pmode_toNat]
  interval_cases h : s.pk0.toNat % 4 <;> simp [colourWithin_iff, and_assoc]
  · exact fun _ _ h1 h2 => packDiff_wf_iff h1 h2

/-! ## The packed word -/

theorem packedWord_indiv {s : State} (h : s.pk0.toNat % 4 = 0) : packedWord s = indivWord (packIndiv s) := by
  simp only [packedWord, pmode_toNat, h]

theorem packedWord_diff {s : State} (h : s.pk0.toNat % 4 = 1) : packedWord s = diffWord (packDiff s) := by
  simp only [packedWord, pmode_toNat, h]

theorem packedWord_planar {s : State} (h : s.pk0.toNat % 4 = 2) :
    packedWord s = planarWord (packPlanar s) := by
  simp only [packedWord, pmode_toNat, h]

theorem indivWord_high (f : IndivFields) : (indivWord f).extractLsb' 32 32 = f.selM ++ f.selL := by
  ext i hi
  simp only [indivWord, BitVec.getElem_extractLsb', BitVec.getLsbD_append]
  grind

theorem diffWord_high (f : DiffFields) : (diffWord f).extractLsb' 32 32 = f.selM ++ f.selL := by
  ext i hi
  simp only [diffWord, BitVec.getElem_extractLsb', BitVec.getLsbD_append]
  grind

/-- Which of the two choices of blue free bits overflows. -/
theorem blue_free_bits (hi lo : BitVec 2) (f15_13 : BitVec 3) (f10 : Bool) :
    overflows (f15_13 ++ hi) (BitVec.ofBool f10 ++ lo) =
      decide (if 4 ≤ hi.toNat + lo.toNat then f15_13 = 0b111#3 ∧ f10 = false
        else f15_13 = 0b000#3 ∧ f10 = true) := by
  revert hi lo f15_13 f10; decide

/-- Red with `w[31] = RO[1]` never overflows. -/
theorem red_free_bit (r : BitVec 4) (d : BitVec 2) (l : BitVec 1) :
    overflows (BitVec.ofBool (d.getLsbD 1) ++ r) (d ++ l) = false := by
  revert r d l; decide

end Sys2Proof.Machine
end

