-- ==== Sys2Proof/Laws/PerInstr.lean ====
section
/-! SUPPORT. Statements made per instruction. `TableWord`: the bits the opcode table numbers for a well-formed
instruction are read back as that instruction (30_encoding.md R51, R56 to R64; notes/assumptions/11.md). -/

namespace Sys2Proof.Laws.TableWord

open Sys2Proof.Machine

/-- The instruction's bits, numbered as the opcode table numbers them, decode to it. -/
def Statement (i : Instr) : Prop :=
  i.wellFormed = true →
    (∀ v, encodeWord i = .command v → decodeTableWord 32 v.toNat = some i) ∧
    (∀ w, encodeWord i = .block w → decodeTableWord 64 w.toNat = some i)

theorem of_command {i : Instr} {v : Word} (h : encodeWord i = .command v) : Statement i := fun _ => by
  refine ⟨fun u hu => ?_, (fun w hw => by rw [h] at hw; cases hw)⟩
  rw [h, Encoded.command.injEq] at hu
  subst hu
  simp [decodeTableWord, decode, bytes4, decodeCommand_eq_ok.2 h]

theorem of_block {i : Instr} {w : BlockWord} (h : encodeWord i = .block w) : Statement i := fun hi => by
  refine ⟨(fun v hv => by rw [h] at hv; cases hv), fun u hu => ?_⟩
  rw [h, Encoded.block.injEq] at hu
  subst hu
  simp [decodeTableWord, decode, bytes8, decodeBlock_encodeWord hi h]

theorem nop : Statement .nop := of_command rfl
theorem select : Statement .select := of_command rfl
theorem gather : Statement .gather := of_command rfl
theorem encode : Statement .encode := of_command rfl
theorem store : Statement .store := of_command rfl
theorem process : Statement .process := of_command rfl
theorem load : Statement .load := of_command rfl
theorem decode : Statement .decode := of_command rfl
theorem pack : Statement .pack := of_command rfl
theorem start : Statement .start := of_command rfl
theorem sreset : Statement .sreset := of_command rfl
theorem blockIndiv (f : IndivFields) : Statement (.blockIndiv f) := of_block rfl
theorem blockDiff (f : DiffFields) : Statement (.blockDiff f) := of_block rfl
theorem blockT (f : TFields) : Statement (.blockT f) := of_block rfl
theorem blockH (f : HFields) : Statement (.blockH f) := of_block rfl
theorem blockPlanar (f : PlanarFields) : Statement (.blockPlanar f) := of_block rfl

end Sys2Proof.Laws.TableWord
end

