-- ==== Sys2Proof/Tests/Slice0.lean ====
section
/-! SUPPORT. The model's own tests: words and results written out from spec/95_test_vectors.md and the rules'
examples, the ill-formed terms that WellFormed refuses, and for each obligation that has hypotheses a
concrete state and operands that meet them (`witness_<obligation>`). -/

namespace Sys2Proof.Tests

open Sys2Proof.Machine

/-! ## Helpers -/

/-- The state a step leaves, if it leaves one. -/
def nextOf : Host.Outcome State Fault Refusal → Option State
  | .next s => some s
  | .fault _ => none
  | .refused _ => none

/-- The value a register reads as after a step. -/
def regAfter (r : Reg) (o : Host.Outcome State Fault Refusal) : Option Word := (nextOf o).map (readReg · r)

/-- The decoded pixels after a step. -/
def pixelsAfter (o : Host.Outcome State Fault Refusal) : Option (List Pixel) :=
  (nextOf o).map fun s => s.pix.toList

/-- A unit after reset with a block word in `BLK`. -/
def holding (d : BlockWord) : State := { State.reset with blk := d }

/-- A unit after reset with operands of PACK. -/
def packing (pk0 : BitVec 9) (pk1 pk2 pk3 : Word) : State :=
  { State.reset with pk0 := pk0, pk1 := pk1, pk2 := pk2, pk3 := pk3 }

/-- A unit after reset with the five arguments of a range. -/
def ranged (src width dst offset blocks : Word) : State :=
  { State.reset with src := src, width := width, dst := dst, offset := offset, blocks := blocks }

/-- A unit after reset with a cursor. -/
def placed (width curSrc curDst tcnt : Word) : State :=
  { State.reset with width := width, curSrc := curSrc, curDst := curDst, tcnt := tcnt }

/-- The same state on a platform that maps these bytes only. -/
def onlyMapped (s : State) (regions : List Region) : State :=
  { s with params := { s.params with regions := regions } }

/-- The same state with these events next. -/
def facing (s : State) (events : List HostEvent) : State := { s with inputs := events }

/-- A unit in the middle of its last line. -/
def running : State := { State.reset with busy := true, todo := [.done] }

/-- A halted unit. -/
def haltedUnit : State := { State.reset with ecode := .cmd }

/-! ## Well-formedness: a term for each check, refused -/

theorem smoke_diff_red_overflows : Instr.wellFormed
    (.blockDiff ⟨false, 0#3, 0#3, 30#5, 16#5, 16#5, 2#3, 0#3, 0#3, 0#16, 0#16⟩) = false := by decide
theorem smoke_diff_green_overflows : Instr.wellFormed
    (.blockDiff ⟨false, 0#3, 0#3, 30#5, 31#5, 16#5, 1#3, 1#3, 0#3, 0#16, 0#16⟩) = false := by decide
theorem smoke_diff_blue_overflows : Instr.wellFormed
    (.blockDiff ⟨false, 0#3, 0#3, 30#5, 16#5, 3#5, 1#3, 0#3, 4#3, 0#16, 0#16⟩) = false := by decide
theorem smoke_t_red_in_range : Instr.wellFormed
    (.blockT ⟨30#5, 1#3, 0#32, 0x202000#22, false⟩) = false := by decide
theorem smoke_h_red_overflows : Instr.wellFormed
    (.blockH ⟨31#5, 1#3, 1#5, 6#3, 0#32, 0x2000#14, false⟩) = false := by decide
theorem smoke_h_green_in_range : Instr.wellFormed
    (.blockH ⟨16#5, 0#3, 2#5, 6#3, 0#32, 0x2000#14, false⟩) = false := by decide
theorem smoke_planar_red_overflows : Instr.wellFormed
    (.blockPlanar ⟨0#6, 64#7, 0#6, 0#6, 0#7, 0#6, 3#6, 0#7, 0#6, true, false, 0#3, true⟩) = true ∧
    Instr.wellFormed
      (.blockPlanar ⟨61#6, 64#7, 0#6, 0#6, 0#7, 0#6, 0#6, 0#7, 0#6, true, false, 0#3, true⟩) = false := by
  decide
theorem smoke_planar_green_overflows : Instr.wellFormed
    (.blockPlanar ⟨0#6, 2#7, 0#6, 0#6, 0#7, 0#6, 0#6, 0#7, 0#6, false, false, 0#3, true⟩) = false := by decide
theorem smoke_planar_blue_in_range : Instr.wellFormed
    (.blockPlanar ⟨0#6, 0#7, 0#6, 0#6, 0#7, 0#6, 0#6, 0#7, 0#6, false, false, 0#3, false⟩) = false := by decide

/-! ## Decoding: a word of every constructor, bit by bit from 30_encoding.md R51, R56 to R61 -/

theorem test_decode_nop : decode .command [0x00#8, 0#8, 0#8, 0#8] = .ok (.nop, []) := rfl
theorem test_decode_select : decode .command [0x01#8, 0#8, 0#8, 0#8] = .ok (.select, []) := rfl
theorem test_decode_gather : decode .command [0x02#8, 0#8, 0#8, 0#8] = .ok (.gather, []) := rfl
theorem test_decode_encode : decode .command [0x03#8, 0#8, 0#8, 0#8] = .ok (.encode, []) := rfl
theorem test_decode_store : decode .command [0x04#8, 0#8, 0#8, 0#8] = .ok (.store, []) := rfl
theorem test_decode_process : decode .command [0x05#8, 0#8, 0#8, 0#8] = .ok (.process, []) := rfl
theorem test_decode_load : decode .command [0x06#8, 0#8, 0#8, 0#8] = .ok (.load, []) := rfl
theorem test_decode_decode : decode .command [0x07#8, 0#8, 0#8, 0#8] = .ok (.decode, []) := rfl
theorem test_decode_pack : decode .command [0x08#8, 0#8, 0#8, 0#8] = .ok (.pack, []) := rfl
theorem test_decode_start : decode .command [0x09#8, 0#8, 0#8, 0#8] = .ok (.start, []) := rfl
theorem test_decode_sreset : decode .command [0x0F#8, 0#8, 0#8, 0#8] = .ok (.sreset, []) := rfl
/-- `OP` 10 to 14 are illegal (R52), and so is a set upper bit. -/
theorem test_decode_illegal :
    decode .command [0x0A#8, 0#8, 0#8, 0#8] = .error .illegalCommand ∧
    decode .command [0x0E#8, 0#8, 0#8, 0#8] = .error .illegalCommand ∧
    decode .command [0x00#8, 0#8, 0#8, 0x80#8] = .error .illegalCommand := ⟨rfl, rfl, rfl⟩
/-- Program 2: `b_0 = 0x1F = (R1 1, R2 15)`, ..., `b_3 = 0x29 = (tcw0 1, tcw1 2, diff 0, flip 1)`. -/
theorem test_decode_indiv :
    decode .block [0x1F#8, 0x2E#8, 0x3D#8, 0x29#8, 0xCC#8, 0xCC#8, 0xAA#8, 0xAA#8] =
      .ok (.blockIndiv ⟨true, 1#3, 2#3, 1#4, 2#4, 3#4, 15#4, 14#4, 13#4, 0xAAAA#16, 0xCCCC#16⟩, []) := rfl
/-- VC15: `b_0 = 0xF1 = (r1 30, dr 1)`, `b_1 = b_2 = 0x80 = (16, 0)`, `b_3 = 0x02`: diff 1. -/
theorem test_decode_diff :
    decode .block [0xF1#8, 0x80#8, 0x80#8, 0x02#8, 0#8, 0#8, 0#8, 0#8] =
      .ok (.blockDiff ⟨false, 0#3, 0#3, 30#5, 16#5, 16#5, 1#3, 0#3, 0#3, 0#16, 0#16⟩, []) := rfl
/-- VC16: the same with `dr` 2, so red overflows. -/
theorem test_decode_t :
    decode .block [0xF2#8, 0x80#8, 0x80#8, 0x02#8, 0#8, 0#8, 0#8, 0#8] =
      .ok (.blockT ⟨30#5, 2#3, 0#32, 0x202000#22, false⟩, []) := rfl
/-- VC17: `b_1 = 0x0E = (g1 1, dg -2)`, so green overflows. -/
theorem test_decode_h :
    decode .block [0x80#8, 0x0E#8, 0x80#8, 0x02#8, 0#8, 0#8, 0#8, 0#8] =
      .ok (.blockH ⟨16#5, 0#3, 1#5, 6#3, 0#32, 0x2000#14, false⟩, []) := rfl
/-- VP6: every split field in its pieces. -/
theorem test_decode_planar :
    decode .block [0xE6#8, 0xC4#8, 0x14#8, 0xA3#8, 0xAB#8, 0x51#8, 0x0C#8, 0xCC#8] =
      .ok (.blockPlanar ⟨51#6, 34#7, 17#6, 17#6, 85#7, 42#6, 8#6, 51#7, 12#6, true, true, 0#3, true⟩, []) := rfl
/-- Section 2.2: red is tested before green, green before blue; `w[1] = 0` is INDIV whatever the sums. -/
theorem test_class_priority :
    ([0x00000000F8000002#64, 0x0000000007000002#64, 0x0000000000F90002#64, 0x000000000000F902#64,
      0x00000000F9F90002#64, 0x0000000000040402#64, 0x0000000004040402#64, 0x00000000F9F9F900#64,
      0x000000001C000002#64, 0x000000001D000002#64, 0x00000000EB000002#64] : List BlockWord).map classify =
    [.diff, .t, .h, .planar, .t, .h, .t, .indiv, .t, .diff, .t] := by decide
/-- Section 2.1. -/
theorem test_permutation :
    permute 0x0102030405060708#64 = 0x0403020108070605#64 ∧
    permute 0x00000000000000FF#64 = 0x00000000FF000000#64 ∧
    permute 0x00FF000000000000#64 = 0x0000FF0000000000#64 := by decide
/-- The host's two questions, on the T word of VC16 numbered as the opcode table numbers it. -/
theorem test_fetch_word :
    decodeTableWord 64 0x00000000F2808002 = some (.blockT ⟨30#5, 2#3, 0#32, 0x202000#22, false⟩) ∧
    regAfter .status (step (State.reset.withFetchWord 64 0x00000000F2808002)) = some 0xA00#32 := by decide

/-! ## One step of every instruction -/

theorem test_nop : exec .nop State.reset = .next State.reset := rfl

/-- R126's example. -/
theorem test_sreset_clears :
    regAfter .status (exec .sreset { State.reset with ecode := .align, width := 8#32 }) = some 0#32 ∧
    regAfter .width (exec .sreset { State.reset with ecode := .align, width := 8#32 }) = some 0#32 := by decide

/-- Section 2.4: `CFG = 6`, `CAP = 1`. -/
theorem test_select_all_flags :
    regAfter .ksel (exec .select { State.reset with
      cfg := 6#3, params := { State.reset.params with capAvx2 := true } }) = some 7#32 := by decide
/-- Section 2.4: `CFG = 7`, `CAP = 0`: the dither request is dropped. -/
theorem test_select_drops_dither :
    regAfter .ksel (exec .select { State.reset with cfg := 7#3 }) = some 1#32 := by decide

/-- VG1, the second GATHER: the cursor wraps to the next block row. -/
theorem test_gather_wraps :
    regAfter .curSrc (exec .gather (placed 8#32 0x1010#32 0#32 1#32)) = some 0x1080#32 ∧
    regAfter .tcnt (exec .gather (placed 8#32 0x1010#32 0#32 1#32)) = some 0#32 := by decide
/-- Program 7: the alpha byte 0x10 of the pixel at column 1, row 0 is replicated, its own place is 0. -/
theorem test_gather_alpha :
    regAfter (.tile 4) (exec .gather { placed 4#32 0x1000#32 0#32 0#32 with
      cfg := 5#3, mem := [(0x1004, 0x56#8), (0x1007, 0x10#8)] }) = some 0x00101010#32 := by decide

/-- Section 2.4: ENCODE with `KSEL = 2` leaves the dithered tile and its word. -/
theorem test_encode_dithers :
    (nextOf (exec .encode { State.reset with ksel := 2#3 })).map (fun s => (s.tile, s.blk)) =
      some (Config.dither State.reset.tile, Config.prgb (Config.dither State.reset.tile)) := rfl
/-- R73: with `KSEL = 5` the AVX2 ETC2 kernel, the tile as it was. -/
theorem test_encode_avx2 :
    (nextOf (exec .encode { State.reset with ksel := 5#3 })).map (fun s => (s.tile, s.blk)) =
      some (State.reset.tile, Config.prgbEtc2Avx2 State.reset.tile) := rfl

/-- R104's example. -/
theorem test_store_bytes :
    (nextOf (exec .store { holding 0x0123456789ABCDEF#64 with curDst := 0x2018#32 })).map
        (fun s => (s.mem, s.curDst)) =
      some ([(0x2018, 0xEF#8), (0x2019, 0xCD#8), (0x201A, 0xAB#8), (0x201B, 0x89#8), (0x201C, 0x67#8),
        (0x201D, 0x45#8), (0x201E, 0x23#8), (0x201F, 0x01#8)], 0x2020#32) := by decide
/-- Program 5: a word outside the mapped bytes. -/
theorem test_store_unmapped :
    regAfter .status (exec .store (onlyMapped (placed 8#32 0#32 0x2008#32 0#32) [⟨0x2000, 8⟩])) =
      some 0x44#32 := by decide

/-- R80's example. -/
theorem test_load_word :
    (nextOf (exec .load { placed 4#32 0#32 0x2000#32 0#32 with
        mem := [(0x2000, 0x33#8), (0x2001, 0x22#8), (0x2002, 0x11#8)] })).map (fun s => (s.blk, s.curDst)) =
      some (0x0000000000112233#64, 0x2008#32) := by decide
theorem test_load_misaligned :
    regAfter .status (exec .load (placed 4#32 0#32 0x2004#32 0#32)) = some 0x34#32 := by decide

/-- VG5, with `8 * OFFSET` wrapping. -/
theorem test_start_offset_wraps :
    regAfter .curDst (exec .start (ranged 0x1000#32 8#32 0x2000#32 0x20000001#32 2#32)) = some 0x2008#32 ∧
    regAfter .rem (exec .start (ranged 0x1000#32 8#32 0x2000#32 3#32 2#32)) = some 2#32 := by decide
/-- VG9: `WIDTH = 6` and `SRC = 0x1002` together: the size is tested first. -/
theorem test_start_size_first :
    regAfter .status (exec .start (ranged 0x1002#32 6#32 0x2000#32 0#32 1#32)) = some 0x24#32 := by decide

/-- Program 4: the cursor after a PROCESS of two tiles. -/
theorem test_process_cursor :
    (nextOf (exec .process (ranged 0x1000#32 8#32 0x2000#32 0#32 2#32))).map
      (fun s => (s.curSrc, s.curDst, s.tcnt, s.rem)) = some (0x1080#32, 0x2010#32, 0#32, 0#32) := by rfl
/-- Program 5, line 9: block 0 completes, the STORE of block 1 is not admitted. -/
theorem test_process_bus_error :
    (nextOf (exec .process (onlyMapped (ranged 0x1000#32 8#32 0x2000#32 0#32 2#32)
        [⟨0x1000, 0x80⟩, ⟨0x2000, 8⟩]))).map (fun s => (s.ecode, s.curSrc, s.curDst, s.tcnt, s.rem)) =
      some (.bus, 0x1080#32, 0x2008#32, 0#32, 1#32) := by rfl

/-- VE5: every field non-trivial, clamping at 255. -/
theorem test_decode_pixels :
    pixelsAfter (exec .decode (holding 0x0123456789ABCDEF#64)) =
      some [0xFF6E90B2#32, 0xFFBCDEFF#32, 0xFFB2D4F6#32, 0xFFC4E6FF#32, 0xFFBCDEFF#32, 0xFFBCDEFF#32,
        0xFFB2D4F6#32, 0xFFC4E6FF#32, 0xFF6E90B2#32, 0xFF6E90B2#32, 0xFFB2D4F6#32, 0xFFC4E6FF#32,
        0xFFBCDEFF#32, 0xFF6E90B2#32, 0xFFB2D4F6#32, 0xFFC4E6FF#32] := by decide
/-- Section 2.7: `MODE` follows the last decode, `UNK` stays. -/
theorem test_decode_unk_sticks :
    regAfter .status (exec .decode { holding 0#64 with mode := .t, unk := true }) = some 0x800#32 := by decide

/-- VE7: flip 1, rows 0 and 1 from endpoint 1. -/
theorem test_indiv_flip :
    (pixelsAfter (exec (.blockIndiv ⟨true, 1#3, 2#3, 1#4, 2#4, 3#4, 15#4, 14#4, 13#4, 0xAAAA#16, 0xCCCC#16⟩)
        State.reset)).map (·.take 4) =
      some [0xFF382716#32, 0xFF443322#32, 0xFFD4E5F6#32, 0xFFC0D1E2#32] := by decide
/-- VL2, VL4: the selector's msb is the sign. -/
theorem test_indiv_selector_planes :
    (pixelsAfter (exec (.blockIndiv ⟨false, 0#3, 0#3, 0#4, 0#4, 0#4, 0#4, 0#4, 0#4, 0x8001#16, 0#16⟩)
        State.reset)).map (fun l => (l[0]!, l[1]!, l[15]!)) =
      some (0xFF080808#32, 0xFF020202#32, 0xFF080808#32) := by decide

/-- VD1: `r1 = 30`, `dr = +1`; red of the second endpoint clamps. -/
theorem test_diff_delta :
    (pixelsAfter (exec (.blockDiff ⟨false, 0#3, 0#3, 30#5, 16#5, 16#5, 1#3, 0#3, 0#3, 0#16, 0#16⟩)
        State.reset)).map (fun l => (l[7]!, l[8]!)) = some (0xFF8686F9#32, 0xFF8686FF#32) := by decide
/-- Section 2.3, table row 7. -/
theorem test_diff_table_row :
    (pixelsAfter (exec (.blockDiff ⟨false, 7#3, 7#3, 16#5, 16#5, 16#5, 0#3, 0#3, 0#3, 0xAAAA#16, 0xCCCC#16⟩)
        State.reset)).map (·.drop 12) =
      some [0xFFB3B3B3#32, 0xFFFFFFFF#32, 0xFF555555#32, 0xFF000000#32] := by decide

/-- VT1. -/
theorem test_t_black :
    regAfter .status (exec (.blockT ⟨30#5, 2#3, 0#32, 0x202000#22, false⟩) State.reset) = some 0xA00#32 ∧
    regAfter (.pix 15) (exec (.blockT ⟨30#5, 2#3, 0#32, 0x202000#22, false⟩) State.reset) =
      some 0xFF000000#32 := by decide
/-- VH1. -/
theorem test_h_black :
    regAfter .status (exec (.blockH ⟨16#5, 0#3, 1#5, 6#3, 0#32, 0x2000#14, false⟩) State.reset) = some 0xB00#32 ∧
    regAfter (.pix 0) (exec (.blockH ⟨16#5, 0#3, 1#5, 6#3, 0#32, 0x2000#14, false⟩) State.reset) =
      some 0xFF000000#32 := by decide

/-- VP6: distinguishes the column from the row (`PIX[1]` from `PIX[4]`). -/
theorem test_planar_gradient :
    pixelsAfter (exec (.blockPlanar ⟨51#6, 34#7, 17#6, 17#6, 85#7, 42#6, 8#6, 51#7, 12#6, true, true, 0#3, true⟩)
        State.reset) =
      some [0xFF4544CF#32, 0xFF404DA3#32, 0xFF3B5578#32, 0xFF355E4C#32, 0xFF5E5EAD#32, 0xFF596681#32,
        0xFF546F55#32, 0xFF4F7729#32, 0xFF78788A#32, 0xFF72805E#32, 0xFF6D8933#32, 0xFF689107#32,
        0xFF919168#32, 0xFF8C9A3C#32, 0xFF86A210#32, 0xFF81AB00#32] := by decide
/-- VP4: negative sums clamp to 0. -/
theorem test_planar_clamps :
    (pixelsAfter (exec .decode (holding 0x0000000082FBFFFF#64))).map (fun l => (l[0]!, l[3]!, l[7]!, l[15]!)) =
      some (0xFFFFFFFF#32, 0xFF404040#32, 0xFF000000#32, 0xFF000000#32) := by decide

/-- VK11: the planar word of VP6, free bits chosen. -/
theorem test_pack_planar :
    (nextOf (exec .pack (packing 0x002#9 0x00112233#32 0x002A5511#32 0x000C3308#32))).map (·.blk) =
      some 0xCC0C51ABA314C4E6#64 := by decide
/-- Section 2.6: DIFF red 30 + 2 would be T. -/
theorem test_pack_range_error :
    regAfter .status (exec .pack (packing 0x001#9 0x0010101E#32 0x00000002#32 0#32)) = some 0x54#32 := by decide

/-! ## The register window and the life of a command -/

/-- Section 2.7: illegal words, and what a halted unit ignores. -/
theorem test_lifecycle :
    regAfter .status (step (facing State.reset [.write 0x00#8 0x0000000A#32])) = some 0x14#32 ∧
    regAfter .status (step (facing State.reset [.write 0x00#8 0x00000017#32])) = some 0x14#32 ∧
    regAfter .status (step (facing haltedUnit [.write 0x00#8 0x0000001F#32])) = some 0x14#32 ∧
    regAfter .status (step (facing haltedUnit [.write 0x00#8 0x0000000F#32])) = some 0#32 ∧
    regAfter .cfg (step (facing haltedUnit [.write 0x08#8 0x00000006#32])) = some 6#32 := by decide
/-- VG4: addresses wrap at the top. -/
theorem test_tile_addresses :
    ((List.finRange 6).map fun k => (placed 4#32 0xFFFFFFF0#32 0#32 0#32).tileAddr (k.castLE (by decide))) =
      [0xFFFFFFF0#32, 0x00000000#32, 0x00000010#32, 0x00000020#32, 0xFFFFFFF4#32, 0x00000004#32] := by decide
/-- A read while a command runs shows `BUSY`, and the events of a script reach the registers they name. -/
theorem test_script_events :
    (nextOf (step (facing running [.read 0x04#8]))).map (·.lastRead) = some (some 1#32) ∧
    (ScriptLine.setCfg true false true).events = [.write 0x08#8 0x00000005#32] := by decide

/-! ## Witnesses: states and operands that meet the hypotheses of each obligation, clause by clause -/

/-- The idle unit after reset: the hypothesis of the statements that only ask for an idle unit. -/
theorem reset_idle : State.reset.Idle := ⟨rfl, rfl⟩
theorem reset_ready : State.reset.Ready := ⟨reset_idle, rfl⟩

theorem witness_NopChangesNothing : { State.reset with width := 8#32 }.Idle := ⟨rfl, rfl⟩
theorem witness_SelectComputesKernelId : { State.reset with cfg := 7#3 }.Idle := ⟨rfl, rfl⟩
/-- Each of the four base kernels, with the dither pre-pass and without. -/
theorem witness_EncodeAppliesSelectedKernel :
    ({ State.reset with ksel := 0#3 }.Idle ∧
      State.reset.tile = (if (0#3).getLsbD 1 then Config.dither State.reset.tile else State.reset.tile) ∧
      (0#3).getLsbD 2 = false ∧ (0#3).getLsbD 0 = false) ∧
    ({ State.reset with ksel := 3#3 }.Idle ∧
      Config.dither State.reset.tile =
        (if (3#3).getLsbD 1 then Config.dither State.reset.tile else State.reset.tile) ∧
      (3#3).getLsbD 2 = false ∧ (3#3).getLsbD 0 = true) ∧
    ({ State.reset with ksel := 4#3 }.Idle ∧
      State.reset.tile = (if (4#3).getLsbD 1 then Config.dither State.reset.tile else State.reset.tile) ∧
      (4#3).getLsbD 2 = true ∧ (4#3).getLsbD 0 = false) ∧
    ({ State.reset with ksel := 7#3 }.Idle ∧
      Config.dither State.reset.tile =
        (if (7#3).getLsbD 1 then Config.dither State.reset.tile else State.reset.tile) ∧
      (7#3).getLsbD 2 = true ∧ (7#3).getLsbD 0 = true) :=
  ⟨⟨⟨rfl, rfl⟩, rfl, rfl, rfl⟩, ⟨⟨rfl, rfl⟩, rfl, rfl, rfl⟩, ⟨⟨rfl, rfl⟩, rfl, rfl, rfl⟩,
    ⟨⟨rfl, rfl⟩, rfl, rfl, rfl⟩⟩

/-- A cursor off by four; an aligned one that is not mapped; the last block word of the address space. -/
theorem witness_LoadReadsBlockWord :
    ((placed 4#32 0#32 4#32 0#32).Idle ∧ (4#32).toNat % 8 ≠ 0) ∧
    ((onlyMapped State.reset []).Idle ∧ (0#32).toNat % 8 = 0 ∧
      admitted (onlyMapped State.reset []).params 0#32 8 = false) ∧
    ((placed 4#32 0#32 0xFFFFFFF8#32 0#32).Idle ∧ (0xFFFFFFF8#32).toNat % 8 = 0 ∧
      admitted State.reset.params 0xFFFFFFF8#32 8 = true) :=
  ⟨⟨⟨rfl, rfl⟩, by decide⟩, ⟨⟨rfl, rfl⟩, by decide, by decide⟩, ⟨⟨rfl, rfl⟩, by decide, by decide⟩⟩
/-- The same three, over a memory that holds something. -/
theorem witness_StoreWritesEightBytes :
    Memory.wf [(0xFFFFFFF7, 1#8), (0xFFFFFFF8, 2#8)] = true ∧
    ({ placed 4#32 0#32 4#32 0#32 with mem := [(0xFFFFFFF7, 1#8), (0xFFFFFFF8, 2#8)] }.Idle ∧
      (4#32).toNat % 8 ≠ 0) ∧
    ({ onlyMapped State.reset [⟨0, 7⟩] with mem := [(0xFFFFFFF7, 1#8), (0xFFFFFFF8, 2#8)] }.Idle ∧
      (0#32).toNat % 8 = 0 ∧ admitted (onlyMapped State.reset [⟨0, 7⟩]).params 0#32 8 = false) ∧
    ({ placed 4#32 0#32 0xFFFFFFF8#32 0#32 with mem := [(0xFFFFFFF7, 1#8), (0xFFFFFFF8, 2#8)] }.Idle ∧
      (0xFFFFFFF8#32).toNat % 8 = 0 ∧ admitted State.reset.params 0xFFFFFFF8#32 8 = true) :=
  ⟨by decide, ⟨⟨rfl, rfl⟩, by decide⟩, ⟨⟨rfl, rfl⟩, by decide, by decide⟩,
    ⟨⟨rfl, rfl⟩, by decide, by decide⟩⟩
theorem witness_StoreThenLoadReturnsWord :
    (holding 0x0123456789ABCDEF#64).Idle ∧ Memory.wf (holding 0x0123456789ABCDEF#64).mem = true ∧
    (holding 0x0123456789ABCDEF#64).curDst.toNat % 8 = 0 ∧
    admitted (holding 0x0123456789ABCDEF#64).params (holding 0x0123456789ABCDEF#64).curDst 8 = true ∧
    ∃ t, exec .store (holding 0x0123456789ABCDEF#64) = .next t :=
  ⟨⟨rfl, rfl⟩, by decide, by decide, by decide, ⟨_, rfl⟩⟩

/-- The clauses of START, PROCESS: `WIDTH` 0 and 6, `SRC` or `DST` misaligned, and arguments that pass. -/
theorem witness_StartInitialisesCursor :
    ((ranged 0#32 0#32 0#32 0#32 0#32).Idle ∧ (0#32).toNat = 0) ∧
    ((ranged 0x1002#32 6#32 0#32 0#32 0#32).Idle ∧ (6#32).toNat % 4 ≠ 0) ∧
    ((ranged 0x1002#32 8#32 0x2000#32 0#32 0#32).Idle ∧
      (8#32).toNat ≠ 0 ∧ (8#32).toNat % 4 = 0 ∧ (0x1002#32).toNat % 4 ≠ 0) ∧
    ((ranged 0x1000#32 8#32 0x2004#32 0#32 0#32).Idle ∧
      (8#32).toNat ≠ 0 ∧ (8#32).toNat % 4 = 0 ∧ (0x2004#32).toNat % 8 ≠ 0) ∧
    ((ranged 0x1000#32 0xFFFFFFFC#32 0x2000#32 3#32 2#32).Idle ∧
      (0xFFFFFFFC#32).toNat ≠ 0 ∧ (0xFFFFFFFC#32).toNat % 4 = 0 ∧
      (0x1000#32).toNat % 4 = 0 ∧ (0x2000#32).toNat % 8 = 0) :=
  ⟨⟨⟨rfl, rfl⟩, by decide⟩, ⟨⟨rfl, rfl⟩, by decide⟩, ⟨⟨rfl, rfl⟩, by decide⟩, ⟨⟨rfl, rfl⟩, by decide⟩,
    ⟨⟨rfl, rfl⟩, by decide⟩⟩
theorem witness_ProcessWithoutBlocks :
    ((ranged 0#32 0#32 0#32 0#32 2#32).Idle ∧ (0#32).toNat = 0) ∧
    ((ranged 0x1000#32 8#32 0x2004#32 0#32 2#32).Idle ∧
      (8#32).toNat ≠ 0 ∧ (8#32).toNat % 4 = 0 ∧ (0x2004#32).toNat % 8 ≠ 0) ∧
    ((ranged 0x1000#32 4#32 0x2000#32 3#32 0#32).Idle ∧
      (4#32).toNat ≠ 0 ∧ (4#32).toNat % 4 = 0 ∧ (0x1000#32).toNat % 4 = 0 ∧ (0x2000#32).toNat % 8 = 0 ∧
      (ranged 0x1000#32 4#32 0x2000#32 3#32 0#32).blocks = 0#32) :=
  ⟨⟨⟨rfl, rfl⟩, by decide⟩, ⟨⟨rfl, rfl⟩, by decide⟩, ⟨⟨rfl, rfl⟩, by decide⟩⟩

/-- The addresses of R101 for a state. -/
def addressOf (s : State) (c r : Nat) : Word :=
  BitVec.ofNat 32 (s.curSrc.toNat + 4 * (r * s.width.toNat + c))

/-- VG9's map: 0x1000 to 0x106B, one word short of the tile. -/
def shortMap : State := onlyMapped (placed 8#32 0x1000#32 0#32 0#32) [⟨0x1000, 0x6C⟩]

/-- The clauses of GATHER: `WIDTH` 0, a misaligned cursor, the last pixel not mapped, all mapped at the top
of the address space; for both channel modes. -/
theorem witness_GatherReadsTileAndAdvances :
    (State.reset.Idle ∧ State.reset.width.toNat = 0) ∧
    ((placed 8#32 2#32 0#32 0#32).Idle ∧ (8#32).toNat ≠ 0 ∧ (8#32).toNat % 4 = 0 ∧ (2#32).toNat % 4 ≠ 0) ∧
    (shortMap.Idle ∧ shortMap.width.toNat ≠ 0 ∧ shortMap.width.toNat % 4 = 0 ∧ shortMap.curSrc.toNat % 4 = 0 ∧
      ∃ c r, c < 4 ∧ r < 4 ∧ admitted shortMap.params (addressOf shortMap c r) 4 = false) ∧
    (∀ cfg ∈ [0#3, 1#3], ∃ s : State, s = { placed 4#32 0xFFFFFFF0#32 0#32 0#32 with cfg := cfg } ∧
      s.Idle ∧ s.width.toNat ≠ 0 ∧ s.width.toNat % 4 = 0 ∧ s.curSrc.toNat % 4 = 0 ∧
      (∀ c r, c < 4 → r < 4 → admitted s.params (addressOf s c r) 4 = true) ∧
      (s.cfg.getLsbD 0 = false ∨ s.cfg.getLsbD 0 = true)) := by
  refine ⟨⟨⟨rfl, rfl⟩, by decide⟩, ⟨⟨rfl, rfl⟩, by decide⟩,
    ⟨⟨rfl, rfl⟩, by decide, by decide, by decide, 3, 3, by decide, by decide, by decide⟩, ?_⟩
  intro cfg _
  refine ⟨_, rfl, ⟨rfl, rfl⟩, by simp [placed], by simp [placed], by simp [placed], fun c r hc hr => ?_, ?_⟩
  · simp only [placed, addressOf]
    have : ∀ c < 4, ∀ r < 4, admitted State.reset.params
        (BitVec.ofNat 32 ((0xFFFFFFF0#32).toNat + 4 * (r * (4#32).toNat + c))) 4 = true := by decide
    exact this c hc r hr
  · cases (cfg.getLsbD 0) <;> simp
/-- The last clauses: a row of one tile wraps, a row of two does not yet. -/
theorem witness_GatherReadsTileAndAdvances_cursor :
    ((placed 4#32 0x1000#32 0#32 0#32).tcnt + 1#32).toNat = (placed 4#32 0x1000#32 0#32 0#32).width.toNat / 4 ∧
    ((placed 8#32 0x1000#32 0#32 0#32).tcnt + 1#32).toNat ≠ (placed 8#32 0x1000#32 0#32 0#32).width.toNat / 4 := by
  decide
theorem witness_WalkHasClosedForm :
    (ranged 0x1000#32 8#32 0#32 0#32 0#32).Ready ∧
    ∃ t, runCommands (.start :: List.replicate 2 .gather) (ranged 0x1000#32 8#32 0#32 0#32 0#32) = .next t ∧
      t.halted = false := ⟨⟨⟨rfl, rfl⟩, rfl⟩, ⟨_, rfl, by decide⟩⟩

theorem witness_ProcessEqualsHostSequence : (ranged 0x1000#32 8#32 0x2000#32 0#32 2#32).Ready :=
  ⟨⟨rfl, rfl⟩, rfl⟩
/-- One 4x4 image, its word elsewhere. -/
theorem witness_ProcessEncodesEveryBlock :
    ∃ s : State, s = ranged 0x1000#32 4#32 0x2000#32 0#32 1#32 ∧ s.Idle ∧ Memory.wf s.mem = true ∧
      s.width.toNat ≠ 0 ∧ s.width.toNat % 4 = 0 ∧ s.src.toNat % 4 = 0 ∧ s.dst.toNat % 8 = 0 ∧
      (∀ n, n < s.blocks.toNat → admitted s.params (s.rangeAddr n) 8 = true ∧
        ∀ k : Fin 16, admitted s.params (walkPixelAddr s.src s.width n k) 4 = true) ∧
      (∀ m n i, m < s.blocks.toNat → n < s.blocks.toNat → i < 4 → ∀ k : Fin 16,
        ¬ inBytes (s.rangeAddr m) 8 ((walkPixelAddr s.src s.width n k).toNat + i)) := by
  refine ⟨_, rfl, ⟨rfl, rfl⟩, by decide, by decide, by decide, by decide, by decide, ?_, ?_⟩
  · intro n hn
    obtain rfl : n = 0 := by simpa [ranged] using hn
    decide
  · intro m n i hm hn hi k
    obtain rfl : n = 0 := by simpa [ranged] using hn
    obtain rfl : m = 0 := by simpa [ranged] using hm
    unfold inBytes
    revert i k
    decide
theorem witness_ProcessStoresOnlyInItsRange :
    Memory.wf (ranged 0x1000#32 4#32 0x2000#32 0#32 1#32).mem = true ∧
    (∃ t, exec .process (ranged 0x1000#32 4#32 0x2000#32 0#32 1#32) = .next t) ∧
    ∀ n, n < (ranged 0x1000#32 4#32 0x2000#32 0#32 1#32).blocks.toNat →
      ¬ inBytes ((ranged 0x1000#32 4#32 0x2000#32 0#32 1#32).rangeAddr n) 8 0x2008 := by
  refine ⟨by decide, ⟨_, rfl⟩, fun n hn => ?_⟩
  obtain rfl : n = 0 := by simpa [ranged] using hn
  unfold inBytes
  decide
/-- Program 5, line 9. -/
theorem witness_ProcessErrorKeepsStoredBlocks :
    (onlyMapped (ranged 0x1000#32 8#32 0x2000#32 0#32 2#32) [⟨0x1000, 0x80⟩, ⟨0x2000, 8⟩]).Ready ∧
    ∃ t, exec .process (onlyMapped (ranged 0x1000#32 8#32 0x2000#32 0#32 2#32)
      [⟨0x1000, 0x80⟩, ⟨0x2000, 8⟩]) = .next t ∧ t.ecode = .bus := ⟨⟨⟨rfl, rfl⟩, rfl⟩, ⟨_, rfl, rfl⟩⟩
theorem witness_ProcessSplitsAtBlockRows :
    (ranged 0x1000#32 4#32 0x2000#32 0#32 0#32).Ready ∧ 1 + 1 < 2 ^ 32 ∧ 1 % tilesPerRow 4#32 = 0 ∧
    (∃ u, exec .process { ranged 0x1000#32 4#32 0x2000#32 0#32 0#32 with blocks := BitVec.ofNat 32 (1 + 1) } =
      .next u ∧ u.halted = false) ∧
    ∃ t, exec .process { ranged 0x1000#32 4#32 0x2000#32 0#32 0#32 with blocks := BitVec.ofNat 32 1 } = .next t :=
  ⟨⟨⟨rfl, rfl⟩, rfl⟩, by decide, by decide, ⟨_, rfl, rfl⟩, ⟨_, rfl⟩⟩

theorem witness_DecodeIsTotalAndOpaque : (holding 0x0123456789ABCDEF#64).Idle := ⟨rfl, rfl⟩
/-- A pixel of each sub-block. -/
theorem witness_IndivPixelsFollowFields :
    (holding 0#64).Idle ∧ firstSubBlock true 0 ∧ ¬ firstSubBlock true 2 ∧ firstSubBlock false 7 ∧
    ¬ firstSubBlock false 8 :=
  ⟨⟨rfl, rfl⟩, by unfold firstSubBlock; decide, by unfold firstSubBlock; decide,
    by unfold firstSubBlock; decide, by unfold firstSubBlock; decide⟩
theorem witness_DiffPixelsFollowFields :
    (holding 0#64).Idle ∧
    DiffFields.wf ⟨false, 0#3, 0#3, 30#5, 16#5, 16#5, 1#3, 0#3, 0#3, 0#16, 0#16⟩ = true ∧
    (∃ e : Int → Int, ∀ v, e v = 8 * v + v / 4) ∧ firstSubBlock false 7 ∧ ¬ firstSubBlock false 8 :=
  ⟨⟨rfl, rfl⟩, by decide, ⟨_, fun _ => rfl⟩, by unfold firstSubBlock; decide, by unfold firstSubBlock; decide⟩
theorem witness_UnknownModesDecodeToBlack :
    (holding 0#64).Idle ∧ TFields.wf ⟨30#5, 2#3, 0#32, 0x202000#22, false⟩ = true ∧
    HFields.wf ⟨16#5, 0#3, 1#5, 6#3, 0#32, 0x2000#14, false⟩ = true := ⟨⟨rfl, rfl⟩, by decide, by decide⟩
theorem witness_PlanarPixelsFollowFields :
    (holding 0#64).Idle ∧
    PlanarFields.wf ⟨51#6, 34#7, 17#6, 17#6, 85#7, 42#6, 8#6, 51#7, 12#6, true, true, 0#3, true⟩ = true :=
  ⟨⟨rfl, rfl⟩, by decide⟩
theorem witness_IllFormedBlockTermsAreRefused : Instr.wellFormed
    (.blockT ⟨30#5, 1#3, 0#32, 0x202000#22, false⟩) = false := smoke_t_red_in_range
/-- VE7, VD1 and VP6 as decode words. -/
theorem witness_BlockFieldsSitAtTheirPositions :
    (∃ bits : Nat → Nat → Nat, ∀ lo n, bits lo n = (0xCCCCAAAA1F2E3D29#64).toNat / 2 ^ lo % 2 ^ n) ∧
    decodeBlock 0xCCCCAAAA1F2E3D29#64 =
      .blockIndiv ⟨true, 1#3, 2#3, 1#4, 2#4, 3#4, 15#4, 14#4, 13#4, 0xAAAA#16, 0xCCCC#16⟩ ∧
    decodeBlock 0x00000000F1808002#64 =
      .blockDiff ⟨false, 0#3, 0#3, 30#5, 16#5, 16#5, 1#3, 0#3, 0#3, 0#16, 0#16⟩ ∧
    decodeBlock 0xAB510CCCE6C414A3#64 =
      .blockPlanar ⟨51#6, 34#7, 17#6, 17#6, 85#7, 42#6, 8#6, 51#7, 12#6, true, true, 0#3, true⟩ :=
  ⟨⟨_, fun _ _ => rfl⟩, by decide, by decide, by decide⟩
/-- VC2: the candidates of a word are these numbers. -/
theorem witness_ClassFollowsOverflowOrder :
    (32 : Int) = ((0x00000000F9000002#64).extractLsb' 27 5).toNat + ((0x00000000F9000002#64).extractLsb' 24 3).toInt ∧
    (0 : Int) = ((0x00000000F9000002#64).extractLsb' 19 5).toNat + ((0x00000000F9000002#64).extractLsb' 16 3).toInt ∧
    (0 : Int) = ((0x00000000F9000002#64).extractLsb' 11 5).toNat + ((0x00000000F9000002#64).extractLsb' 8 3).toInt := by
  decide

/-- VK1 (INDIV), VK3 (DIFF), VK6 and VK7 (PLANAR, each choice of the blue free bits): legal operands. -/
theorem witness_PackAssemblesFields :
    ((packing 0x08C#9 0x00030201#32 0x000D0E0F#32 0xCCCCAAAA#32).Idle ∧
      (packing 0x08C#9 0x00030201#32 0x000D0E0F#32 0xCCCCAAAA#32).packOperandsLegal ∧ (0x08C#9).toNat % 4 = 0) ∧
    ((packing 0x001#9 0x0010101E#32 0x00000001#32 0#32).Idle ∧
      (packing 0x001#9 0x0010101E#32 0x00000001#32 0#32).packOperandsLegal ∧ (0x001#9).toNat % 4 = 1) ∧
    ((packing 0x002#9 0#32 0x0000003F#32 0#32).Idle ∧
      (packing 0x002#9 0#32 0x0000003F#32 0#32).packOperandsLegal ∧ (0x002#9).toNat % 4 = 2 ∧
      ((0#32 : Word).extractLsb' 19 2).toNat + ((0#32 : Word).extractLsb' 17 2).toNat < 4) ∧
    ((packing 0x002#9 0x003F7F3F#32 0x003F7F3F#32 0x003F7F3F#32).Idle ∧
      (packing 0x002#9 0x003F7F3F#32 0x003F7F3F#32 0x003F7F3F#32).packOperandsLegal ∧
      4 ≤ ((0x003F7F3F#32 : Word).extractLsb' 19 2).toNat + ((0x003F7F3F#32 : Word).extractLsb' 17 2).toNat) :=
  ⟨⟨⟨rfl, rfl⟩, (packLegal_iff _).1 (by decide), by decide⟩,
    ⟨⟨rfl, rfl⟩, (packLegal_iff _).1 (by decide), by decide⟩,
    ⟨⟨rfl, rfl⟩, (packLegal_iff _).1 (by decide), by decide, by decide⟩,
    ⟨⟨rfl, rfl⟩, (packLegal_iff _).1 (by decide), by decide⟩⟩
/-- The twelve operand settings of section 2.6 that raise `ERR_RANGE`. -/
theorem witness_PackChecksOperands :
    ∀ p ∈ ([(0x003#9, 0#32, 0#32, 0#32), (0x000#9, 0x01000000#32, 0#32, 0#32),
      (0x002#9, 0#32, 0#32, 0x01000000#32), (0x000#9, 0x00000010#32, 0#32, 0#32),
      (0x001#9, 0x0000001F#32, 0x00000008#32, 0#32), (0x001#9, 0x00000020#32, 0#32, 0#32),
      (0x002#9, 0x00000040#32, 0#32, 0#32), (0x002#9, 0x00008000#32, 0#32, 0#32),
      (0x001#9, 0x0010101E#32, 0x00000002#32, 0#32), (0x001#9, 0#32, 0x00000007#32, 0#32),
      (0x001#9, 0x00001F00#32, 0x00000100#32, 0#32), (0x001#9, 0#32, 0x00040000#32, 0#32)] :
      List (BitVec 9 × Word × Word × Word)),
      (State.reset.withPack p).Idle ∧ ¬ (State.reset.withPack p).packOperandsLegal := by
  intro p hp
  have illegal : packLegal (State.reset.withPack p) = false := by
    simp only [List.mem_cons, List.not_mem_nil, or_false] at hp
    rcases hp with rfl | rfl | rfl | rfl | rfl | rfl | rfl | rfl | rfl | rfl | rfl | rfl <;> decide
  exact ⟨⟨rfl, rfl⟩, fun h => by simp [(packLegal_iff _).2 h] at illegal⟩
theorem witness_PackThenDecodeReturnsFields :
    ((packing 0x08C#9 0x00030201#32 0x000D0E0F#32 0xCCCCAAAA#32).Idle ∧
      (packing 0x08C#9 0x00030201#32 0x000D0E0F#32 0xCCCCAAAA#32).packOperandsLegal) ∧
    ((packing 0x001#9 0x0010101E#32 0x00000001#32 0#32).Idle ∧
      (packing 0x001#9 0x0010101E#32 0x00000001#32 0#32).packOperandsLegal) ∧
    ((packing 0x002#9 0x00112233#32 0x002A5511#32 0x000C3308#32).Idle ∧
      (packing 0x002#9 0x00112233#32 0x002A5511#32 0x000C3308#32).packOperandsLegal) :=
  ⟨⟨⟨rfl, rfl⟩, (packLegal_iff _).1 (by decide)⟩, ⟨⟨rfl, rfl⟩, (packLegal_iff _).1 (by decide)⟩,
    ⟨⟨rfl, rfl⟩, (packLegal_iff _).1 (by decide)⟩⟩
theorem witness_PackReachesEveryEtc1WordOnce :
    State.reset.Ready ∧ classify 0xCCCCAAAA1F2E3D29#64 = .indiv ∧ classify 0x00000000F1808002#64 = .diff :=
  ⟨reset_ready, by decide, by decide⟩
/-- VK11's nine fields. -/
theorem witness_PlanarFreeBitsForceBlueOverflow :
    (⟨51#6, 34#7, 17#6, 17#6, 85#7, 42#6, 8#6, 51#7, 12#6, true, true, 0#3, true⟩ : PlanarFields) =
      planarWithFreeBits 51#6 34#7 17#6 17#6 85#7 42#6 8#6 51#7 12#6 ∧
    PlanarFields.wf { (⟨51#6, 34#7, 17#6, 17#6, 85#7, 42#6, 8#6, 51#7, 12#6, true, true, 0#3, true⟩ :
      PlanarFields) with f15_13 := 0#3, f10 := true } = true := by decide

/-- Both ends of the reserved window. -/
theorem witness_RegisterMapIsTheSpecs :
    (0x50 ≤ (0x50#8).toNat ∧ (0x50#8).toNat ≤ 0x7C ∧ (0x50#8).toNat % 4 = 0) ∧
    (0x50 ≤ (0x7C#8).toNat ∧ (0x7C#8).toNat ≤ 0x7C ∧ (0x7C#8).toNat % 4 = 0) := by decide
/-- Halted by `ERR_ALIGN`, the last block H. -/
theorem witness_StatusFieldsReadAsLaidOut :
    (0x00000B34#32 : Word) = readReg { State.reset with ecode := .align, mode := .h, unk := true } .status := by
  decide
/-- A read of every kind of register, of a busy unit. -/
theorem witness_HostReadReturnsRegister :
    ∀ p ∈ ([(0x00#8, .cmd), (0x04#8, .status), (0x50#8, .reserved), (0x7C#8, .reserved), (0x80#8, .tile 0),
        (0xBC#8, .tile 15), (0xC0#8, .pix 0), (0xFC#8, .pix 15)] : List (BitVec 8 × Reg)),
      (facing running [.read p.1]).inputs = .read p.1 :: [] ∧ Reg.ofOffset p.1 = some p.2 := by
  intro p hp
  refine ⟨rfl, ?_⟩
  revert p
  decide
/-- A write to a register of every kind, of a halted unit. -/
theorem witness_HostWriteThenRead :
    ∀ p ∈ ([(0x04#8, .status), (0x08#8, .cfg), (0x10#8, .ksel), (0x14#8, .src), (0x38#8, .blkLo),
        (0x3C#8, .blkHi), (0x40#8, .pk0), (0x44#8, .pk1), (0x50#8, .reserved), (0x80#8, .tile 0),
        (0xBC#8, .tile 15), (0xFC#8, .pix 15)] : List (BitVec 8 × Reg)),
      (facing haltedUnit [.write p.1 0xFFFFFFFF#32]).inputs = .write p.1 0xFFFFFFFF#32 :: [] ∧
      Reg.ofOffset p.1 = some p.2 ∧ p.2 ≠ .cmd ∧ (facing haltedUnit [.write p.1 0xFFFFFFFF#32]).busy = false := by
  intro p hp
  refine ⟨rfl, ?_, ?_, rfl⟩ <;> (revert p; decide)
theorem witness_BusyUnitIgnoresWrites :
    (facing running [.write 0x00#8 0x0000000F#32]).busy = true ∧ (0x00#8).toNat % 4 = 0 ∧
    (facing running [.write 0x00#8 0x0000000F#32]).inputs = .write 0x00#8 0x0000000F#32 :: [] ∧
    (facing running [.launch 0x00000005#32]).inputs = .launch 0x00000005#32 :: [] := ⟨rfl, by decide, rfl, rfl⟩
theorem witness_UnalignedHostAccessIsRefused :
    (0x81#8).toNat % 4 ≠ 0 ∧
    (facing State.reset [.write 0x81#8 0#32]).inputs = .write 0x81#8 0#32 :: [] ∧
    (facing State.reset [.read 0x81#8]).inputs = .read 0x81#8 :: [] := ⟨by decide, rfl, rfl⟩
theorem witness_RaiseRecordsOnlyTheCode : Err.bus ≠ .none := by decide
/-- The five clauses of the life of a command. -/
theorem witness_CommandWriteFollowsLifecycle :
    ((facing running [.write 0x00#8 0x0000000F#32]).inputs = .write 0x00#8 0x0000000F#32 :: [] ∧
      (facing running [.write 0x00#8 0x0000000F#32]).busy = true) ∧
    (haltedUnit.busy = false ∧ haltedUnit.ecode ≠ .none) ∧
    ((0x0000001F#32 : Word) ≠ 0x0000000F#32 ∧ ∀ i, decodeCommand 0x0000001F#32 ≠ .ok i) ∧
    (State.reset.busy = false ∧ State.reset.ecode = .none ∧ decodeCommand 0x00000005#32 = .ok .process) :=
  ⟨⟨rfl, rfl⟩, ⟨rfl, by decide⟩, ⟨by decide, fun i h => by cases h⟩, ⟨rfl, rfl, rfl⟩⟩
theorem witness_CommandsEndIdle : ∃ t, exec .start running = .next t := ⟨_, rfl⟩
/-- A command of each line of R139, one that raises and one that does not. -/
theorem witness_ErrorsPerCommand :
    State.reset.ecode = .none ∧ (∃ t, exec .select State.reset = .next t) ∧
    (∃ t, exec .start State.reset = .next t) ∧ (∃ t, exec .gather State.reset = .next t) ∧
    (∃ t, exec .store State.reset = .next t) ∧ ∃ t, exec .pack (packing 3#9 0#32 0#32 0#32) = .next t :=
  ⟨rfl, ⟨_, rfl⟩, ⟨_, rfl⟩, ⟨_, rfl⟩, ⟨_, rfl⟩, ⟨_, rfl⟩⟩
/-- Every command has a next state, whose frame the statement gives. -/
theorem witness_CommandsChangeOnlyWhatIsListed :
    (∃ same : State → Prop, ∀ u, same u ↔
      u = { State.reset with busy := u.busy, ecode := u.ecode, todo := u.todo }) ∧
    (∀ i ∈ [Instr.nop, .select, .start, .gather, .encode, .store, .process, .load, .decode, .pack, .sreset],
      ∃ t, exec i State.reset = .next t) ∧
    ∃ t, exec (decodeBlock 0#64) State.reset = .next t := by
  refine ⟨⟨_, fun _ => Iff.rfl⟩, fun i hi => ?_, ⟨_, rfl⟩⟩
  simp only [List.mem_cons, List.not_mem_nil, or_false] at hi
  rcases hi with rfl | rfl | rfl | rfl | rfl | rfl | rfl | rfl | rfl | rfl | rfl <;> exact ⟨_, rfl⟩

/-- A command, and DECODE with a block word in `BLK`. -/
theorem witness_StepRunsDecodedInstruction :
    ((facing State.reset [.write 0x00#8 0x00000004#32]).Ready ∧
      (facing State.reset [.write 0x00#8 0x00000004#32]).inputs = .write 0x00#8 0x00000004#32 :: [] ∧
      decode .command (bytes4 0x00000004#32) = .ok (.store, [])) ∧
    ((facing (holding 0x00000000028080F1#64) [.write 0x00#8 0x00000007#32]).Ready ∧
      (facing (holding 0x00000000028080F1#64) [.write 0x00#8 0x00000007#32]).inputs =
        .write 0x00#8 0x00000007#32 :: [] ∧
      decode .block (bytes8 0x00000000028080F1#64) =
        .ok (.blockDiff ⟨false, 0#3, 0#3, 30#5, 16#5, 16#5, 1#3, 0#3, 0#3, 0#16, 0#16⟩, [])) :=
  ⟨⟨⟨⟨rfl, rfl⟩, rfl⟩, rfl, rfl⟩, ⟨⟨⟨rfl, rfl⟩, rfl⟩, rfl, rfl⟩⟩
theorem witness_FetchWordRunsTableInstruction :
    decodeTableWord 32 9 = some .start ∧
    decodeTableWord 64 0x00000000F2808002 = some (.blockT ⟨30#5, 2#3, 0#32, 0x202000#22, false⟩) := by decide
/-- A command, and a block word of each class that has a check. -/
theorem witness_DecodeOfEncodeIsIdentity :
    Instr.wellFormed .process = true ∧
    Instr.wellFormed (.blockDiff ⟨true, 7#3, 0#3, 30#5, 0#5, 31#5, 1#3, 3#3, 7#3, 1#16, 2#16⟩) = true ∧
    Instr.wellFormed (.blockT ⟨30#5, 2#3, 0#32, 0x202000#22, false⟩) = true ∧
    Instr.wellFormed (.blockH ⟨16#5, 0#3, 1#5, 6#3, 0#32, 0x2000#14, false⟩) = true ∧
    Instr.wellFormed
      (.blockPlanar ⟨51#6, 34#7, 17#6, 17#6, 85#7, 42#6, 8#6, 51#7, 12#6, true, true, 0#3, true⟩) = true := by
  decide
theorem witness_EncodeOfDecodeIsIdentity :
    decode .command [0x05#8, 0#8, 0#8, 0#8, 0xAA#8] = .ok (.process, [0xAA#8]) ∧
    decode .block [0xF2#8, 0x80#8, 0x80#8, 0x02#8, 0#8, 0#8, 0#8, 0#8] =
      .ok (.blockT ⟨30#5, 2#3, 0#32, 0x202000#22, false⟩, []) := ⟨rfl, rfl⟩
theorem witness_DecodewRunsDecode :
    (facing State.reset (ScriptLine.decodeW 0x00000000028080F1#64).events).Ready ∧
    (facing State.reset (ScriptLine.decodeW 0x00000000028080F1#64).events).inputs =
      (ScriptLine.decodeW 0x00000000028080F1#64).events ∧
    ∃ t, exec .decode { facing State.reset (ScriptLine.decodeW 0x00000000028080F1#64).events with
      blk := 0x00000000028080F1#64, inputs := [] } = .next t := ⟨⟨⟨rfl, rfl⟩, rfl⟩, rfl, ⟨_, rfl⟩⟩
/-- A byte just below the word and the byte just above it are outside it. -/
theorem witness_BlockWordAccessIsLittleEndian :
    Memory.wf [(0x1FFF, 1#8), (0x2003, 2#8), (0x2008, 3#8)] = true ∧
    ¬ inBytes 0x2000#32 8 0x1FFF ∧ ¬ inBytes 0x2000#32 8 0x2008 :=
  ⟨by decide, by unfold inBytes; decide, by unfold inBytes; decide⟩
/-- Both ends of the address space, a region one byte short, a region whose 8-byte accesses are barred, and two
regions that meet inside the access, for 4 and for 8 bytes. -/
theorem witness_AdmissionIsBoundAndMapped :
    (admitted resetParams 0xFFFFFFFC#32 4 = true ∧ admitted resetParams 0xFFFFFFFD#32 4 = false ∧
      admitted resetParams 0xFFFFFFF8#32 8 = true ∧ admitted resetParams 0xFFFFFFF9#32 8 = false) ∧
    (admitted { resetParams with regions := [⟨0x1000, 3⟩] } 0x1000#32 4 = false ∧
      admitted { resetParams with regions := [⟨0x1000, 4⟩] } 0x1000#32 4 = true ∧
      admitted { resetParams with regions := [⟨0x1000, 7⟩] } 0x1000#32 8 = false ∧
      admitted { resetParams with regions := [⟨0x1000, 4⟩, ⟨0x1004, 4⟩] } 0x1000#32 8 = true) ∧
    admitted { resetParams with bars := [⟨0x1000, 8, 8⟩] } 0x1000#32 8 = false ∧
    admitted { resetParams with bars := [⟨0x1000, 8, 8⟩] } 0x1000#32 4 = true := by decide
/-- A predicate the second clause is about: all bytes mapped, no access of eight. -/
theorem witness_AdmissionIsBoundAndMapped_predicate :
    ∃ M : Nat → Nat → Bool, (∀ a n i, M a n = true → i < n → M (a + i) 1 = true) ∧
      M 0x1000 4 = true ∧ M 0x1000 8 = false :=
  ⟨fun _ n => decide (n ≠ 8), fun _ _ _ _ _ => rfl, rfl, rfl⟩
/-- A halted unit, a busy one, and a step that changes the parameters. -/
theorem witness_ParametersChangeOnlyByRemap :
    ((facing haltedUnit [.remap [⟨0, 16⟩] []]).inputs = .remap [⟨0, 16⟩] [] :: [] ∧
      (facing haltedUnit [.remap [⟨0, 16⟩] []]).busy = false) ∧
    ((facing running [.remap [⟨0, 16⟩] []]).inputs = .remap [⟨0, 16⟩] [] :: [] ∧
      (facing running [.remap [⟨0, 16⟩] []]).busy = true) ∧
    ∃ t, step (facing haltedUnit [.remap [⟨0, 16⟩] []]) = .next t ∧ t.params ≠ haltedUnit.params :=
  ⟨⟨rfl, rfl⟩, ⟨rfl, rfl⟩, ⟨_, rfl, by decide⟩⟩
/-- Two bytes that fill the address space to its top and two that reach past it; a word of another unit that
is aligned and admitted at the top, one that is misaligned, one that is not admitted. -/
theorem witness_StoresOfOtherMastersAreWhole :
    Memory.wf ({ facing running [.busWrite 0xFFFFFFFE#32 [7#8, 0#8]] with
      mem := [(0xFFFFFFFD, 1#8), (0xFFFFFFFF, 2#8)] }).mem = true ∧
    ((facing running [.busWrite 0xFFFFFFFE#32 [7#8, 0#8]]).inputs = .busWrite 0xFFFFFFFE#32 [7#8, 0#8] :: [] ∧
      (0xFFFFFFFE#32).toNat + [7#8, 0#8].length ≤ 2 ^ 32) ∧
    ((facing running [.busWrite 0xFFFFFFFF#32 [7#8, 0#8]]).inputs = .busWrite 0xFFFFFFFF#32 [7#8, 0#8] :: [] ∧
      2 ^ 32 < (0xFFFFFFFF#32).toNat + [7#8, 0#8].length) ∧
    ((facing running [.unitStore 0xFFFFFFF8#32 5#64]).inputs = .unitStore 0xFFFFFFF8#32 5#64 :: [] ∧
      (0xFFFFFFF8#32).toNat % 8 = 0 ∧ admitted running.params 0xFFFFFFF8#32 8 = true) ∧
    (0x2004#32).toNat % 8 ≠ 0 ∧ admitted (onlyMapped running [⟨0x2000, 7⟩]).params 0x2000#32 8 = false :=
  ⟨by decide, ⟨rfl, by decide⟩, ⟨rfl, by decide⟩, ⟨rfl, by decide, by decide⟩, by decide, by decide⟩
/-- Another unit's word lands in the middle of a LOAD and of a STORE, which then run to their end. -/
theorem witness_RacingWordAccessesAreWhole :
    (placed 4#32 0#32 0x2000#32 0#32).Ready ∧ Memory.wf (placed 4#32 0#32 0x2000#32 0#32).mem = true ∧
    (0x2000#32).toNat % 8 = 0 ∧ admitted (placed 4#32 0#32 0x2000#32 0#32).params 0x2000#32 8 = true ∧
    ∀ c ∈ [0x00000006#32, 0x00000004#32], ∃ u v,
      hostEvent (.launch c) (placed 4#32 0#32 0x2000#32 0#32) = .next u ∧
      hostEvent (.unitStore 0x2000#32 0x0102030405060708#64) (ticks 1 u) = .next v ∧ (ticks 8 v).busy = false := by
  refine ⟨⟨⟨rfl, rfl⟩, rfl⟩, by decide, by decide, by decide, fun c hc => ?_⟩
  simp only [List.mem_cons, List.not_mem_nil, or_false] at hc
  rcases hc with rfl | rfl <;> exact ⟨_, _, rfl, rfl, by decide⟩

/-- A busy unit in the middle of a START, and the line it does next. -/
def startingUnit : State :=
  { facing (ranged 0x1000#32 8#32 0x2000#32 3#32 2#32) [.tick] with
    busy := true, todo := [.checkDst, .initCurDst, .done], mem := [(0x1000, 1#8)] }
theorem witness_StepKeepsInvariant : startingUnit.Inv ∧ ∃ t, step startingUnit = .next t := by
  refine ⟨⟨by decide, by decide, by decide, by decide, by decide, by decide, by decide, by decide, ?_, ?_⟩,
    ⟨_, rfl⟩⟩
  · intro k
    exact Or.inl (by revert k; decide)
  · intro k v h
    simp [startingUnit] at h
theorem witness_LinesOfACommandReachItsMeaning :
    (ranged 0x1000#32 8#32 0x2000#32 0#32 2#32).Idle ∧
    ∃ t, hostEvent (.write 0x00#8 0x00000005#32) (ranged 0x1000#32 8#32 0x2000#32 0#32 2#32) = .next t :=
  ⟨⟨rfl, rfl⟩, ⟨_, rfl⟩⟩
theorem witness_ResetDuringProcessKeepsWholeWords :
    (ranged 0x1000#32 8#32 0x2000#32 0#32 2#32).Ready ∧
    ∃ u, hostEvent (.launch 0x00000005#32) (ranged 0x1000#32 8#32 0x2000#32 0#32 2#32) = .next u :=
  ⟨⟨⟨rfl, rfl⟩, rfl⟩, ⟨_, rfl⟩⟩

end Sys2Proof.Tests
end

section
/-! Admission of a bus access (20_memory.md R32). -/

namespace Sys2Proof.Machine

/-- 20_memory.md R32: the two conditions of admission. -/
theorem admitted_iff {p : Params} {a : Word} {n : Nat} :
    admitted p a n = true ↔ a.toNat + n ≤ 2 ^ 32 ∧ mapped p a.toNat n = true := by
  rw [admitted, Bool.and_eq_true, decide_eq_true_iff]

theorem barred_eq_false_iff {p : Params} {a n : Nat} :
    barred p a n = false ↔ ∀ b ∈ p.bars, ¬ (b.width = n ∧ b.base ≤ a ∧ a < b.base + b.size) := by
  rw [← Bool.not_eq_true, barred_iff]
  simp only [not_exists, not_and]

theorem mapped_iff_regions_bars {p : Params} {a n : Nat} :
    mapped p a n = true ↔
      (∀ i, i < n → ∃ r ∈ p.regions, r.base ≤ a + i ∧ a + i < r.base + r.size) ∧
      ∀ b ∈ p.bars, ¬ (b.width = n ∧ b.base ≤ a ∧ a < b.base + b.size) := by
  simp only [mapped_iff, mappedByte_iff, barred_eq_false_iff]

/-- Settles O53. Admission is its bound and `Mapped`; for a given predicate, the regions and bars are its own
mapped bytes and unmapped accesses inside the address space, where the bound of R32 keeps every access. -/
theorem admissionIsBoundAndMapped : Obligations.AdmissionIsBoundAndMapped := by
  constructor
  · intro p a n
    rw [admitted_iff, mapped_iff_regions_bars]
  · intro M hM
    refine ⟨regionsOf M (2 ^ 32), barsOf M (2 ^ 32), fun p hr hb a n => ?_⟩
    rw [admitted_iff]
    refine and_congr_right fun hBound => ?_
    rw [mapped_of_predicate hM hr hb hBound]

end Sys2Proof.Machine
end

section
/-! The whole command by its lines: what a command does in one step, its lines do one after another
(44_control.md R127 steps 4 to 6). -/

namespace Sys2Proof.Machine

/-- Lines that simulate a command's pseudocode reach, with `done` after them, the state the command ends in. -/
theorem SimulatedAt.ticks_runCommand {body : State → Flow} {lines : List Act} {s t : State}
    (h : SimulatedAt (fun _ => True) body lines (accept s)) (e : runCommand body s = .next t) :
    ∃ n, ticks n ((accept s).withTodo (lines ++ [.done])) = t := by
  have hl := h [.done]
  rcases runCommand_cases e with ⟨u, hu, rfl⟩ | hu <;> rw [hu] at hl
  · exact (hl.1.trans (.step trivial (.refl _))).exists_ticks
  · exact hl.1.exists_ticks

theorem processLines_simulated (s : State) :
    SimulatedAt (fun _ => True) processBody (commandLines .process) s := by
  refine (startLines_simulated trivial).andThen fun t _ => ?_
  refine .update (f := selectBody) (body := fun s => processLoop s.rem.toNat s) trivial trivial
    (fun _ => rfl) ?_
  exact processLoop_simulated (selectBody t).rem.toNat rfl fun _ _ _ => trivial

/-- A command that runs in one step also runs line by line. -/
theorem exec_ticks {v : Word} {i : Instr} {s t : State} (hv : decodeCommand v = .ok i)
    (h : exec i s = .next t) : ∃ n, ticks n ((accept s).withTodo (commandLines i ++ [.done])) = t := by
  have hi := decodeCommand_eq_ok.1 hv
  cases i with
  | nop => exact (simulatedAt_nil trivial).ticks_runCommand h
  | select => exact (simulatedAt_go trivial trivial fun _ => rfl).ticks_runCommand h
  | gather => exact (gatherLines_simulated trivial).ticks_runCommand h
  | encode => exact (encodeLines_simulated trivial).ticks_runCommand h
  | store => exact (storeLines_simulated trivial fun _ => trivial).ticks_runCommand h
  | process => exact (processLines_simulated _).ticks_runCommand h
  | load => exact (loadLines_simulated trivial).ticks_runCommand h
  | decode => exact (decodeLines_simulated trivial).ticks_runCommand h
  | pack => exact (packLines_simulated trivial).ticks_runCommand h
  | start => exact (startLines_simulated trivial).ticks_runCommand h
  | sreset => exact ⟨1, Host.Outcome.next.inj h⟩
  | blockIndiv f => simp [encodeWord] at hi
  | blockDiff f => simp [encodeWord] at hi
  | blockT f => simp [encodeWord] at hi
  | blockH f => simp [encodeWord] at hi
  | blockPlanar f => simp [encodeWord] at hi

end Sys2Proof.Machine
end

section
/-! The invariant of the machine (10_state.md R12, R21; 20_memory.md R33; 60_exceptions.md R134, R135): what it
says of an idle unit, of one about to be reset and of one that runs a command, and that every line keeps it. -/

namespace Sys2Proof.Machine

/-! ## The invariant by the unit's phase -/

/-- The part of the invariant that speaks of memory and registers alone. -/
structure State.Sound (s : State) : Prop where
  memory : Memory.wf s.mem = true
  unknown : unknownMode s.mode = true → s.unk = true
  srcCursor : aligned s.curSrc 4 = true
  dstCursor : aligned s.curDst 8 = true
  pixels : ∀ k : Fin 16, pixelShown s.pix[k]

/-- The lines are ones a running command may have left: they end in `done`, set the cursor from checked
values and put only opaque pixels into `PIX`. -/
structure State.Fits (s : State) (l : List Act) : Prop where
  ends : linesEndInDone l = true
  guarded : cursorGuarded (aligned s.src 4) (aligned s.dst 8) l = true
  pixelLines : ∀ (k : Fin 16) (v : Pixel), Act.setPix k v ∈ l → v.extractLsb' 24 8 = 0xFF#8

/-- The lines of SRESET are all that is left to do, halted or not. -/
structure State.Resetting (s : State) : Prop where
  busy : s.busy = true
  todo : s.todo = [.resetAll, .done]

/-- A command runs and has met no error. -/
structure State.Running (s : State) : Prop where
  busy : s.busy = true
  ecode : s.ecode = .none
  fits : s.Fits s.todo

theorem State.Inv.sound {s : State} (h : s.Inv) : s.Sound := { h with }

theorem State.Sound.inv_of_idle {s : State} (h : s.Sound) (hi : s.Idle) : s.Inv :=
  { h with
    idle := fun _ => hi.todo
    running := by simp [hi.busy]
    halted := by simp [hi.busy]
    guarded := by rw [hi.todo]; rfl
    pixelLines := by simp [hi.todo] }

theorem State.Sound.inv_of_resetting {s : State} (h : s.Sound) (hr : s.Resetting) : s.Inv :=
  { h with
    idle := by simp [hr.busy]
    running := fun _ => by rw [hr.todo]; rfl
    halted := fun _ _ => hr.todo
    guarded := by rw [hr.todo]; rfl
    pixelLines := by simp [hr.todo] }

theorem State.Sound.inv_of_running {s : State} (h : s.Sound) (hr : s.Running) : s.Inv :=
  { h, hr.fits with
    idle := by simp [hr.busy]
    running := fun _ => hr.fits.ends
    halted := fun he => absurd hr.ecode he }

/-- A unit that meets the invariant is idle, about to be reset, or runs a command. -/
theorem State.Inv.phase {s : State} (h : s.Inv) : s.Idle ∨ s.Resetting ∨ s.Running := by
  cases hb : s.busy with
  | false => exact .inl ⟨hb, h.idle hb⟩
  | true =>
    by_cases he : s.ecode = .none
    · exact .inr (.inr ⟨hb, he, h.running hb, h.guarded, h.pixelLines⟩)
    · exact .inr (.inl ⟨hb, h.halted he hb⟩)

theorem raise_inv {s : State} (h : s.Sound) (e : Err) : (raise e s).Inv :=
  State.Sound.inv_of_idle { h with } (raise_idle e s)

theorem complete_inv {s : State} (h : s.Sound) : (complete s).Inv :=
  State.Sound.inv_of_idle { h with } (complete_idle s)

/-- Reset establishes everything but the canonical form of memory, which it does not touch. -/
theorem resetUnit_inv {s : State} (h : Memory.wf s.mem = true) : s.resetUnit.Inv :=
  State.Sound.inv_of_idle
    { memory := h
      unknown := by simp [unknownMode]
      srcCursor := rfl
      dstCursor := rfl
      pixels := fun k => .inl (by simp) }
    ⟨rfl, rfl⟩

/-! ## Lines left to do -/

theorem linesEndInDone_cons {a : Act} (ha : a ≠ .done) (l : List Act) :
    linesEndInDone (a :: l) = linesEndInDone l := by
  cases l <;> simp [linesEndInDone, ha]

/-- The rest of the lines fits when it is guarded, which depends on what the first line has checked. -/
theorem State.Fits.rest {s : State} {a : Act} {l : List Act} (h : s.Fits (a :: l)) (ha : a ≠ .done)
    (hg : cursorGuarded (aligned s.src 4) (aligned s.dst 8) l = true) : s.Fits l where
  ends := linesEndInDone_cons ha l ▸ h.ends
  guarded := hg
  pixelLines := fun k v hm => h.pixelLines k v (List.mem_cons_of_mem a hm)

/-- A line that can stand in front of any others: it neither ends the command, nor checks or sets the cursor
from `SRC` and `DST`, nor puts a pixel that is not opaque into `PIX`. -/
def Act.free : Act → Bool
  | .done | .checkSrc | .checkDst | .initCurSrc | .initCurDst => false
  | .setPix _ v => decide (v.extractLsb' 24 8 = 0xFF#8)
  | _ => true

theorem cursorGuarded_cons {a : Act} (ha : a.free = true) (srcOk dstOk : Bool) (l : List Act) :
    cursorGuarded srcOk dstOk (a :: l) = cursorGuarded srcOk dstOk l := by
  cases a <;> simp_all [Act.free, cursorGuarded]

theorem State.Fits.cons {s : State} {a : Act} {l : List Act} (h : s.Fits l) (ha : a.free = true) :
    s.Fits (a :: l) where
  ends := by
    rw [linesEndInDone_cons (by rintro rfl; simp [Act.free] at ha)]
    exact h.ends
  guarded := (cursorGuarded_cons ha _ _ l).trans h.guarded
  pixelLines := by
    intro k v hm
    rcases List.mem_cons.1 hm with rfl | hm
    · simpa [Act.free] using ha
    · exact h.pixelLines k v hm

theorem State.Fits.append {s : State} {as l : List Act} (h : s.Fits l) (ha : ∀ a ∈ as, a.free = true) :
    s.Fits (as ++ l) := by
  induction as with
  | nil => exact h
  | cons a as ih =>
    rw [List.forall_mem_cons] at ha
    exact (ih ha.2).cons ha.1

theorem tileLines_free (t : Tile) : ∀ a ∈ tileLines t, a.free = true := by
  simp [tileLines, Act.free]

theorem blkLines_free (d : BlockWord) : ∀ a ∈ blkLines d, a.free = true := by
  simp [blkLines, Act.free]

theorem pixLines_free (m : Mode) {px : Tile} (h : ∀ k : Fin 16, px[k].extractLsb' 24 8 = 0xFF#8) :
    ∀ a ∈ pixLines m px, a.free = true := by
  simpa [pixLines, Act.free, or_imp, forall_and] using h

theorem blockLines_free : ∀ a ∈ blockLines, a.free = true := by decide

/-- Every command starts with lines that fit, whatever `SRC` and `DST` hold. -/
theorem commandLines_fits (s : State) (i : Instr) : s.Fits (commandLines i ++ [.done]) where
  ends := by cases i <;> rfl
  guarded := by cases i <;> rfl
  pixelLines := by
    cases i <;>
      simp [commandLines, startLines, gatherLines, encodeLines, storeLines, loadLines]

/-! ## Every line keeps the invariant -/

/-- An update that leaves the lines and what they were checked against leaves the command running. -/
theorem State.Sound.inv_of_update {s t : State} (ht : t.Sound) (h : s.Running)
    (busy : t.busy = s.busy := by rfl) (ecode : t.ecode = s.ecode := by rfl)
    (todo : t.todo = s.todo := by rfl) (src : t.src = s.src := by rfl) (dst : t.dst = s.dst := by rfl) :
    t.Inv := by
  obtain ⟨ends, guarded, pixelLines⟩ := h.fits
  refine ht.inv_of_running ⟨busy.trans h.busy, ecode.trans h.ecode, ?_⟩
  rw [todo]
  exact ⟨ends, by rw [src, dst]; exact guarded, pixelLines⟩

theorem pushLines_inv {s : State} {l : List Act} (hs : s.Sound) (hr : s.Running)
    (hl : ∀ a ∈ l, a.free = true) : (pushLines l s).Inv :=
  State.Sound.inv_of_running { hs with }
    { busy := hr.busy
      ecode := hr.ecode
      fits := { hr.fits.append hl with } }

theorem require_inv {c : Bool} {e : Err} {s : State} (hs : s.Sound) (h : c = true → s.Inv) :
    (require c e s).state.Inv := by
  cases c with
  | false => exact raise_inv hs e
  | true => exact h rfl

theorem require_andThen_inv {c : Bool} {e : Err} {s : State} {g : State → Flow} (hs : s.Sound)
    (h : c = true → (g s).state.Inv) : ((require c e s).andThen g).state.Inv := by
  cases c with
  | false => exact raise_inv hs e
  | true => exact h rfl

theorem aligned_add {a b : Word} (ha : aligned a 4 = true) (hb : aligned b 4 = true) :
    aligned (a + b) 4 = true := by
  rw [aligned_iff] at *
  rw [BitVec.toNat_add]
  omega

theorem aligned_rowSkip (w : Word) : aligned (12#32 * w) 4 = true := by
  rw [aligned_iff, BitVec.toNat_mul]
  simp only [BitVec.toNat_ofNat]
  omega

/-- A byte address a whole number of words after an aligned one is aligned, the wrap at `2^32` included. -/
theorem aligned_add_words {a : Word} (ha : aligned a 8 = true) (n : Word) :
    aligned (a + 8#32 * n) 8 = true := by
  rw [aligned_iff] at *
  rw [BitVec.toNat_add, BitVec.toNat_mul]
  simp only [BitVec.toNat_ofNat]
  omega

theorem pixelShown_set {t : Tile} (h : ∀ j : Fin 16, pixelShown t[j]) (k : Fin 16) {v : Pixel}
    (hv : v.extractLsb' 24 8 = 0xFF#8) (j : Fin 16) : pixelShown (t.set k v)[j] := by
  by_cases hj : k.val = j.val
  · exact .inr (by simpa [Vector.getElem_set, hj] using hv)
  · simpa [Vector.getElem_set, hj] using h j

theorem setModeFlags_unknown (m : Mode) (s : State) (h : unknownMode (setModeFlags m s).mode = true) :
    (setModeFlags m s).unk = true := by
  simp_all

/-- A running command's next line keeps the invariant: it raises, ends the command, adds lines, or updates
registers or memory within what the invariant allows. -/
theorem runAct_inv {a : Act} {s : State} (hs : s.Sound) (hb : s.busy = true) (he : s.ecode = .none)
    (hf : s.Fits (a :: s.todo)) : (runAct a s).Inv := by
  by_cases ha : a = .done
  · subst ha
    exact complete_inv hs
  have running (hg : cursorGuarded (aligned s.src 4) (aligned s.dst 8) s.todo = true) : s.Running :=
    ⟨hb, he, hf.rest ha hg⟩
  have guarded := hf.guarded
  cases a with
  | done => exact absurd rfl ha
  | resetAll => exact resetUnit_inv hs.memory
  | checkWidth | checkCurSrc | checkCurDst | admitTile =>
    exact require_inv hs fun _ => hs.inv_of_running (running guarded)
  | checkSrc =>
    refine require_inv hs fun h => hs.inv_of_running (running ?_)
    rw [h]
    exact guarded
  | checkDst =>
    refine require_inv hs fun h => hs.inv_of_running (running ?_)
    rw [h]
    exact guarded
  | initCurSrc =>
    obtain ⟨hsrc, hg⟩ := Bool.and_eq_true_iff.1 guarded
    exact State.Sound.inv_of_update { hs with srcCursor := hsrc } (running hg)
  | initCurDst =>
    obtain ⟨hdst, hg⟩ := Bool.and_eq_true_iff.1 guarded
    exact State.Sound.inv_of_update { hs with dstCursor := aligned_add_words hdst _ } (running hg)
  | stepCurSrc =>
    exact State.Sound.inv_of_update { hs with srcCursor := aligned_add hs.srcCursor rfl } (running guarded)
  | skipRows =>
    exact State.Sound.inv_of_update { hs with srcCursor := aligned_add hs.srcCursor (aligned_rowSkip _) }
      (running guarded)
  | stepCurDst =>
    exact State.Sound.inv_of_update { hs with dstCursor := aligned_add_words hs.dstCursor 1#32 }
      (running guarded)
  | clearTcnt | initRem | select | readPixel _ | stepTcnt | setTile _ _ | setBlkLo _ | setBlkHi _ | stepRem =>
    exact State.Sound.inv_of_update { hs with } (running guarded)
  | setPix k v =>
    exact State.Sound.inv_of_update
      { hs with pixels := pixelShown_set hs.pixels k (hf.pixelLines k v (by simp)) } (running guarded)
  | setMode m =>
    exact State.Sound.inv_of_update { hs with unknown := setModeFlags_unknown m s } (running guarded)
  | memStore =>
    refine require_andThen_inv hs fun _ => ?_
    exact State.Sound.inv_of_update { hs with memory := wf_memWrite8 hs.memory _ _ } (running guarded)
  | memLoad | packBlk =>
    exact require_andThen_inv hs fun _ => pushLines_inv hs (running guarded) (blkLines_free _)
  | kernel =>
    refine pushLines_inv hs (running guarded) fun a h => ?_
    exact (List.mem_append.1 h).elim (tileLines_free _ a) (blkLines_free _ a)
  | decodeBlk => exact pushLines_inv hs (running guarded) (pixLines_free _ (blockPixels_alpha _ _))
  | wrapRow =>
    rw [runAct]
    split_ifs
    · exact pushLines_inv hs (running guarded) (by decide)
    · exact hs.inv_of_running (running guarded)
  | loop =>
    rw [runAct]
    split_ifs
    · exact hs.inv_of_running (running guarded)
    · exact pushLines_inv hs (running guarded) blockLines_free

theorem tick_inv {s : State} (h : s.Inv) : (tick s).Inv := by
  rcases h.phase with hi | hr | ⟨hb, he, hf⟩
  · rwa [tick_nil hi.todo]
  · rw [tick, hr.todo]
    exact resetUnit_inv h.memory
  · unfold tick
    split
    · exact h
    next a rest ht =>
      rw [ht] at hf
      exact runAct_inv { h with } hb he { hf with }

theorem ticks_inv {s : State} (h : s.Inv) (n : Nat) : (ticks n s).Inv := by
  induction n generalizing s with
  | zero => exact h
  | succ n ih => exact ih (tick_inv h)

/-! ## Every event keeps the invariant -/

/-- A command begins in a unit that is not halted, or is SRESET. -/
theorem begun_inv {s : State} {i : Instr} (hs : s.Sound) (hi : s.ecode = .none ∨ i = .sreset) :
    ((accept s).withTodo (commandLines i ++ [.done])).Inv := by
  rcases hi with he | rfl
  · exact State.Sound.inv_of_running { hs with } ⟨rfl, he, { commandLines_fits s i with }⟩
  · exact State.Sound.inv_of_resetting { hs with } ⟨rfl, rfl⟩

/-- A write of `CMD` keeps the invariant when the command it starts does. -/
theorem commandWrite_inv {run : Instr → State → Host.Outcome State Fault Refusal} {v : Word} {s t : State}
    (hs : s.Inv)
    (hrun : ∀ v i, decodeCommand v = .ok i → s.ecode = .none ∨ i = .sreset → run i s = .next t → t.Inv)
    (h : commandWrite run v s = .next t) : t.Inv := by
  rcases commandWrite_cases run v s with e | ⟨-, -, e⟩ | ⟨-, -, e⟩ | ⟨i, -, he, hv, e⟩ <;> rw [e] at h
  · exact Host.Outcome.next.inj h ▸ hs
  · exact hrun 0x0000000F#32 .sreset rfl (.inr rfl) h
  · exact Host.Outcome.next.inj h ▸ raise_inv hs.sound .cmd
  · exact hrun v i hv (.inl he) h

theorem beginCommand_inv {i : Instr} {s t : State} (hs : s.Inv) (hi : s.ecode = .none ∨ i = .sreset)
    (h : beginCommand i s = .next t) : t.Inv :=
  Host.Outcome.next.inj h ▸ begun_inv hs.sound hi

/-- A command taken in one step keeps the invariant because its lines do. -/
theorem exec_inv {v : Word} {i : Instr} {s t : State} (hs : s.Inv) (hv : decodeCommand v = .ok i)
    (hi : s.ecode = .none ∨ i = .sreset) (h : exec i s = .next t) : t.Inv := by
  obtain ⟨n, rfl⟩ := exec_ticks hv h
  exact ticks_inv (begun_inv hs.sound hi) n

theorem writeReg_sound {s : State} (h : s.Sound) (v : Word) (r : Reg) : (writeReg v s r).Sound := by
  cases r <;> exact { h with }

theorem writeReg_busy (v : Word) (s : State) (r : Reg) : (writeReg v s r).busy = s.busy := by
  cases r <;> rfl

theorem writeReg_inv {s : State} (h : s.Inv) (hb : s.busy = false) (v : Word) (r : Reg) :
    (writeReg v s r).Inv := by
  obtain ⟨-, -, htodo, -, -⟩ := writeReg_outside v s r
  exact (writeReg_sound h.sound v r).inv_of_idle
    ⟨(writeReg_busy v s r).trans hb, htodo.trans (h.idle hb)⟩

theorem hostWrite_inv {off : BitVec 8} {v : Word} {s t : State} (hs : s.Inv)
    (h : hostWrite off v s = .next t) : t.Inv := by
  rcases hr : Reg.ofOffset off with _ | r
  · simp [hostWrite, hr] at h
  by_cases hc : r = .cmd
  · subst hc
    rw [hostWrite, hr] at h
    exact commandWrite_inv hs (fun _ _ => exec_inv hs) h
  · rw [hostWrite_register hr hc] at h
    rw [← Host.Outcome.next.inj h]
    cases hb : s.busy with
    | true => exact hs
    | false => exact writeReg_inv hs hb v r

theorem hostRead_inv {off : BitVec 8} {s t : State} (hs : s.Inv) (h : hostRead off s = .next t) :
    t.Inv := by
  rcases hr : Reg.ofOffset off with _ | r
  · simp [hostRead, hr] at h
  · rw [hostRead_register hr] at h
    exact Host.Outcome.next.inj h ▸ { hs with }

theorem busWrite_inv {a : Word} {bytes : List Byte} {s t : State} (hs : s.Inv)
    (h : busWrite a bytes s = .next t) : t.Inv := by
  rw [busWrite] at h
  split_ifs at h
  exact Host.Outcome.next.inj h ▸ { hs with memory := wf_writeBytes hs.memory _ _ }

theorem unitStore_inv {s : State} (hs : s.Inv) (a : Word) (d : BlockWord) : (unitStore a d s).Inv := by
  rw [unitStore_frame]
  exact { hs with memory := wf_unitStore hs.memory a d }

theorem remap_inv {regions : List Region} {bars : List Bar} {s t : State} (hs : s.Inv)
    (h : remap regions bars s = .next t) : t.Inv := by
  rw [remap] at h
  split_ifs at h
  exact Host.Outcome.next.inj h ▸ { hs with }

theorem hostEvent_inv {e : HostEvent} {s t : State} (hs : s.Inv) (h : hostEvent e s = .next t) :
    t.Inv := by
  cases e with
  | write off v => exact hostWrite_inv hs h
  | launch v => exact commandWrite_inv hs (fun _ _ _ => beginCommand_inv hs) h
  | tick => exact Host.Outcome.next.inj h ▸ tick_inv hs
  | read off => exact hostRead_inv hs h
  | hwReset => exact Host.Outcome.next.inj h ▸ resetUnit_inv hs.memory
  | busWrite a bytes => exact busWrite_inv hs h
  | unitStore a d => exact Host.Outcome.next.inj h ▸ unitStore_inv hs a d
  | remap regions bars => exact remap_inv hs h

/-- Settles O57. The next event keeps the invariant: of what a command does it is enough to follow the lines,
since a command taken in one step ends where its lines end. -/
theorem stepKeepsInvariant : Obligations.StepKeepsInvariant := by
  intro s t hs h
  rcases hin : s.inputs with _ | ⟨e, rest⟩
  · rw [step_nil hin] at h
    exact Host.Outcome.next.inj h ▸ hs
  · rw [step_cons hin] at h
    have hs' : ({ s with inputs := rest } : State).Inv := { hs with }
    exact hostEvent_inv hs' h

/-- Settles O58. The state after reset is a reset of itself. -/
theorem resetSatisfiesInvariant : Obligations.ResetSatisfiesInvariant :=
  resetUnit_inv (s := State.reset) rfl

end Sys2Proof.Machine
end

section
/-! The register window, the host's accesses and the platform's parameters (10_state.md R10 to R25, 44_control.md
R127). -/

namespace Sys2Proof.Machine

/-! ## Offsets of the window (10_state.md R10) -/

theorem ofOffset_aligned {off : BitVec 8} (h : off.toNat % 4 = 0) :
    Reg.ofOffset off = some (Reg.ofIndex (off.toNat / 4)) := by
  rw [Reg.ofOffset, if_pos h]

theorem ofOffset_unaligned {off : BitVec 8} (h : off.toNat % 4 ≠ 0) : Reg.ofOffset off = none := by
  rw [Reg.ofOffset, if_neg h]

theorem ofIndex_reserved {n : Nat} (h : 20 ≤ n) (h' : n < 32) : Reg.ofIndex n = .reserved := by
  interval_cases n <;> rfl

theorem ofOffset_tile (k : Fin 16) : Reg.ofOffset (BitVec.ofNat 8 (0x80 + 4 * k.val)) = some (.tile k) := by
  revert k; decide

theorem ofOffset_pix (k : Fin 16) : Reg.ofOffset (BitVec.ofNat 8 (0xC0 + 4 * k.val)) = some (.pix k) := by
  revert k; decide

/-- Settles O34. The two banks and the reserved window, and the twenty named offsets evaluated. -/
theorem registerMapIsTheSpecs : Obligations.RegisterMapIsTheSpecs := by
  refine ⟨by decide, fun off hlow hhigh hal => ?_, fun k => ⟨ofOffset_tile k, ofOffset_pix k⟩⟩
  rw [ofOffset_aligned hal, ofIndex_reserved (by omega) (by omega)]

/-! ## `STATUS` (10_state.md R12) -/

theorem errCode_inj {e f : Err} : errCode e = errCode f ↔ e = f := by
  cases e <;> cases f <;> decide

theorem modeCode_inj {m n : Mode} : modeCode m = modeCode n ↔ m = n := by
  cases m <;> cases n <;> decide

/-- Settles O35. Each field of the status word is read at its bits; the codes are injective. -/
theorem statusFieldsReadAsLaidOut : Obligations.StatusFieldsReadAsLaidOut := by
  rintro s v rfl
  rw [readReg, statusWord_ecode, statusWord_mode]
  exact ⟨statusWord_busy s, statusWord_bit1 s,
    by rw [statusWord_halt, halted_iff, ne_eq, ne_eq, errCode_eq_zero],
    statusWord_bit3 s, statusWord_unk s, statusWord_high s,
    errCode_inj (f := .none).symm, errCode_inj (f := .cmd).symm, errCode_inj (f := .size).symm,
    errCode_inj (f := .align).symm, errCode_inj (f := .bus).symm, errCode_inj (f := .range).symm,
    modeCode_inj (n := .indiv).symm, modeCode_inj (n := .diff).symm, modeCode_inj (n := .t).symm,
    modeCode_inj (n := .h).symm, modeCode_inj (n := .planar).symm⟩

/-! ## Reset (10_state.md R25) -/

theorem readReg_resetUnit {r : Reg} (h : r ≠ .cap) (s : State) : readReg s.resetUnit r = 0#32 := by
  cases r with
  | cap => exact absurd rfl h
  | status => simp [readReg, statusWord, State.halted, errCode, modeCode]
  | _ => simp [readReg]

theorem exec_sreset (s : State) : exec .sreset s = .next s.resetUnit := rfl

/-- Settles O2. SRESET and the reset input leave the reset of the state. -/
theorem sresetClearsEveryRegister : Obligations.SresetClearsEveryRegister := fun s =>
  ⟨s.resetUnit, exec_sreset s, rfl, ⟨⟨rfl, rfl⟩, rfl⟩, fun _ h => readReg_resetUnit h s, rfl, rfl, rfl, rfl, rfl⟩

/-! ## Host reads and writes (10_state.md R22) -/

/-- What a register reads as does not depend on the events still to come. -/
theorem readReg_withInputs (s : State) (rest : List HostEvent) (r : Reg) :
    readReg { s with inputs := rest } r = readReg s r := rfl

theorem readReg_cap (s : State) : readReg s .cap = if s.params.capAvx2 then 1#32 else 0#32 := by
  rw [readReg]
  cases s.params.capAvx2 <;> rfl

/-- Settles O36. The value is the register's, which each case reads off. -/
theorem hostReadReturnsRegister : Obligations.HostReadReturnsRegister := by
  intro s off r rest hin hr
  refine ⟨readReg s r, ?_, ?_⟩
  · rw [step_cons hin, hostEvent, hostRead_register hr, readReg_withInputs]
  · have hcap := readReg_cap s
    cases r <;> simp_all [readReg]

/-- The registers that store all 32 bits a host writes. -/
theorem readReg_writeReg_same (v : Word) (s : State) {r : Reg}
    (h : r = .src ∨ r = .width ∨ r = .dst ∨ r = .offset ∨ r = .blocks ∨ r = .blkLo ∨ r = .blkHi ∨
      r = .pk1 ∨ r = .pk2 ∨ r = .pk3 ∨ ∃ k, r = .tile k) : readReg (writeReg v s r) r = v := by
  cases r with
  | src | width | dst | offset | blocks | pk1 | pk2 | pk3 => rfl
  | blkLo => exact extract_low_append _ _
  | blkHi => exact extract_high_append _ _
  | tile k => simp [readReg, writeReg]
  | _ => simp at h

theorem writeReg_readOnly (v : Word) (s : State) {r : Reg}
    (h : r = .status ∨ r = .cap ∨ r = .ksel ∨ r = .curSrc ∨ r = .curDst ∨ r = .tcnt ∨ r = .rem ∨
      r = .reserved ∨ ∃ k, r = .pix k) : writeReg v s r = s := by
  rcases h with rfl | rfl | rfl | rfl | rfl | rfl | rfl | rfl | ⟨k, rfl⟩ <;> rfl

/-- Settles O37. The step is the register write, which lands in its own register only. -/
theorem hostWriteThenRead : Obligations.HostWriteThenRead := by
  intro s off v r rest hin hr hcmd hb
  refine ⟨writeReg v { s with inputs := rest } r, ?_, fun r' h => readReg_writeReg_other v _ h, ?_, ?_,
    readReg_writeReg_same v _, writeReg_readOnly v _, writeReg_outside v _ r⟩
  · rw [step_cons hin, hostEvent, hostWrite_register hr hcmd]
    simp [hb]
  · rintro rfl
    exact setWidth_extract_cfg v
  · rintro rfl
    exact setWidth_extract_pk0 v

/-- Settles O38. `CMD` and every other register ignore a write while the unit is busy. -/
theorem busyUnitIgnoresWrites : Obligations.BusyUnitIgnoresWrites := by
  intro s off v rest hb hal hin
  rcases hin with hin | hin <;> rw [step_cons hin, hostEvent]
  · by_cases hr : Reg.ofIndex (off.toNat / 4) = .cmd
    · rw [hostWrite, ofOffset_aligned hal, hr]
      exact commandWrite_busy hb
    · rw [hostWrite_register (ofOffset_aligned hal) hr]
      simp [hb]
  · exact commandWrite_busy hb

/-- Settles O39. No register is at an offset that is not aligned. -/
theorem unalignedHostAccessIsRefused : Obligations.UnalignedHostAccessIsRefused := by
  intro s off v rest hal hin
  rcases hin with hin | hin <;> rw [step_cons hin, hostEvent]
  · rw [hostWrite, ofOffset_unaligned hal]
  · rw [hostRead, ofOffset_unaligned hal]

/-- Settles O42. The write of `CMD`, case by case. -/
theorem commandWriteFollowsLifecycle : Obligations.CommandWriteFollowsLifecycle := by
  rintro s t v rest hin rfl
  rw [step_cons hin, hostEvent_write_cmd]
  refine ⟨fun hb => commandWrite_busy hb, ?_, fun hb he hv => commandWrite_halted hb he hv,
    fun hb he hv => commandWrite_illegal hb he hv, fun i hb he hv => commandWrite_legal hb he hv⟩
  rintro hb he rfl
  exact commandWrite_sreset hb he

/-! ## The parameters (20_memory.md R32, 10_state.md R14) -/

/-- A write of `CMD` keeps the parameters when the command it starts does. -/
theorem commandWrite_params {run : Instr → State → Host.Outcome State Fault Refusal} {v : Word} {s t : State}
    (hrun : ∀ i, run i s = .next t → t.params = s.params) (h : commandWrite run v s = .next t) :
    t.params = s.params := by
  rcases commandWrite_cases run v s with e | ⟨-, -, e⟩ | ⟨-, -, e⟩ | ⟨i, -, -, -, e⟩ <;> rw [e] at h
  · rw [← Host.Outcome.next.inj h]
  · exact hrun _ h
  · rw [← Host.Outcome.next.inj h, raise_params]
  · exact hrun _ h

theorem beginCommand_params {i : Instr} {s t : State} (h : beginCommand i s = .next t) :
    t.params = s.params := by
  rw [← Host.Outcome.next.inj h, accept_params]

theorem hostWrite_params {off : BitVec 8} {v : Word} {s t : State} (h : hostWrite off v s = .next t) :
    t.params = s.params := by
  rcases hr : Reg.ofOffset off with _ | r
  · simp [hostWrite, hr] at h
  by_cases hc : r = .cmd
  · subst hc
    rw [hostWrite, hr] at h
    exact commandWrite_params (fun _ => exec_params) h
  · rw [hostWrite_register hr hc] at h
    rw [← Host.Outcome.next.inj h]
    split_ifs
    · rfl
    · exact (writeReg_outside v s r).2.1

theorem hostRead_params {off : BitVec 8} {s t : State} (h : hostRead off s = .next t) :
    t.params = s.params := by
  rcases hr : Reg.ofOffset off with _ | r
  · simp [hostRead, hr] at h
  · rw [hostRead_register hr] at h
    rw [← Host.Outcome.next.inj h]

theorem busWrite_params {a : Word} {bytes : List Byte} {s t : State} (h : busWrite a bytes s = .next t) :
    t.params = s.params := by
  rw [busWrite] at h
  split_ifs at h
  rw [← Host.Outcome.next.inj h]

/-- Only the platform's change of `Mapped` touches the parameters, and it needs an idle unit. -/
theorem hostEvent_params {e : HostEvent} {s t : State} (h : hostEvent e s = .next t) :
    t.params = s.params ∨ ∃ regions bars, e = .remap regions bars ∧ s.busy = false ∧
      t = { s with params := { s.params with regions := regions, bars := bars } } := by
  cases e with
  | write off v => exact .inl (hostWrite_params h)
  | launch v =>
    exact .inl (commandWrite_params (fun _ => beginCommand_params) h)
  | tick =>
    rw [← Host.Outcome.next.inj h]
    exact .inl (ticks_outside 1 s).1
  | read off => exact .inl (hostRead_params h)
  | hwReset => exact .inl (Host.Outcome.next.inj h ▸ rfl)
  | busWrite a bytes => exact .inl (busWrite_params h)
  | unitStore a d =>
    rw [← Host.Outcome.next.inj h, unitStore_frame]
    exact .inl rfl
  | remap regions bars =>
    rw [hostEvent, remap] at h
    split_ifs at h with hb
    exact .inr ⟨regions, bars, rfl, Bool.eq_false_iff.2 hb, (Host.Outcome.next.inj h).symm⟩

/-- Settles O54. The change of `Mapped` is the one event that touches a parameter. -/
theorem parametersChangeOnlyByRemap : Obligations.ParametersChangeOnlyByRemap := by
  constructor
  · intro s regions bars rest hin
    rw [step_cons hin]
    exact ⟨fun hb => remap_idle hb, fun hb => remap_busy hb⟩
  · intro s t h
    rcases hin : s.inputs with _ | ⟨e, rest⟩
    · rw [step_nil hin] at h
      rw [← Host.Outcome.next.inj h]
      exact ⟨rfl, rfl, fun hne => absurd rfl hne⟩
    · rw [step_cons hin] at h
      rcases hostEvent_params h with hp | ⟨regions, bars, rfl, hb, rfl⟩
      · rw [hp]
        exact ⟨rfl, rfl, fun hne => absurd rfl hne⟩
      · exact ⟨rfl, rfl, fun _ => ⟨hb, regions, bars, rfl⟩⟩

end Sys2Proof.Machine
end

section
/-! Block words in memory, and the stores of other masters (20_memory.md R31, R34, R41, R44). -/

namespace Sys2Proof.Machine

/-- Settles O52. Each clause is a law of the memory; the 4-byte read is its definition. -/
theorem blockWordAccessIsLittleEndian : Obligations.BlockWordAccessIsLittleEndian := fun _ a d h =>
  ⟨memRead8_memWrite8 h a d, readByte_memWrite8_same h a d, readByte_memWrite8_other h a d,
    wf_memWrite8 h a d, rfl⟩

/-! ## STORE and LOAD as one step (42_gatherer.md R104, 41_decoder.md R80) -/

theorem exec_store_legal {s : State} (h : s.Idle) (hl : s.BlockAccessLegal) :
    exec .store s = .next (stored s) :=
  runCommand_completes (body := storeBody) h (storeBody_go (s := accept s) { hl with }) rfl rfl

theorem exec_load_legal {s : State} (h : s.Idle) (hl : s.BlockAccessLegal) :
    exec .load s = .next (loaded s) :=
  runCommand_completes (body := loadBody) h (loadBody_go (s := accept s) { hl with }) rfl rfl

theorem memRead8_stored {s : State} (h : Memory.wf s.mem = true) : memRead8 (stored s).mem s.curDst = s.blk :=
  memRead8_memWrite8 h s.curDst s.blk

/-- A LOAD with the cursor put back takes the stored word into `BLK` again, whatever `BLK` held. -/
theorem loaded_stored {s : State} (h : Memory.wf s.mem = true) (d : BlockWord) :
    loaded { stored s with blk := d, curDst := s.curDst } = stored s := by
  rw [loaded, memRead8_stored h]
  rfl

/-- Settles O7. The STORE goes through, and the LOAD reads back the word it stored. -/
theorem storeThenLoadReturnsWord : Obligations.StoreThenLoadReturnsWord := by
  intro s t d hs hm ha hb h
  have hl : s.BlockAccessLegal := ⟨aligned_iff.2 ha, hb⟩
  rw [exec_store_legal hs hl] at h
  rw [← Host.Outcome.next.inj h]
  calc exec .load { stored s with blk := d, curDst := s.curDst }
      = .next (loaded { stored s with blk := d, curDst := s.curDst }) :=
        exec_load_legal { hs with } { hl with }
    _ = .next (stored s) := by rw [loaded_stored hm]

/-! ## Stores of other masters -/

theorem hostEvent_unitStore (a : Word) (d : BlockWord) (s : State) :
    hostEvent (.unitStore a d) s = .next (unitStore a d s) := rfl

/-- Settles O55. The next event is the store; what it does to memory are the laws of the memory. -/
theorem storesOfOtherMastersAreWhole : Obligations.StoresOfOtherMastersAreWhole := by
  intro s a rest hm
  constructor
  · intro bytes hin
    rw [step_cons hin]
    refine ⟨fun hfits => ⟨writeBytes a.toNat bytes s.mem, busWrite_next hfits, wf_writeBytes hm _ _,
      readByte_writeBytes_same hm _ _, fun x hx => readByte_writeBytes_other hm _ _ x ?_⟩, busWrite_refused⟩
    rw [inBytes] at hx
    omega
  · intro d hin
    rw [step_cons hin, hostEvent_unitStore]
    constructor
    · intro ha hb
      refine ⟨memWrite8 s.mem a d, ?_, wf_memWrite8 hm a d, memRead8_memWrite8 hm a d,
        readByte_memWrite8_other hm a d⟩
      rw [unitStore_admitted (s := { s with inputs := rest }) ha hb]
    · intro h
      rw [unitStore_none (s := { s with inputs := rest }) h]

end Sys2Proof.Machine
end

section
/-! A word store that lands during a LOAD or a STORE (20_memory.md R34, 70_reset_and_hazards.md R154, R155): the
command's one memory access comes wholly before it or wholly after it, so the race ends as if the two had been
done one after the other. -/

namespace Sys2Proof.Machine

/-! ## Where a run of lines ends -/

theorem ticks_add (m n : Nat) (s : State) : ticks (m + n) s = ticks n (ticks m s) := by
  induction m generalizing s with
  | zero => rw [Nat.zero_add, ticks]
  | succ m ih => rw [Nat.succ_add, ticks, ticks, ih]

/-- A run has one end. -/
theorem ticks_eq_of_todo_nil {m n : Nat} {s : State} (hm : (ticks m s).todo = [])
    (hn : (ticks n s).todo = []) : ticks m s = ticks n s := by
  rw [← ticks_nil hm n, ← ticks_add, Nat.add_comm, ticks_add, ticks_nil hn]

/-- A check goes on with the state or raises. -/
theorem require_state_cases (c : Bool) (e : Err) (s : State) :
    (require c e s).state = s ∨ (require c e s).state = raise e s := by
  cases c with
  | false => exact .inr rfl
  | true => exact .inl rfl

/-- A line that checks and then acts has acted on the state or raised. -/
theorem require_andThen_cases (c : Bool) (e : Err) (f : State → State) (s : State) :
    ((require c e s).andThen fun s => .go (f s)).state = f s ∨
      ((require c e s).andThen fun s => .go (f s)).state = raise e s := by
  cases c with
  | false => exact .inr rfl
  | true => exact .inl rfl

theorem runAct_checkCurDst (s : State) :
    runAct .checkCurDst s = s ∨ runAct .checkCurDst s = raise .align s :=
  require_state_cases _ _ s

theorem runAct_memStore (s : State) :
    runAct .memStore s = { s with mem := memWrite8 s.mem s.curDst s.blk } ∨
      runAct .memStore s = raise .bus s :=
  require_andThen_cases _ _ (fun s => { s with mem := memWrite8 s.mem s.curDst s.blk }) s

theorem runAct_memLoad (s : State) :
    runAct .memLoad s = pushLines (blkLines (memRead8 s.mem s.curDst)) s ∨
      runAct .memLoad s = raise .bus s :=
  require_andThen_cases _ _ (fun s => pushLines (blkLines (memRead8 s.mem s.curDst)) s) s

theorem runAct_packBlk (s : State) :
    runAct .packBlk s = pushLines (blkLines (permute (packedWord s))) s ∨
      runAct .packBlk s = raise .range s :=
  require_andThen_cases _ _ (fun s => pushLines (blkLines (permute (packedWord s))) s) s

/-- The lines left by a line that goes on to `u` or raises. -/
theorem todo_of_cases {t u s : State} {e : Err} {l : List Act} (h : t = u ∨ t = raise e s)
    (hl : u.todo = l) : t.todo = l ∨ t.todo = [] := by
  rcases h with rfl | rfl
  · exact .inl hl
  · exact .inr rfl

/-- `BUSY` after a line that goes on to `u` or raises. -/
theorem busy_or_todo_nil_of_cases {t u s : State} {e : Err} {b : Bool} (h : t = u ∨ t = raise e s)
    (hb : u.busy = b) : t.busy = b ∨ t.todo = [] := by
  rcases h with rfl | rfl
  · exact .inl hb
  · exact .inr rfl

/-- A line leaves `BUSY` alone or leaves no line to do. -/
theorem runAct_busy_or_todo_nil (a : Act) (s : State) :
    (runAct a s).busy = s.busy ∨ (runAct a s).todo = [] := by
  cases a with
  | checkWidth | checkSrc | checkDst | checkCurSrc | checkCurDst | admitTile =>
    exact busy_or_todo_nil_of_cases (require_state_cases _ _ s) rfl
  | memStore => exact busy_or_todo_nil_of_cases (runAct_memStore s) rfl
  | memLoad => exact busy_or_todo_nil_of_cases (runAct_memLoad s) rfl
  | packBlk => exact busy_or_todo_nil_of_cases (runAct_packBlk s) rfl
  | wrapRow | loop =>
    rw [runAct]
    split_ifs <;> exact .inl rfl
  | resetAll | done => exact .inr rfl
  | _ => exact .inl rfl

/-- A running command is busy until no line is left. -/
theorem ticks_busy_or_todo_nil {s : State} (h : s.busy = true) (n : Nat) :
    (ticks n s).busy = true ∨ (ticks n s).todo = [] := by
  induction n generalizing s with
  | zero => exact .inl h
  | succ n ih =>
    rw [ticks]
    rcases e : s.todo with _ | ⟨a, rest⟩
    · rw [tick_nil e]
      exact ih h
    · have ht : tick s = runAct a { s with todo := rest } := by rw [tick, e]
      rcases runAct_busy_or_todo_nil a { s with todo := rest } with hb | hn
      · exact ih (by rw [ht, hb]; exact h)
      · rw [← ht] at hn
        exact .inr (by rw [ticks_nil hn]; exact hn)

/-- The state in which a command has been accepted and none of its lines done. -/
def begun (i : Instr) (s : State) : State := (accept s).withTodo (commandLines i ++ [.done])

theorem hostEvent_launch {v : Word} {i : Instr} {s : State} (h : s.Ready) (hv : decodeCommand v = .ok i) :
    hostEvent (.launch v) s = .next (begun i s) :=
  commandWrite_legal h.busy h.ecode hv

/-- A command that runs line by line undisturbed is, when it is no longer busy, where one step takes it. -/
theorem ticks_begun {v : Word} {i : Instr} {s t : State} {n : Nat} (hv : decodeCommand v = .ok i)
    (h : exec i s = .next t) (ht : t.todo = []) (hn : (ticks n (begun i s)).busy = false) :
    ticks n (begun i s) = t := by
  obtain ⟨m, hm⟩ := exec_ticks hv h
  have hend : (ticks n (begun i s)).todo = [] :=
    (ticks_busy_or_todo_nil rfl n).resolve_left (by simp [hn])
  rw [← hm]
  exact ticks_eq_of_todo_nil hend (hm ▸ ht)

/-! ## Lines that do not meet memory -/

/-- The state with the word at `a` stored over. -/
def State.overwritten (s : State) (a : Word) (d : BlockWord) : State :=
  { s with mem := memWrite8 s.mem a d }

theorem memRead8_overwritten {s : State} (h : Memory.wf s.mem = true) (a : Word) (d : BlockWord) :
    memRead8 (s.overwritten a d).mem a = d :=
  memRead8_memWrite8 h a d

theorem wf_overwritten {s : State} (h : Memory.wf s.mem = true) (a : Word) (d : BlockWord) :
    Memory.wf (s.overwritten a d).mem = true :=
  wf_memWrite8 h a d

/-- A line of LOAD or STORE that is not its memory access. -/
def Act.memoryFree : Act → Bool
  | .checkCurDst | .setBlkLo _ | .setBlkHi _ | .stepCurDst | .done => true
  | _ => false

theorem require_overwritten (c : Bool) (e : Err) (s : State) (a : Word) (d : BlockWord) :
    (require c e (s.overwritten a d)).state = (require c e s).state.overwritten a d := by
  cases c <;> rfl

theorem runAct_overwritten {b : Act} (hb : b.memoryFree = true) (s : State) (a : Word) (d : BlockWord) :
    runAct b (s.overwritten a d) = (runAct b s).overwritten a d := by
  cases b with
  | checkCurDst => exact require_overwritten _ _ s a d
  | setBlkLo _ | setBlkHi _ | stepCurDst | done => rfl
  | _ => cases hb

theorem tick_overwritten {s : State} (h : ∀ b ∈ s.todo.head?, b.memoryFree = true) (a : Word)
    (d : BlockWord) : tick (s.overwritten a d) = (tick s).overwritten a d := by
  rcases e : s.todo with _ | ⟨b, rest⟩
  · rw [tick_nil e, tick_nil (s := s.overwritten a d) e]
  · have hb : b.memoryFree = true := h b (by rw [e]; rfl)
    have ht (u : State) (hu : u.todo = b :: rest) : tick u = runAct b { u with todo := rest } := by
      rw [tick, hu]
    rw [ht s e, ht (s.overwritten a d) e]
    exact runAct_overwritten hb { s with todo := rest } a d

/-- A line of LOAD or STORE adds no line that meets memory. -/
theorem runAct_todo {b : Act} (hb : b.memoryFree = true ∨ b = .memLoad ∨ b = .memStore) (s : State) :
    ∃ l : List Act, (∀ c ∈ l, c.memoryFree = true) ∧
      ((runAct b s).todo = l ++ s.todo ∨ (runAct b s).todo = []) := by
  rcases hb with hb | rfl | rfl
  · refine ⟨[], List.forall_mem_nil _, ?_⟩
    cases b with
    | checkCurDst => exact todo_of_cases (runAct_checkCurDst s) rfl
    | setBlkLo _ | setBlkHi _ | stepCurDst => exact .inl rfl
    | done => exact .inr rfl
    | _ => cases hb
  · exact ⟨blkLines (memRead8 s.mem s.curDst), List.all_eq_true.1 rfl,
      todo_of_cases (runAct_memLoad s) rfl⟩
  · exact ⟨[], List.forall_mem_nil _, todo_of_cases (runAct_memStore s) rfl⟩

theorem runAct_todo_memoryFree {b : Act} (hb : b.memoryFree = true ∨ b = .memLoad ∨ b = .memStore)
    {s : State} (h : ∀ c ∈ s.todo, c.memoryFree = true) : ∀ c ∈ (runAct b s).todo, c.memoryFree = true := by
  obtain ⟨l, hl, e | e⟩ := runAct_todo hb s <;> rw [e]
  · exact List.forall_mem_append.2 ⟨hl, h⟩
  · exact List.forall_mem_nil _

theorem ticks_overwritten {s : State} (h : ∀ b ∈ s.todo, b.memoryFree = true) (a : Word) (d : BlockWord)
    (n : Nat) : ticks n (s.overwritten a d) = (ticks n s).overwritten a d := by
  induction n generalizing s with
  | zero => rfl
  | succ n ih =>
    rw [ticks, ticks, tick_overwritten (fun b hb => h b (List.mem_of_head? hb))]
    refine ih ?_
    rcases e : s.todo with _ | ⟨b, rest⟩
    · rwa [tick_nil e]
    · rw [e, List.forall_mem_cons] at h
      rw [tick, e]
      exact runAct_todo_memoryFree (.inl h.1) h.2

/-! ## The race -/

/-- The lines of LOAD and of STORE: a check, the memory access, and lines that do not meet memory. -/
theorem commandLines_access {i : Instr} (hi : i = .load ∨ i = .store) :
    ∃ x : Act, (x = .memLoad ∨ x = .memStore) ∧
      commandLines i ++ [.done] = [.checkCurDst, x, .stepCurDst, .done] := by
  rcases hi with rfl | rfl
  · exact ⟨.memLoad, .inl rfl, rfl⟩
  · exact ⟨.memStore, .inr rfl, rfl⟩

/-- After its second line a LOAD or STORE has made its memory access. -/
theorem ticks_two_todo_memoryFree {i : Instr} (hi : i = .load ∨ i = .store) (s : State) :
    ∀ b ∈ (ticks 2 (begun i s)).todo, b.memoryFree = true := by
  obtain ⟨x, hx, hlines⟩ := commandLines_access hi
  have hfirst : tick (begun i s) = runAct .checkCurDst ((accept s).withTodo [x, .stepCurDst, .done]) := by
    rw [begun, hlines, tick_withTodo]
  rw [ticks, ticks, ticks, hfirst]
  rcases runAct_checkCurDst ((accept s).withTodo [x, .stepCurDst, .done]) with e | e <;> rw [e]
  · rw [tick_withTodo]
    exact runAct_todo_memoryFree (.inr hx) (List.all_eq_true.1 rfl)
  · rw [tick_nil rfl]
    exact List.forall_mem_nil _

/-- A word stored over memory while a LOAD or STORE runs might as well have been stored before the command began,
or after the lines it has run through. -/
theorem ticks_overwritten_serial {i : Instr} (hi : i = .load ∨ i = .store) (s : State) (a : Word)
    (d : BlockWord) (j n : Nat) :
    ticks n ((ticks j (begun i s)).overwritten a d) = ticks (j + n) (begun i (s.overwritten a d)) ∨
    ticks n ((ticks j (begun i s)).overwritten a d) = (ticks (j + n) (begun i s)).overwritten a d := by
  have hbegun : begun i (s.overwritten a d) = (begun i s).overwritten a d := rfl
  obtain ⟨x, -, hlines⟩ := commandLines_access hi
  have hhead : (begun i s).todo.head? = some .checkCurDst := by
    rw [show (begun i s).todo = _ from hlines]; rfl
  match j with
  | 0 => exact .inl (by rw [hbegun, ticks, Nat.zero_add])
  | 1 =>
    have hfirst : tick ((begun i s).overwritten a d) = (tick (begun i s)).overwritten a d :=
      tick_overwritten (by rw [hhead]; rintro b ⟨⟩; rfl) a d
    exact .inl (by rw [hbegun, ticks_add, ticks, ticks, ticks, ticks, hfirst])
  | j + 2 =>
    have hfree := ticks_two_todo_memoryFree hi s
    have hlanded : (ticks (j + 2) (begun i s)).overwritten a d =
        ticks j ((ticks 2 (begun i s)).overwritten a d) := by
      rw [Nat.add_comm, ticks_add, ticks_overwritten hfree]
    exact .inr (by rw [hlanded, ← ticks_add, ticks_overwritten hfree, ← ticks_add]; congr 2; omega)

/-- The store of another unit or of the host to an aligned and admitted word is one store of that word. -/
theorem hostEvent_wordStore {e : HostEvent} {s t : State} {a : Word} {d : BlockWord}
    (he : e = .unitStore a d ∨ e = .busWrite a (bytes8 d)) (ha : a.toNat % 8 = 0)
    (hb : admitted s.params a 8 = true) (h : hostEvent e s = .next t) : t = s.overwritten a d := by
  rcases he with rfl | rfl
  · rw [hostEvent_unitStore, unitStore_admitted ha hb] at h
    exact (Host.Outcome.next.inj h).symm
  · rw [hostEvent, busWrite_word d ha] at h
    exact (Host.Outcome.next.inj h).symm

/-- A LOAD or STORE that races with a store `e` of the word `d` to `CUR_DST` ends, when it completes, as if the
store had come before it (in `first`) or after it (in `last`, which the store then changes). -/
theorem race_serial {c : Word} {i : Instr} {s u v first last : State} {e : HostEvent} {d : BlockWord}
    {j n : Nat} (hc : decodeCommand c = .ok i) (hi : i = .load ∨ i = .store) (hs : s.Ready)
    (ha : s.curDst.toNat % 8 = 0) (hb : admitted s.params s.curDst 8 = true)
    (he : e = .unitStore s.curDst d ∨ e = .busWrite s.curDst (bytes8 d))
    (hfirst : exec i (s.overwritten s.curDst d) = .next first) (hfirst' : first.todo = [])
    (hlast : exec i s = .next last) (hlast' : last.todo = [])
    (hu : hostEvent (.launch c) s = .next u) (hv : hostEvent e (ticks j u) = .next v)
    (hbusy : (ticks n v).busy = false) :
    ticks n v = first ∨ ticks n v = last.overwritten s.curDst d := by
  rw [hostEvent_launch hs hc] at hu
  obtain rfl := Host.Outcome.next.inj hu
  have hparams : (ticks j (begun i s)).params = s.params := (ticks_outside j (begun i s)).1
  obtain rfl := hostEvent_wordStore he ha (by rw [hparams]; exact hb) hv
  rcases ticks_overwritten_serial hi s s.curDst d j n with h | h <;> rw [h] at hbusy ⊢
  · exact .inl (ticks_begun hc hfirst hfirst' hbusy)
  · exact .inr (by rw [ticks_begun hc hlast hlast' hbusy])

/-- Settles O56. The command and the other store end as if done one after the other: a LOAD has then read the old
word or `d`, and after a STORE memory holds the word of the later of the two. -/
theorem racingWordAccessesAreWhole : Obligations.RacingWordAccessesAreWhole := by
  intro s u v t d e j n hs hm ha hb he hv ht hbusy
  subst ht
  have hl : s.BlockAccessLegal := ⟨aligned_iff.2 ha, hb⟩
  have hidle : (s.overwritten s.curDst d).Idle := { hs.toIdle with }
  have hl' : (s.overwritten s.curDst d).BlockAccessLegal := { hl with }
  constructor
  · intro hu
    rcases race_serial rfl (.inl rfl) hs ha hb he (exec_load_legal hidle hl') hidle.todo
      (exec_load_legal hs.toIdle hl) hs.todo hu hv hbusy with h | h <;> rw [h]
    · exact .inr (memRead8_overwritten hm s.curDst d)
    · exact .inl rfl
  · intro hu
    rcases race_serial rfl (.inr rfl) hs ha hb he (exec_store_legal hidle hl') hidle.todo
      (exec_store_legal hs.toIdle hl) hs.todo hu hv hbusy with h | h <;> rw [h]
    · exact .inl (memRead8_stored (wf_overwritten hm s.curDst d))
    · exact .inr (memRead8_overwritten (s := stored s) (wf_memWrite8 hm s.curDst s.blk) s.curDst d)

end Sys2Proof.Machine
end

section
/-! Command words and block words as bytes: the decoder and the encoder undo each other (30_encoding.md R50 to
R65). -/

namespace Sys2Proof

open Machine

/-! ## The opcode map (30_encoding.md R51, R52) -/

theorem wellFormed_of_encodeWord_command {i : Instr} {v : Word} (h : encodeWord i = .command v) :
    i.wellFormed = true := by
  cases i with
  | blockIndiv | blockDiff | blockT | blockH | blockPlanar => cases h
  | _ => rfl

/-- Settles O41. A word decodes to the command that is encoded as it, and each of the eleven has its row. -/
theorem legalCommandWordsAreTheEleven : Obligations.LegalCommandWordsAreTheEleven := by
  intro v i
  rw [decodeCommand_eq_ok]
  cases i <;> simp only [encodeWord, Encoded.command.injEq, List.mem_cons, List.not_mem_nil, Prod.mk.injEq,
    reduceCtorEq, and_true, and_false, or_false, false_or]
  all_goals exact eq_comm

/-! ## Bytes (20_memory.md R31) -/

/-- A legal command word is read back from its bytes. -/
theorem decode_bytes4_append {v : Word} {i : Instr} (h : decodeCommand v = .ok i) (rest : List Byte) :
    decode .command (bytes4 v ++ rest) = .ok (i, rest) := by
  simp [decode, bytes4, h]

/-- Any stored word is read back from its bytes, permuted. -/
theorem decode_bytes8_append (d : BlockWord) (rest : List Byte) :
    decode .block (bytes8 d ++ rest) = .ok (decodeBlock (permute d), rest) := by
  simp [decode, bytes8]

theorem decode_command_inv {bytes rest : List Byte} {i : Instr}
    (h : decode .command bytes = .ok (i, rest)) :
    ∃ v, decodeCommand v = .ok i ∧ bytes = bytes4 v ++ rest := by
  match bytes with
  | b0 :: b1 :: b2 :: b3 :: tail =>
    rcases hv : decodeCommand (word4 b0 b1 b2 b3) with e | j
    · simp [decode, hv] at h
    · obtain ⟨rfl, rfl⟩ : j = i ∧ tail = rest := by simpa [decode, hv] using h
      exact ⟨_, hv, by rw [bytes4_word4]; rfl⟩
  | [] | [_] | [_, _] | [_, _, _] => cases h

theorem decode_block_inv {bytes rest : List Byte} {i : Instr} (h : decode .block bytes = .ok (i, rest)) :
    ∃ d, decodeBlock (permute d) = i ∧ bytes = bytes8 d ++ rest := by
  match bytes with
  | b0 :: b1 :: b2 :: b3 :: b4 :: b5 :: b6 :: b7 :: tail =>
    obtain ⟨hi, rfl⟩ : decodeBlock (permute (word8 b0 b1 b2 b3 b4 b5 b6 b7)) = i ∧ tail = rest := by
      simpa [decode] using h
    exact ⟨_, hi, by rw [bytes8_word8]; rfl⟩
  | [] | [_] | [_, _] | [_, _, _] | [_, _, _, _] | [_, _, _, _, _] | [_, _, _, _, _, _]
  | [_, _, _, _, _, _, _] => cases h

/-! ## Round trips -/

/-- Settles O48. The word the instruction is encoded as decodes to it; a block word comes back from its stored
form since `P` is an involution. -/
theorem decodeOfEncodeIsIdentity : Obligations.DecodeOfEncodeIsIdentity := by
  intro i rest hi
  rw [encode]
  rcases h : encodeWord i with v | w
  · exact decode_bytes4_append (decodeCommand_eq_ok.2 h) rest
  · calc decode .block (bytes8 (permute w) ++ rest)
        = .ok (decodeBlock (permute (permute w)), rest) := decode_bytes8_append _ rest
      _ = .ok (i, rest) := by rw [permute_permute, decodeBlock_encodeWord hi h]

/-- Settles O49. The bytes are those of a word the decoder accepts, and that word is the instruction's own. -/
theorem encodeOfDecodeIsIdentity : Obligations.EncodeOfDecodeIsIdentity := by
  intro k bytes rest i h
  cases k with
  | command =>
    obtain ⟨v, hv, rfl⟩ := decode_command_inv h
    have hword : encodeWord i = .command v := decodeCommand_eq_ok.1 hv
    rw [encode, hword]
    exact ⟨wellFormed_of_encodeWord_command hword, rfl, rfl⟩
  | block =>
    obtain ⟨d, rfl, rfl⟩ := decode_block_inv h
    obtain ⟨hword, hwf⟩ := encodeWord_decodeBlock (permute d)
    rw [encode, hword, Encoded.bytes, permute_permute]
    exact ⟨hwf, rfl, rfl⟩

/-- Settles O50. Each word, evaluated. -/
theorem specWordsDecodeAsWritten : Obligations.SpecWordsDecodeAsWritten := ⟨rfl, rfl, rfl, rfl, rfl, rfl⟩

/-! ## Terms that are no word (notes/assumptions/10.md) -/

/-- Settles O23. Only the four classes that test their fields have ill-formed terms, and each refuses them. -/
theorem illFormedBlockTermsAreRefused : Obligations.IllFormedBlockTermsAreRefused := by
  intro i s h
  cases i with
  | blockDiff | blockT | blockH | blockPlanar => exact if_neg (Bool.eq_false_iff.1 h)
  | _ => cases h

end Sys2Proof
end

section
/-! The fields of a decode word in plain numbers, and the class their sums give it (30_encoding.md R56 to R61). -/

namespace Sys2Proof

open Machine

/-! ## Bit positions -/

section

variable {w : BlockWord} {bits : Nat → Nat → Nat}

theorem toNat_extract_eq_bits (hbits : ∀ lo n, bits lo n = w.toNat / 2 ^ lo % 2 ^ n) (lo n : Nat) :
    (w.extractLsb' lo n).toNat = bits lo n := by
  rw [hbits, BitVec.extractLsb'_toNat, Nat.shiftRight_eq_div_pow]

theorem toNat_bit_eq_bits (hbits : ∀ lo n, bits lo n = w.toNat / 2 ^ lo % 2 ^ n) (i : Nat) :
    (w.getLsbD i).toNat = bits i 1 := by
  rw [hbits, BitVec.getLsbD, Nat.toNat_testBit, Nat.pow_one]

end

/-- Two pieces of a split field, as a number. -/
theorem toNat_append_add {m n : Nat} (x : BitVec m) (y : BitVec n) :
    (x ++ y).toNat = 2 ^ n * x.toNat + y.toNat := by
  rw [BitVec.toNat_append, ← Nat.shiftLeft_add_eq_or_of_lt y.isLt, Nat.shiftLeft_eq, Nat.mul_comm]

/-! ## The word of a decoded term -/

theorem encodeWord_of_decodeBlock {w : BlockWord} {i : Instr} (h : decodeBlock w = i) :
    encodeWord i = .block w := h ▸ (encodeWord_decodeBlock w).1

theorem decodeBlock_eq_indiv {w : BlockWord} {f : IndivFields} (h : decodeBlock w = .blockIndiv f) :
    w.getLsbD 1 = false ∧ f = indivFields w := by
  obtain rfl : indivWord f = w := Encoded.block.inj (encodeWord_of_decodeBlock h)
  exact ⟨indivWord_bit1 f, (indivFields_indivWord f).symm⟩

theorem decodeBlock_eq_diff {w : BlockWord} {f : DiffFields} (h : decodeBlock w = .blockDiff f) :
    w.getLsbD 1 = true ∧ f = diffFields w := by
  obtain rfl : diffWord f = w := Encoded.block.inj (encodeWord_of_decodeBlock h)
  exact ⟨diffWord_bit1 f, (diffFields_diffWord f).symm⟩

theorem decodeBlock_eq_planar {w : BlockWord} {f : PlanarFields} (h : decodeBlock w = .blockPlanar f) :
    w.getLsbD 1 = true ∧ f = planarFields w := by
  obtain rfl : planarWord f = w := Encoded.block.inj (encodeWord_of_decodeBlock h)
  exact ⟨planarWord_bit1 f, (planarFields_planarWord f).symm⟩

/-- Settles O24. The fields are those extracted from the word, each a slice, a bit, or pieces put together. -/
theorem blockFieldsSitAtTheirPositions : Obligations.BlockFieldsSitAtTheirPositions := by
  intro w bits hbits
  have slice := toNat_extract_eq_bits hbits
  have bit := toNat_bit_eq_bits hbits
  refine ⟨fun f hf => ?_, fun f hf => ?_, fun f hf => ?_⟩
  · obtain ⟨hbit1, rfl⟩ := decodeBlock_eq_indiv hf
    refine ⟨by rw [← bit, hbit1]; rfl, ?_⟩
    simp only [indivFields, slice, bit, and_self]
  · obtain ⟨hbit1, rfl⟩ := decodeBlock_eq_diff hf
    refine ⟨by rw [← bit, hbit1]; rfl, ?_⟩
    simp only [diffFields, fieldR1, fieldDr, fieldG1, fieldDg, fieldB1, fieldDb, slice, bit, and_self]
  · obtain ⟨hbit1, rfl⟩ := decodeBlock_eq_planar hf
    refine ⟨by rw [← bit, hbit1]; rfl, ?_⟩
    simp only [planarFields, toNat_append_add, slice, bit, true_and, and_true]
    omega

/-! ## Overflow and class (30_encoding.md R59, R60) -/

theorem overflows_eq_false_iff (v : BitVec 5) (dv : BitVec 3) :
    overflows v dv = false ↔ 0 ≤ (v.toNat : Int) + dv.toInt ∧ (v.toNat : Int) + dv.toInt ≤ 31 := by
  rw [← Bool.not_eq_true, overflows_iff, not_or, not_lt, not_lt]

/-- Settles O25. The class by the overflow of each channel, and overflow in plain numbers. -/
theorem classFollowsOverflowOrder : Obligations.ClassFollowsOverflowOrder := by
  rintro w r2 g2 b2 rfl rfl rfl
  refine ⟨classify_eq_indiv, ?_, ?_, ?_, ?_⟩
  · rw [classify_eq_t, overflows_iff, fieldR1, fieldDr]
  · rw [classify_eq_h, overflows_eq_false_iff, overflows_iff, fieldR1, fieldDr, fieldG1, fieldDg]
  · rw [classify_eq_planar, overflows_eq_false_iff, overflows_eq_false_iff, overflows_iff, fieldR1, fieldDr,
      fieldG1, fieldDg, fieldB1, fieldDb]
  · rw [classify_eq_diff, overflows_eq_false_iff, overflows_eq_false_iff, overflows_eq_false_iff, fieldR1,
      fieldDr, fieldG1, fieldDg, fieldB1, fieldDb]

/-- Settles O26. All 256 bytes `(v, dv)`, evaluated. -/
theorem overflowSetIsTheSixteenBytes : Obligations.OverflowSetIsTheSixteenBytes := by
  unfold Obligations.OverflowSetIsTheSixteenBytes
  decide

end Sys2Proof
end

section
/-! The byte permutation `P` and the big-endian reading of a block word (30_encoding.md R53, R54, R66). -/

namespace Sys2Proof.Machine

/-- `P` on bytes: those of each half in reverse order. -/
theorem permute_word8 (b0 b1 b2 b3 b4 b5 b6 b7 : Byte) :
    permute (word8 b0 b1 b2 b3 b4 b5 b6 b7) = word8 b3 b2 b1 b0 b7 b6 b5 b4 := by
  apply BitVec.eq_of_getLsbD_eq
  intro i hi
  simp only [permute, word8, BitVec.getLsbD_or, BitVec.getLsbD_and, BitVec.getLsbD_ushiftRight,
    BitVec.getLsbD_shiftLeft, BitVec.getLsbD_append]
  interval_cases i <;> simp

theorem bytes8_permute (d : BlockWord) :
    bytes8 (permute d) = [d.extractLsb' 24 8, d.extractLsb' 16 8, d.extractLsb' 8 8, d.extractLsb' 0 8,
      d.extractLsb' 56 8, d.extractLsb' 48 8, d.extractLsb' 40 8, d.extractLsb' 32 8] := by
  conv_lhs => rw [← word8_extract d]
  rw [permute_word8, bytes8_word8]

theorem permute_involutive : Function.Involutive permute := permute_permute

/-- Settles O27. `P` on bytes, and its being its own inverse. -/
theorem permutationReversesHalves : Obligations.PermutationReversesHalves := by
  refine ⟨fun d => ?_, permute_permute, permute_involutive.bijective, by decide, by decide, by decide,
    permute_word8⟩
  simpa only [bytes8, List.cons.injEq, and_true] using bytes8_permute d

/-- A word of eight bytes is the word of the four upper ones above that of the four lower ones. -/
theorem word8_eq_append (b0 b1 b2 b3 b4 b5 b6 b7 : Byte) :
    word8 b0 b1 b2 b3 b4 b5 b6 b7 = word4 b4 b5 b6 b7 ++ word4 b0 b1 b2 b3 := by
  apply BitVec.eq_of_getLsbD_eq
  intro i hi
  simp only [word8, word4, BitVec.getLsbD_append]
  grind

/-- Exchanging the halves moves each bit by 32 places. -/
theorem getLsbD_append_comm (a b : Word) {n : Nat} (hn : n < 64) :
    (a ++ b).getLsbD n = (b ++ a).getLsbD ((n + 32) % 64) := by
  simp only [BitVec.getLsbD_append]
  grind

/-- Settles O28. The decode word and the big-endian reading have the same two halves, exchanged. -/
theorem decodeWordExchangesStandardHalves : Obligations.DecodeWordExchangesStandardHalves := by
  intro b0 b1 b2 b3 b4 b5 b6 b7 n hn
  have hbig : b0 ++ b1 ++ b2 ++ b3 ++ b4 ++ b5 ++ b6 ++ b7 = word4 b3 b2 b1 b0 ++ word4 b7 b6 b5 b4 :=
    word8_eq_append b7 b6 b5 b4 b3 b2 b1 b0
  rw [permute_word8, word8_eq_append, hbig, getLsbD_append_comm _ _ hn]

end Sys2Proof.Machine
end

section
/-! A script line as steps of the machine (30_encoding.md R67, R68). -/

namespace Sys2Proof.Machine

theorem core_run_succ {M : Host.Core} {s t : M.State} (h : M.step s = .next t) (k : Nat) :
    M.run (k + 1) s = M.run k t := by
  rw [Host.Core.run, h]

/-- A run begins with the event that is next. -/
theorem run_succ {s t : State} {e : HostEvent} {rest : List HostEvent} (hin : s.inputs = e :: rest)
    (h : hostEvent e { s with inputs := rest } = .next t) (k : Nat) :
    Host.Core.run Sys2Proof.core (k + 1) s = Host.Core.run Sys2Proof.core k t :=
  core_run_succ (M := Sys2Proof.core) ((step_cons hin).trans h) k

/-- A host write to an idle unit, of a register other than `CMD`. -/
theorem hostEvent_write_register {off : BitVec 8} {r : Reg} (hr : Reg.ofOffset off = some r) (hc : r ≠ .cmd)
    {s : State} (hb : s.busy = false) (v : Word) :
    hostEvent (.write off v) s = .next (writeReg v s r) := by
  rw [hostEvent, hostWrite_register hr hc]
  simp [hb]

/-- The two writes of `SETBLK` leave the whole word in `BLK`. -/
theorem writeReg_blkLo_blkHi (d : BlockWord) (s : State) :
    writeReg (d.extractLsb' 32 32) (writeReg (d.extractLsb' 0 32) s .blkLo) .blkHi = { s with blk := d } := by
  simp only [writeReg, extract_low_append, halves_append]

/-- `SETBLK d` of an idle unit, whatever comes after it (30_encoding.md R68). -/
theorem run_setBlk {s : State} {d : BlockWord} {rest : List HostEvent} (hb : s.busy = false)
    (hin : s.inputs = (ScriptLine.setBlk d).events ++ rest) (k : Nat) :
    Host.Core.run Sys2Proof.core (k + 2) s =
      Host.Core.run Sys2Proof.core k { s with blk := d, inputs := rest } := by
  have hhi : hostEvent (.write 0x3C#8 (d.extractLsb' 32 32))
      (writeReg (d.extractLsb' 0 32) { s with inputs := rest } .blkLo) =
        .next { s with blk := d, inputs := rest } := by
    rw [hostEvent_write_register (r := .blkHi) rfl (by decide) (by exact hb), writeReg_blkLo_blkHi]
  calc Host.Core.run Sys2Proof.core (k + 2) s
      = Host.Core.run Sys2Proof.core (k + 1) (writeReg (d.extractLsb' 0 32)
          { s with inputs := .write 0x3C#8 (d.extractLsb' 32 32) :: rest } .blkLo) :=
        run_succ hin (hostEvent_write_register (r := .blkLo) rfl (by decide) (by exact hb) _) (k + 1)
    _ = Host.Core.run Sys2Proof.core k { s with blk := d, inputs := rest } :=
        run_succ (s := writeReg _ { s with inputs := _ :: _ } .blkLo) rfl hhi k

/-- DECODE does not look at the events still to come. -/
theorem exec_decode_withInputs {s t : State} (h : exec .decode s = .next t) (rest : List HostEvent) :
    exec .decode { s with inputs := rest } = .next { t with inputs := rest } := by
  rw [← Host.Outcome.next.inj h]
  rfl

/-- Settles O51. `SETBLK`, the DECODE of the word it leaves, and the read of `STATUS`. -/
theorem decodewRunsDecode : Obligations.DecodewRunsDecode := by
  intro s t d hs hin hexec
  have hready : State.Ready { s with blk := d, inputs := [.read 0x04#8] } := { hs with }
  have hdecode : hostEvent (.write 0x00#8 0x00000007#32) { s with blk := d, inputs := [.read 0x04#8] } =
      .next { t with inputs := [.read 0x04#8] } := by
    rw [hostEvent_write_cmd, commandWrite_legal (i := .decode) hready.busy hready.ecode rfl]
    exact exec_decode_withInputs hexec _
  have hread : hostEvent (.read 0x04#8) { t with inputs := [] } =
      .next { t with inputs := [], lastRead := some (statusWord t) } := by
    rw [hostEvent, hostRead_register (r := .status) rfl]
    rfl
  calc Host.Core.run Sys2Proof.core 4 s
      = Host.Core.run Sys2Proof.core 2
          { s with blk := d, inputs := [.write 0x00#8 0x00000007#32, .read 0x04#8] } :=
        run_setBlk hs.busy hin 2
    _ = Host.Core.run Sys2Proof.core 1 { t with inputs := [.read 0x04#8] } := run_succ rfl hdecode 1
    _ = .next { t with inputs := [], lastRead := some (statusWord t) } :=
        run_succ (s := { t with inputs := [.read 0x04#8] }) rfl hread 0

end Sys2Proof.Machine
end

section
/-! The kernel id and the kernels it names (40_selector.md R70 to R73). -/

namespace Sys2Proof.Machine

/-! ## SELECT (40_selector.md R70, R71) -/

theorem selectKernel_bit0 (alphaAsLuma etc2 dither avx2 : Bool) :
    (selectKernel alphaAsLuma etc2 dither avx2).getLsbD 0 = etc2 := by
  rw [selectKernel, BitVec.getLsbD_append]
  simp

theorem selectKernel_bit1 (alphaAsLuma etc2 dither avx2 : Bool) :
    (selectKernel alphaAsLuma etc2 dither avx2).getLsbD 1 = (dither && !alphaAsLuma) := by
  rw [selectKernel, BitVec.getLsbD_append, BitVec.getLsbD_append]
  simp

theorem selectKernel_bit2 (alphaAsLuma etc2 dither avx2 : Bool) :
    (selectKernel alphaAsLuma etc2 dither avx2).getLsbD 2 = avx2 := by
  rw [selectKernel, BitVec.getLsbD_append, BitVec.getLsbD_append]
  simp

theorem execSelect_next {s : State} (hs : s.Idle) : execSelect s = .next (selectBody s) :=
  runCommand_completes hs rfl rfl rfl

theorem exec_select {s : State} (hs : s.Idle) : exec .select s = .next { s with ksel := s.kernelId } :=
  execSelect_next hs

/-- Settles O3. The id is the selection function's value on the state's own bits, read off bit by bit. -/
theorem selectComputesKernelId : Obligations.SelectComputesKernelId := fun s hs =>
  ⟨s.kernelId, exec_select hs, selectKernel_bit0 .., selectKernel_bit1 .., selectKernel_bit2 ..⟩

/-! ## ENCODE (40_selector.md R72, R73) -/

/-- The four base kernels, by bits 2 and 0 of the id. -/
theorem baseKernel_eq {kid : BitVec 3} {avx2 etc2 : Bool} (h2 : kid.getLsbD 2 = avx2)
    (h0 : kid.getLsbD 0 = etc2) :
    baseKernel kid =
      if avx2 then (if etc2 then Config.prgbEtc2Avx2 else Config.prgbAvx2)
      else if etc2 then Config.prgbEtc2 else Config.prgb := by
  rw [baseKernel, h2, h0]
  cases avx2 <;> cases etc2 <;> rfl

theorem exec_encode {s : State} (hs : s.Idle) : exec .encode s =
    .next { s with
      tile := ditheredTile s.ksel s.tile, blk := baseKernel s.ksel (ditheredTile s.ksel s.tile) } :=
  execEncode_next hs

/-- Settles O4. The tile is the dithered one by definition; each clause then names its base kernel. -/
theorem encodeAppliesSelectedKernel : Obligations.EncodeAppliesSelectedKernel := by
  rintro s hs t rfl
  rw [← ditheredTile, exec_encode hs]
  refine ⟨fun h2 h0 => ?_, fun h2 h0 => ?_, fun h2 h0 => ?_, fun h2 h0 => ?_⟩ <;>
    rw [baseKernel_eq h2 h0] <;> rfl

end Sys2Proof.Machine
end

section
/-! LOAD, DECODE and the five classes of block word as one step (41_decoder.md R80 to R90), and the step of a ready
unit (44_control.md R127). -/

namespace Sys2Proof.Machine

/-! ## LOAD (41_decoder.md R80) -/

theorem exec_load_align {s : State} (h : aligned s.curDst 8 = false) : exec .load s = .next (raise .align s) :=
  runCommand_raises (body := loadBody) (loadBody_align h)

theorem exec_load_bus {s : State} (ha : aligned s.curDst 8 = true) (h : admitted s.params s.curDst 8 = false) :
    exec .load s = .next (raise .bus s) :=
  runCommand_raises (body := loadBody) (loadBody_bus ha h)

/-- Settles O5. The two checks in their order; past them `BLK` is the word read, known byte by byte. -/
theorem loadReadsBlockWord : Obligations.LoadReadsBlockWord := fun s hs =>
  ⟨fun ha => exec_load_align (aligned_false_iff.2 ha),
    fun ha hb => exec_load_bus (aligned_iff.2 ha) hb,
    fun ha hb => ⟨memRead8 s.mem s.curDst, exec_load_legal hs ⟨aligned_iff.2 ha, hb⟩,
      extract_memRead8 s.mem s.curDst⟩⟩

/-! ## Showing a block (41_decoder.md R81) -/

/-- `UNK` is kept on the classes that have pixels of their own. -/
theorem showBlock_known {m : Mode} (h : unknownMode m = false) (px : Tile) (s : State) :
    showBlock m px s = { s with pix := px, mode := m } := by
  rw [showBlock, setModeFlags, h, Bool.or_false]

/-- `UNK` is set on T and H, whatever it was. -/
theorem showBlock_unknown {m : Mode} (h : unknownMode m = true) (px : Tile) (s : State) :
    showBlock m px s = { s with pix := px, mode := m, unk := true } := by
  rw [showBlock, setModeFlags, h, Bool.or_true]

/-- An idle unit that decodes a block of class `m` is left showing it. -/
theorem runCommand_showBlock {s : State} (hs : s.Idle) (m : Mode) (pixels : ModTab → Tile) :
    runCommand (fun u => .go (showBlock m (pixels u.params.modtab) u)) s =
      .next (showBlock m (pixels s.params.modtab) s) :=
  runCommand_completes hs rfl rfl rfl

/-! ## DECODE -/

/-- Settles O17. Both are the command that shows the class and the pixels of `P(BLK)`. -/
theorem decodeRunsItsBlockWord : Obligations.DecodeRunsItsBlockWord := by
  intro s
  rw [exec_decodeBlock, exec, execDecode]
  simp only [runCommand, decodeBody, accept_blk]

theorem exec_decode {s : State} (hs : s.Idle) : exec .decode s =
    .next (showBlock (classify (permute s.blk)) (blockPixels s.params.modtab (permute s.blk)) s) := by
  rw [decodeRunsItsBlockWord s, exec_decodeBlock]
  exact runCommand_showBlock hs _ fun tab => blockPixels tab (permute s.blk)

/-- Settles O18. The state DECODE shows its block in, and the alpha of whatever pixels a block has. -/
theorem decodeIsTotalAndOpaque : Obligations.DecodeIsTotalAndOpaque := by
  intro s hs
  refine ⟨blockPixels s.params.modtab (permute s.blk), ?_, blockPixels_alpha _ _⟩
  rw [exec_decode hs, showBlock, setModeFlags, unknownMode_eq]

/-! ## The ETC1 classes (41_decoder.md R83 to R87) -/

/-- A pixel of an ETC1 word in plain numbers: the endpoint of its sub-block plus the modifier. -/
theorem etc1Pixels_is (tab : ModTab) (flip : Bool) (cw0 cw1 : BitVec 3) (e1 e2 : Rgb) (l m : BitVec 16)
    (k : Fin 16) :
    (firstSubBlock flip k → pixelIs (etc1Pixels tab flip cw0 cw1 e1 e2 l m)[k]
      (e1.r.toNat + tableModifier tab cw0 l m k) (e1.g.toNat + tableModifier tab cw0 l m k)
      (e1.b.toNat + tableModifier tab cw0 l m k)) ∧
    (¬ firstSubBlock flip k → pixelIs (etc1Pixels tab flip cw0 cw1 e1 e2 l m)[k]
      (e2.r.toNat + tableModifier tab cw1 l m k) (e2.g.toNat + tableModifier tab cw1 l m k)
      (e2.b.toNat + tableModifier tab cw1 l m k)) := by
  obtain ⟨hfirst, hsecond⟩ := etc1Pixels_eq tab flip cw0 cw1 e1 e2 l m k
  constructor
  · intro h
    rw [hfirst h]
    exact modulatedPixel_is _ _
  · intro h
    rw [hsecond h]
    exact modulatedPixel_is _ _

theorem exec_blockIndiv {s : State} (hs : s.Idle) (f : IndivFields) : exec (.blockIndiv f) s =
    .next { s with pix := indivPixels s.params.modtab f, mode := .indiv } := by
  rw [exec, execBlockIndiv, runCommand_showBlock hs .indiv fun tab => indivPixels tab f, showBlock_known rfl]

theorem expand4_toInt (v : BitVec 4) : ((expand4 v).toNat : Int) = 17 * v.toNat := by
  rw [expand4_toNat]
  rfl

theorem expand5_toInt (v : BitVec 5) :
    ((expand5 v).toNat : Int) = 8 * (v.toNat : Int) + (v.toNat : Int) / 4 := by
  rw [expand5_toNat]
  rfl

/-- Settles O19. The endpoints of an INDIV word are its 4-bit fields, expanded. -/
theorem indivPixelsFollowFields : Obligations.IndivPixelsFollowFields := by
  intro s f hs
  refine ⟨indivPixels s.params.modtab f, exec_blockIndiv hs f, ?_⟩
  rintro k _ _ rfl rfl
  simpa only [indivPixels, indivEndpoint1, indivEndpoint2, expand4_toInt] using
    etc1Pixels_is s.params.modtab f.flip f.tcw0 f.tcw1 (indivEndpoint1 f) (indivEndpoint2 f) f.selL f.selM k

theorem exec_blockDiff {s : State} (hs : s.Idle) {f : DiffFields} (hf : f.wf = true) : exec (.blockDiff f) s =
    .next { s with pix := diffPixels s.params.modtab f, mode := .diff } := by
  rw [exec, execBlockDiff, if_pos hf, runCommand_showBlock hs .diff fun tab => diffPixels tab f,
    showBlock_known rfl]

theorem diff_wf_iff {f : DiffFields} : f.wf = true ↔
    overflows f.r1 f.dr = false ∧ overflows f.g1 f.dg = false ∧ overflows f.b1 f.db = false := by
  simp [DiffFields.wf, and_assoc]

/-- Settles O20. The first endpoint is the 5-bit fields, expanded, the second their sums with the deltas, which
stay in 0 to 31. -/
theorem diffPixelsFollowFields : Obligations.DiffPixelsFollowFields := by
  intro s f e hs hf he
  refine ⟨diffPixels s.params.modtab f, exec_blockDiff hs hf, ?_⟩
  rintro k _ _ rfl rfl
  obtain ⟨hr, hg, hb⟩ := diff_wf_iff.1 hf
  simpa only [diffPixels, diffEndpoint1, diffEndpoint2, expand5_toInt, diffChannel2_toNat _ _ hr,
    diffChannel2_toNat _ _ hg, diffChannel2_toNat _ _ hb, ← he] using
    etc1Pixels_is s.params.modtab f.flip f.tcw0 f.tcw1 (diffEndpoint1 f) (diffEndpoint2 f) f.selL f.selM k

/-! ## T and H (41_decoder.md R89) -/

theorem exec_blockT {s : State} (hs : s.Idle) {f : TFields} (hf : f.wf = true) : exec (.blockT f) s =
    .next { s with pix := blackPixels, mode := .t, unk := true } := by
  rw [exec, execBlockT, if_pos hf, runCommand_showBlock hs .t fun _ => blackPixels, showBlock_unknown rfl]

theorem exec_blockH {s : State} (hs : s.Idle) {f : HFields} (hf : f.wf = true) : exec (.blockH f) s =
    .next { s with pix := blackPixels, mode := .h, unk := true } := by
  rw [exec, execBlockH, if_pos hf, runCommand_showBlock hs .h fun _ => blackPixels, showBlock_unknown rfl]

/-- Settles O21. Both classes show the one black tile. -/
theorem unknownModesDecodeToBlack : Obligations.UnknownModesDecodeToBlack := fun _ hs =>
  ⟨blackPixels, blackPixels_get, fun _ hf => exec_blockT hs hf, fun _ hf => exec_blockH hs hf⟩

/-! ## PLANAR (41_decoder.md R88) -/

theorem exec_blockPlanar {s : State} (hs : s.Idle) {f : PlanarFields} (hf : f.wf = true) :
    exec (.blockPlanar f) s = .next { s with pix := planarPixels f, mode := .planar } := by
  rw [exec, execBlockPlanar, if_pos hf, runCommand_showBlock hs .planar fun _ => planarPixels f,
    showBlock_known rfl]

/-- A pixel of a PLANAR word in plain numbers: the floored quarter of the planar sum of each channel. -/
theorem planarPixels_is (f : PlanarFields) (k : Fin 16) : pixelIs (planarPixels f)[k]
    (planarValue k (expand6Nat f.ro) (expand6Nat f.rh) (expand6Nat f.rv))
    (planarValue k (expand7Nat f.go) (expand7Nat f.gh) (expand7Nat f.gv))
    (planarValue k (expand6Nat f.bo) (expand6Nat f.bh) (expand6Nat f.bv)) := by
  simp only [planarPixels, Fin.getElem_fin, Vector.getElem_ofFn, planarChannel_eq, expand6_toNat, expand7_toNat]
  exact opaquePixel_is _ _ _

/-- Settles O22. The pixels shown are the planar sums of the expanded fields. -/
theorem planarPixelsFollowFields : Obligations.PlanarPixelsFollowFields := fun _ f hs hf =>
  ⟨planarPixels f, exec_blockPlanar hs hf, planarPixels_is f⟩

/-! ## The step of a ready unit (44_control.md R127) -/

/-- A command word is accepted from its bytes only if it is legal. -/
theorem decodeCommand_of_decode_bytes4 {v : Word} {i : Instr} (h : decode .command (bytes4 v) = .ok (i, [])) :
    decodeCommand v = .ok i := by
  rcases hv : decodeCommand v with e | j
  · simp [decode, bytes4, hv] at h
  · simpa [decode, bytes4, hv] using h

/-- The bytes of a stored word are read as the block word that is permuted from it. -/
theorem decodeBlock_of_decode_bytes8 {d : BlockWord} {i : Instr} (h : decode .block (bytes8 d) = .ok (i, [])) :
    decodeBlock (permute d) = i := by
  simpa [decode, bytes8] using h

theorem step_command {s : State} {v : Word} {i : Instr} {rest : List HostEvent} (hs : s.Ready)
    (hin : s.inputs = .write 0x00#8 v :: rest) (hv : decodeCommand v = .ok i) :
    step s = exec i { s with inputs := rest } := by
  rw [step_cons hin, hostEvent_write_cmd]
  exact commandWrite_legal hs.busy hs.ecode hv

/-- Settles O46. The step is the command's meaning; DECODE's is that of the block word in `BLK`. -/
theorem stepRunsDecodedInstruction : Obligations.StepRunsDecodedInstruction := by
  intro s v i rest hs hin
  refine ⟨fun h => step_command hs hin (decodeCommand_of_decode_bytes4 h), ?_⟩
  rintro rfl h
  calc step s = exec .decode { s with inputs := rest } := step_command hs hin rfl
    _ = exec (decodeBlock (permute s.blk)) { s with inputs := rest } := decodeRunsItsBlockWord _
    _ = exec i { s with inputs := rest } := by
      rw [decodeBlock_of_decode_bytes8 h]

end Sys2Proof.Machine
end

section
/-! START, GATHER and STORE as one step, and the walk they make over an image (42_gatherer.md R100 to R106). -/

namespace Sys2Proof.Machine

/-! ## STORE (42_gatherer.md R104) -/

theorem exec_store_align {s : State} (h : aligned s.curDst 8 = false) :
    exec .store s = .next (raise .align s) :=
  runCommand_raises (body := storeBody) (storeBody_align h)

theorem exec_store_bus {s : State} (ha : aligned s.curDst 8 = true) (h : admitted s.params s.curDst 8 = false) :
    exec .store s = .next (raise .bus s) :=
  runCommand_raises (body := storeBody) (storeBody_bus ha h)

/-- Settles O6. The two checks in their order; past them memory is the old one with one word written. -/
theorem storeWritesEightBytes : Obligations.StoreWritesEightBytes := fun s hs hm =>
  ⟨fun ha => exec_store_align (aligned_false_iff.2 ha),
    fun ha hb => exec_store_bus (aligned_iff.2 ha) hb,
    fun ha hb => ⟨memWrite8 s.mem s.curDst s.blk, exec_store_legal hs ⟨aligned_iff.2 ha, hb⟩,
      wf_memWrite8 hm _ _, readByte_memWrite8_same hm _ _, readByte_memWrite8_other hm _ _⟩⟩

/-! ## START (42_gatherer.md R100) -/

theorem argumentsLegal_iff {s : State} : s.ArgumentsLegal ↔
    s.width.toNat ≠ 0 ∧ s.width.toNat % 4 = 0 ∧ s.src.toNat % 4 = 0 ∧ s.dst.toNat % 8 = 0 := by
  constructor
  · rintro ⟨hw, hsrc, hdst⟩
    obtain ⟨h0, h4⟩ := widthLegal_iff.1 hw
    exact ⟨h0, h4, aligned_iff.1 hsrc, aligned_iff.1 hdst⟩
  · rintro ⟨h0, h4, hsrc, hdst⟩
    exact ⟨widthLegal_iff.2 ⟨h0, h4⟩, aligned_iff.2 hsrc, aligned_iff.2 hdst⟩

/-- START's second test fails on a misaligned `SRC` or `DST`. -/
theorem startBody_misaligned {s : State} (h0 : s.width.toNat ≠ 0) (h4 : s.width.toNat % 4 = 0)
    (h : s.src.toNat % 4 ≠ 0 ∨ s.dst.toNat % 8 ≠ 0) : startBody s = .stop (raise .align s) :=
  startBody_align (widthLegal_iff.2 ⟨h0, h4⟩) (h.imp aligned_false_iff.2 aligned_false_iff.2)

theorem exec_start_raises {s : State} {e : Err} (h : startBody (accept s) = .stop (raise e (accept s))) :
    exec .start s = .next (raise e s) :=
  runCommand_raises h

/-- The first block cursor in plain numbers. -/
theorem initCursor_curDst_eq (s : State) :
    (initCursor s).curDst = BitVec.ofNat 32 (s.dst.toNat + 8 * s.offset.toNat) := by
  apply BitVec.eq_of_toNat_eq
  simp

/-- Settles O8. START's checks in their order; past them the cursor is initialised. -/
theorem startInitialisesCursor : Obligations.StartInitialisesCursor := by
  intro s hs
  refine ⟨fun h => exec_start_raises (startBody_size (widthLegal_false_iff.2 h)),
    fun h0 h4 h => exec_start_raises (startBody_misaligned h0 h4 h), fun h0 h4 hsrc hdst => ?_⟩
  rw [← initCursor_curDst_eq]
  exact execStart_next hs (argumentsLegal_iff.2 ⟨h0, h4, hsrc, hdst⟩)

/-! ## GATHER (42_gatherer.md R101 to R103) -/

theorem exec_gather_raises {s : State} {e : Err} (h : gatherBody (accept s) = .stop (raise e (accept s))) :
    exec .gather s = .next (raise e s) :=
  runCommand_raises h

/-- A pixel of the tile at the cursor, its address in plain numbers. -/
theorem readTile_columns {s : State} {addr : Nat → Nat → Word}
    (h : ∀ c r, addr c r = BitVec.ofNat 32 (s.curSrc.toNat + 4 * (r * s.width.toNat + c))) (k : Fin 16) :
    (readTile s)[k] = transform (s.cfg.getLsbD 0) (memRead4 s.mem (addr (k.val / 4) (k.val % 4))) := by
  rw [readTile_get, tileAddr_eq, h, State.alphaAsLuma]

theorem toNat_eq_width_div {n w : Word} : n.toNat = w.toNat / 4 ↔ n = w / 4#32 := by
  rw [← BitVec.toNat_inj, width_div, tilesPerRow]

/-- The last tile of a block row moves the cursor on to the next block row. -/
theorem advance_lastTile {s : State} (h : (s.tcnt + 1#32).toNat = s.width.toNat / 4) :
    (advance s).curSrc = BitVec.ofNat 32 (s.curSrc.toNat + 16 + 12 * s.width.toNat) ∧
      (advance s).tcnt = 0#32 := by
  rw [advance_eq, if_pos (toNat_eq_width_div.1 h)]
  refine ⟨BitVec.eq_of_toNat_eq ?_, rfl⟩
  simp

/-- Any other tile moves the cursor one tile to the right. -/
theorem advance_innerTile {s : State} (h : (s.tcnt + 1#32).toNat ≠ s.width.toNat / 4) :
    (advance s).curSrc = BitVec.ofNat 32 (s.curSrc.toNat + 16) ∧ (advance s).tcnt = s.tcnt + 1#32 := by
  rw [advance_eq, if_neg (mt toNat_eq_width_div.2 h)]
  refine ⟨BitVec.eq_of_toNat_eq ?_, rfl⟩
  simp

/-- What GATHER leaves: the tile, and the cursor that `advance` gives. -/
theorem advance_readTile (s : State) : advance { s with tile := readTile s } =
    { s with tile := readTile s, curSrc := (advance s).curSrc, tcnt := (advance s).tcnt } := by
  rw [advance_eq, advance_eq]
  split <;> rfl

/-- Settles O9. The three checks in their order; past them the tile read and the cursor advanced. -/
theorem gatherReadsTileAndAdvances : Obligations.GatherReadsTileAndAdvances := by
  intro s hs addr haddr
  have hbus := tileAdmitted_iff_columns haddr
  refine ⟨fun h => exec_gather_raises (gatherBody_size (widthLegal_false_iff.2 h)),
    fun h0 h4 ha => exec_gather_raises
      (gatherBody_align (widthLegal_iff.2 ⟨h0, h4⟩) (aligned_false_iff.2 ha)),
    fun h0 h4 ha hb => ?_, fun h0 h4 ha hb => ?_⟩
  · obtain ⟨c, r, hc, hr, hno⟩ := hb
    have hrefused : s.tileAdmitted = false :=
      Bool.eq_false_iff.2 fun hall => Bool.eq_false_iff.1 hno (hbus.1 hall c r hc hr)
    exact exec_gather_raises (gatherBody_bus (widthLegal_iff.2 ⟨h0, h4⟩) (aligned_iff.2 ha) hrefused)
  · have hlegal : s.GatherLegal := ⟨widthLegal_iff.2 ⟨h0, h4⟩, aligned_iff.2 ha, hbus.2 hb⟩
    refine ⟨readTile s, (advance s).curSrc, (advance s).tcnt,
      (execGather_next hs hlegal).trans (congrArg _ (advance_readTile s)), ?_,
      advance_lastTile, advance_innerTile⟩
    rintro k _ rfl
    rw [readTile_columns haddr]
    constructor <;> intro hcfg <;> rw [hcfg]
    · exact transform_rgba _
    · exact transform_alphaAsLuma _

/-! ## Sequences of commands -/

theorem runCommands_cons {i : Instr} {s u : State} (h : exec i s = .next u) (hu : u.halted = false)
    (rest : List Instr) : runCommands (i :: rest) s = runCommands rest u := by
  rw [runCommands, h]
  simp [hu]

theorem runCommands_halted {i : Instr} {s u : State} (h : exec i s = .next u) (hu : u.halted = true)
    (rest : List Instr) : runCommands (i :: rest) s = .next u := by
  rw [runCommands, h]
  simp [hu]

/-- A sequence that leaves a unit unhalted has done its first command and gone on from there. -/
theorem runCommands_cons_go {i : Instr} {rest : List Instr} {s t : State}
    (h : runCommands (i :: rest) s = .next t) (ht : t.halted = false) :
    ∃ u, exec i s = .next u ∧ u.halted = false ∧ runCommands rest u = .next t := by
  rcases hi : exec i s with u | r | r
  · cases hu : u.halted
    · exact ⟨u, rfl, hu, by rw [← runCommands_cons hi hu rest, h]⟩
    · rw [runCommands_halted hi hu, Host.Outcome.next.injEq] at h
      rw [h, ht] at hu
      cases hu
  · simp [runCommands, hi] at h
  · simp [runCommands, hi] at h

theorem raise_halted {e : Err} (he : e ≠ .none) (s : State) : (raise e s).halted = true :=
  halted_iff.2 he

theorem not_unhalted_raise {e : Err} (he : e ≠ .none) {s : State} (h : (raise e s).halted = false) : False :=
  Bool.false_ne_true (h.symm.trans (raise_halted he s))

/-! ## The walk (42_gatherer.md R106) -/

/-- A START that leaves a unit unhalted has gone through. -/
theorem exec_start_go {s t : State} (hs : s.Idle) (h : exec .start s = .next t) (ht : t.halted = false) :
    s.ArgumentsLegal ∧ t = initCursor s := by
  rcases startBody_cases (accept s) with ⟨hl, -⟩ | ⟨e, he, hbody⟩
  · have hlegal : s.ArgumentsLegal := { hl with }
    exact ⟨hlegal, (Host.Outcome.next.inj ((execStart_next hs hlegal).symm.trans h)).symm⟩
  · rw [exec_start_raises hbody, Host.Outcome.next.injEq] at h
    subst h
    exact (not_unhalted_raise (by rcases he with rfl | rfl <;> decide) ht).elim

/-- GATHERs that all go through walk on, tile by tile. -/
theorem runCommands_gather_atTile {src : Word} {t : State} (ht : t.halted = false) (n : Nat) {m : Nat} {s : State}
    (hs : s.Idle) (hw : s.widthLegal = true) (hm : s.AtTile src m)
    (h : runCommands (List.replicate n .gather) s = .next t) : t.width = s.width ∧ t.AtTile src (m + n) := by
  induction n generalizing m s with
  | zero =>
    rw [← Host.Outcome.next.inj h]
    exact ⟨rfl, hm⟩
  | succ n ih =>
    obtain ⟨u, hexec, hu, hrest⟩ := runCommands_cons_go h ht
    obtain ⟨-, rfl⟩ := execGather_go hs hexec hu
    have hnext := advance_atTile (s := { s with tile := readTile s }) hw { hm with }
    rw [advance_readTile] at hrest hnext
    rw [Nat.add_comm n, ← Nat.add_assoc]
    exact ih (s := { s with tile := readTile s, curSrc := (advance s).curSrc, tcnt := (advance s).tcnt })
      { hs with } hw hnext hrest

/-- Settles O10. START puts the cursor at tile 0, each GATHER moves it one tile on, and at tile `n` the addresses
are those of tile `n`. -/
theorem walkHasClosedForm : Obligations.WalkHasClosedForm := by
  intro s t n hs h ht
  obtain ⟨u, hexec, hu, hrest⟩ := runCommands_cons_go h ht
  obtain ⟨hl, rfl⟩ := exec_start_go hs.toIdle hexec hu
  obtain ⟨hwidth, hat⟩ := runCommands_gather_atTile (s := initCursor s) ht n { hs with } hl.width
    initCursor_atTile hrest
  have hw : t.widthLegal = true := by rw [State.widthLegal, hwidth]; exact hl.width
  obtain ⟨hcur, htcnt⟩ := id hat
  have haddr := tileAddr_of_atTile hw hat
  rw [initCursor_width] at hwidth
  rw [Nat.zero_add, hwidth] at hcur htcnt haddr
  exact ⟨htcnt, hcur, haddr⟩

end Sys2Proof.Machine
end

section
/-! PROCESS: its iterations, the memory and the errors it leaves, and the host sequence it stands for
(42_gatherer.md R105 to R110). -/

namespace Sys2Proof.Machine

/-! ## What stays the same over the iterations -/

theorem encoded_with (s : State) (src off blk r : Word) :
    encoded { s with src := src, offset := off, blocks := blk, rem := r } =
      { encoded s with src := src, offset := off, blocks := blk, rem := r } :=
  congrArg encodeBody (advance_with { s with tile := readTile s } src off blk r)

/-- Whether an iteration goes through does not depend on the arguments of the command. -/
theorem State.BlockLegal.withArguments {s : State} (h : s.BlockLegal) (src off blk r : Word) :
    State.BlockLegal { s with src := src, offset := off, blocks := blk, rem := r } where
  gather := { h.gather with }
  store := by
    rw [encoded_with]
    exact { h.store with }

theorem encoded_ksel (s : State) : (encoded s).ksel = s.ksel := by rw [encoded_frame s]

theorem encoded_params (s : State) : (encoded s).params = s.params := by rw [encoded_frame s]

theorem encoded_rem (s : State) : (encoded s).rem = s.rem := by rw [encoded, encodeBody, advance_frame]

theorem processedN_ksel (n : Nat) (s : State) : (processedN n s).ksel = s.ksel := by rw [processedN_frame n s]

theorem processedN_dst (n : Nat) (s : State) : (processedN n s).dst = s.dst := by rw [processedN_frame n s]

theorem processedN_cfg (n : Nat) (s : State) : (processedN n s).cfg = s.cfg := by rw [processedN_frame n s]

theorem processedN_params (n : Nat) (s : State) : (processedN n s).params = s.params := by
  rw [processedN_frame n s]

theorem processedN_ecode (n : Nat) (s : State) : (processedN n s).ecode = s.ecode := by
  rw [processedN_frame n s]

/-- What the first `n` iterations of a PROCESS leave of an idle unit. -/
theorem complete_processedN {s : State} (hs : s.Idle) (n : Nat) :
    complete (processedN n (loopStart s)) = { s with
      ksel := s.kernelId, curSrc := (processedN n (loopStart s)).curSrc, curDst := s.rangeAddr n,
      tcnt := (processedN n (loopStart s)).tcnt, rem := s.blocks - BitVec.ofNat 32 n,
      tile := (processedN n (loopStart s)).tile, blk := (processedN n (loopStart s)).blk,
      mem := (processedN n (loopStart s)).mem } := by
  have hframe := processedN_frame n (loopStart s)
  have hdst := processedN_loopStart_curDst n s
  have hrem := processedN_rem n (loopStart s)
  rw [State.BlockFrame, hdst, hrem] at hframe
  rw [hframe, ← complete_of_idle hs]
  rfl

/-! ## The walk of the iterations (42_gatherer.md R106) -/

/-- Every iteration starts at its own tile. -/
theorem processedN_loopStart_atTile {s : State} (hw : s.widthLegal = true) (n : Nat) :
    (processedN n (loopStart s)).AtTile s.src n := by
  have hat := processedN_atTile n (s := loopStart s) hw (loopStart_atTile s)
  rwa [Nat.zero_add] at hat

theorem processedN_loopStart_widthLegal {s : State} (hw : s.widthLegal = true) (n : Nat) :
    (processedN n (loopStart s)).widthLegal = true := by
  rw [State.widthLegal, processedN_width]
  exact hw

theorem processedN_loopStart_tileAddr {s : State} (hw : s.widthLegal = true) (n : Nat) (k : Fin 16) :
    (processedN n (loopStart s)).tileAddr k = walkPixelAddr s.src s.width n k := by
  rw [tileAddr_of_atTile (processedN_loopStart_widthLegal hw n) (processedN_loopStart_atTile hw n), processedN_width]
  rfl

theorem State.AtTile.curSrc_aligned {s : State} {src : Word} {n : Nat} (h : s.AtTile src n)
    (hsrc : aligned src 4 = true) : aligned s.curSrc 4 = true := by
  rw [aligned_iff] at *
  rw [h.curSrc, BitVec.toNat_ofNat, Nat.mul_assoc]
  omega

/-! ## No blocks, and START's errors (42_gatherer.md R105, R108) -/

theorem exec_process_raises {s : State} {e : Err} (h : startBody (accept s) = .stop (raise e (accept s))) :
    exec .process s = .next (raise e s) :=
  runCommand_raises (body := processBody) (by rw [processBody, h, andThen_stop])

/-- Settles O12. START's errors are PROCESS's; with no blocks the loop is not entered. -/
theorem processWithoutBlocks : Obligations.ProcessWithoutBlocks := by
  intro s hs
  refine ⟨fun h => exec_process_raises (startBody_size (widthLegal_false_iff.2 h)),
    fun h0 h4 h => exec_process_raises (startBody_misaligned h0 h4 h), fun h0 h4 hsrc hdst hb => ?_⟩
  have hblocks : s.blocks.toNat = 0 := by rw [hb]; rfl
  have hgo := execProcess_go (argumentsLegal_iff.2 ⟨h0, h4, hsrc, hdst⟩) (by rw [hblocks]; simp)
  rw [hblocks, complete_processedN hs] at hgo
  simpa [exec, State.rangeAddr, processedN, loopStart, hb] using hgo

/-! ## The host sequence (42_gatherer.md R105) -/

/-- How a piece of pseudocode ends, with another value in `REM`. -/
def Flow.withRem (r : Word) : Flow → Flow
  | .go s => .go { s with rem := r }
  | .stop s => .stop { s with rem := r }

theorem advance_withRem (s : State) (r : Word) : advance { s with rem := r } = { advance s with rem := r } := by
  simp only [advance_eq]
  split <;> rfl

theorem advance_accept (s : State) : advance (accept s) = accept (advance s) := by
  simp only [advance_eq, accept]
  split <;> rfl

/-- GATHER does not look at `REM`. -/
theorem gatherBody_withRem (s : State) (r : Word) :
    gatherBody { s with rem := r } = (gatherBody s).withRem r := by
  cases hw : s.widthLegal
  · rw [gatherBody_size hw]
    exact gatherBody_size hw
  cases ha : aligned s.curSrc 4
  · rw [gatherBody_align hw ha]
    exact gatherBody_align hw ha
  cases hb : s.tileAdmitted
  · rw [gatherBody_bus hw ha hb]
    exact gatherBody_bus hw ha hb
  · rw [gatherBody_go ⟨hw, ha, hb⟩]
    rw [gatherBody_go (s := { s with rem := r }) ⟨hw, ha, hb⟩]
    exact congrArg Flow.go (advance_withRem { s with tile := readTile s } r)

/-- STORE does not look at `REM`. -/
theorem storeBody_withRem (s : State) (r : Word) :
    storeBody { s with rem := r } = (storeBody s).withRem r := by
  cases ha : aligned s.curDst 8
  · rw [storeBody_align ha]
    exact storeBody_align ha
  cases hb : admitted s.params s.curDst 8
  · rw [storeBody_bus ha hb]
    exact storeBody_bus ha hb
  · rw [storeBody_go ⟨ha, hb⟩]
    exact storeBody_go ⟨ha, hb⟩

/-- The unit in PROCESS's loop, with `r` blocks to go, where the host sequence has left the unit `s`. -/
def State.inLoop (s : State) (r : Word) : State := { accept s with rem := r }

theorem advance_inLoop (s : State) (r : Word) : advance (s.inLoop r) = (advance s).inLoop r := by
  rw [State.inLoop, advance_withRem, advance_accept, State.inLoop]

theorem encoded_inLoop (s : State) (r : Word) : encoded (s.inLoop r) = (encoded s).inLoop r :=
  congrArg encodeBody (advance_inLoop { s with tile := readTile s } r)

/-- An iteration that goes through leaves the loop where the three commands leave the host, one block further. -/
theorem processBlock_inLoop_go {s : State} (hg : s.GatherLegal) (hs : (encoded s).BlockAccessLegal) (r : Word) :
    processBlock (s.inLoop r) = .go ((stored (encoded s)).inLoop (r - 1#32)) := by
  have hlegal : (s.inLoop r).BlockLegal := ⟨{ hg with }, by rw [encoded_inLoop]; exact { hs with }⟩
  rw [processBlock_go hlegal, processed, encoded_inLoop]
  rfl

theorem processBlock_inLoop_gather {s : State} {e : Err}
    (h : gatherBody (accept s) = .stop (raise e (accept s))) (r : Word) :
    processBlock (s.inLoop r) = .stop { raise e s with rem := r } := by
  rw [processBlock, State.inLoop, gatherBody_withRem, h]
  rfl

theorem processBlock_inLoop_store {s : State} {e : Err} (hg : s.GatherLegal)
    (h : storeBody (accept (encoded s)) = .stop (raise e (accept (encoded s)))) (r : Word) :
    processBlock (s.inLoop r) = .stop { raise e (encoded s) with rem := r } := by
  have hg' : (s.inLoop r).GatherLegal := { hg with }
  rw [processBlock, gatherBody_go hg', andThen_go, ← encoded, encoded_inLoop, State.inLoop, storeBody_withRem, h]
  rfl

theorem encoded_ready {s : State} (hs : s.Ready) : (encoded s).Ready := by
  rw [encoded_frame s]
  exact { hs with }

/-- GATHER and ENCODE, when GATHER goes through. -/
theorem runCommands_gather_encode {s : State} (hs : s.Ready) (hg : s.GatherLegal) (rest : List Instr) :
    runCommands (.gather :: .encode :: rest) s = runCommands rest (encoded s) := by
  have hgathered : (advance { s with tile := readTile s }).Ready := by
    rw [advance_readTile]
    exact { hs with }
  rw [runCommands_cons (i := .gather) (execGather_next hs.toIdle hg) (not_halted_iff.2 hgathered.ecode),
    runCommands_cons (i := .encode) (execEncode_next hgathered.toIdle) (not_halted_iff.2 hgathered.ecode), ← encoded]

/-- The commands of the blocks and PROCESS's loop end alike but for `REM`. -/
theorem runCommands_blocks {n : Nat} (hn : n < 2 ^ 32) {s : State} (hs : s.Ready) :
    ∃ (t : State) (r : Word), runCommands (blockCommands n) s = .next t ∧
      (processLoop n (s.inLoop (BitVec.ofNat 32 n))).finish = .next { t with rem := r } ∧
      (t.halted = false → r = 0#32) := by
  induction n generalizing s with
  | zero =>
    have hend : complete (s.inLoop 0#32) = { s with rem := 0#32 } := by
      rw [← complete_of_idle hs.toIdle]
      rfl
    exact ⟨s, 0#32, rfl, congrArg _ hend, fun _ => rfl⟩
  | succ n ih =>
    have hrem : (s.inLoop (BitVec.ofNat 32 (n + 1))).rem ≠ 0#32 := by
      rw [State.inLoop, ne_eq, ← BitVec.toNat_inj, BitVec.toNat_ofNat, Nat.mod_eq_of_lt hn]
      simp
    have hcount : BitVec.ofNat 32 (n + 1) - 1#32 = BitVec.ofNat 32 n := by
      rw [BitVec.ofNat_add, BitVec.add_sub_cancel]
    rw [processLoop, if_neg hrem, blockCommands]
    rcases gatherBody_cases (accept s) with ⟨hg, -⟩ | ⟨e, he, hstop⟩
    · have hg : s.GatherLegal := { hg with }
      have hencoded := encoded_ready hs
      rw [runCommands_gather_encode hs hg]
      rcases storeBody_cases (accept (encoded s)) with ⟨hb, -⟩ | ⟨e, he, hstop⟩
      · have hb : (encoded s).BlockAccessLegal := { hb with }
        rw [processBlock_inLoop_go hg hb, hcount, andThen_go,
          runCommands_cons (exec_store_legal hencoded.toIdle hb) (not_halted_iff.2 hencoded.ecode)]
        exact ih (by omega) (s := stored (encoded s)) { hencoded with }
      · have hne : e ≠ .none := by rcases he with rfl | rfl <;> decide
        rw [processBlock_inLoop_store hg hstop]
        exact ⟨raise e (encoded s), _,
          runCommands_halted (i := .store) (runCommand_raises hstop) (raise_halted hne _) _, rfl,
          fun h => (not_unhalted_raise hne h).elim⟩
    · have hne : e ≠ .none := by rcases he with rfl | rfl | rfl <;> decide
      rw [processBlock_inLoop_gather hstop]
      exact ⟨raise e s, _, runCommands_halted (exec_gather_raises hstop) (raise_halted hne _) _, rfl,
        fun h => (not_unhalted_raise hne h).elim⟩

/-- Settles O11. START raises in both or goes through in both; after SELECT the loop is the blocks' commands. -/
theorem processEqualsHostSequence : Obligations.ProcessEqualsHostSequence := by
  intro s hs
  rcases processBody_cases (accept s) with ⟨e, he, hstart, -⟩ | ⟨hl, hbody⟩
  · have hne : e ≠ .none := by rcases he with rfl | rfl <;> decide
    exact ⟨raise e s, s.rem, runCommands_halted (exec_start_raises hstart) (raise_halted hne s) _,
      exec_process_raises hstart, fun h => (not_unhalted_raise hne h).elim⟩
  · have hl : s.ArgumentsLegal := { hl with }
    have hready : (selectBody (initCursor s)).Ready := { hs with }
    obtain ⟨t, r, hrun, hloop, hr⟩ := runCommands_blocks s.blocks.isLt hready
    refine ⟨t, r, ?_, ?_, hr⟩
    · rw [runCommands_cons (i := .start) (execStart_next hs.toIdle hl) (not_halted_iff.2 hs.ecode),
        runCommands_cons (i := .select) (execSelect_next (s := initCursor s) { hs with }) (not_halted_iff.2 hs.ecode),
        hrun]
    · rw [BitVec.ofNat_toNat, BitVec.setWidth_eq] at hloop
      exact (congrArg Flow.finish hbody).trans hloop

end Sys2Proof.Machine
end

section
/-! What PROCESS leaves: where it may store, what an error keeps, what its words are, and how it splits
(42_gatherer.md R104 to R110). -/

namespace Sys2Proof.Machine

/-! ## Every store in its range (42_gatherer.md R104, R110) -/

/-- However PROCESS ends, memory is what its first iterations, up to `BLOCKS` of them, have left. -/
theorem exec_process_mem {s t : State} (h : exec .process s = .next t) :
    ∃ k ≤ s.blocks.toNat, t.mem = (processedN k (loopStart s)).mem := by
  rcases execProcess_cases s with ⟨e, -, hend⟩ | ⟨-, -, hend⟩ | ⟨-, k, e, u, hk, -, -, hu, hend⟩ <;>
    obtain rfl := Host.Outcome.next.inj (hend.symm.trans h)
  · exact ⟨0, Nat.zero_le _, rfl⟩
  · exact ⟨s.blocks.toNat, le_rfl, rfl⟩
  · refine ⟨k, hk.le, ?_⟩
    rcases hu with rfl | rfl
    · rfl
    · exact encoded_mem _

/-- A byte of none of the first `n` words of the range is as it was after `n` iterations. -/
theorem readByte_processedN_loopStart {s : State} (hm : Memory.wf s.mem = true) {n a : Nat}
    (ha : ∀ i, i < n → ¬ inBytes (s.rangeAddr i) 8 a) :
    readByte (processedN n (loopStart s)).mem a = readByte s.mem a :=
  readByte_processedN (s := loopStart s) hm n ha

/-- Settles O14. What memory changes are stores of iterations, each in its own word of the range. -/
theorem processStoresOnlyInItsRange : Obligations.ProcessStoresOnlyInItsRange := by
  intro s t hm h a ha
  obtain ⟨k, hk, hmem⟩ := exec_process_mem h
  rw [hmem]
  exact readByte_processedN_loopStart hm fun i hi => ha i (by omega)

/-! ## The same iterations with other arguments -/

/-- The iterations of a PROCESS of another number of blocks differ in `BLOCKS` and `REM` alone. -/
theorem processedN_loopStart_blocks (n : Nat) (s : State) (b : Word) :
    processedN n (loopStart { s with blocks := b }) =
      { processedN n (loopStart s) with blocks := b, rem := b - BitVec.ofNat 32 n } := by
  have hframe := processedN_frame n (loopStart s)
  refine (processedN_with n (loopStart s) s.src s.offset b b).trans ?_
  rw [hframe]
  rfl

theorem blockLegal_loopStart_blocks {n : Nat} {s : State} (h : (processedN n (loopStart s)).BlockLegal) (b : Word) :
    (processedN n (loopStart { s with blocks := b })).BlockLegal := by
  rw [processedN_loopStart_blocks]
  exact h.withArguments _ _ b _

/-- A PROCESS of `n` blocks goes through when its first `n` iterations do. -/
theorem exec_process_blocks {s : State} {n : Nat} (hn : n < 2 ^ 32) (hl : s.ArgumentsLegal)
    (h : ∀ i, i < n → (processedN i (loopStart s)).BlockLegal) :
    exec .process { s with blocks := BitVec.ofNat 32 n } =
      .next (complete { processedN n (loopStart s) with blocks := BitVec.ofNat 32 n, rem := 0#32 }) := by
  have htoNat : (BitVec.ofNat 32 n).toNat = n := by rw [BitVec.toNat_ofNat, Nat.mod_eq_of_lt hn]
  have hgo := execProcess_go (s := { s with blocks := BitVec.ofNat 32 n }) { hl with }
    (by rw [htoNat]; exact fun i hi => blockLegal_loopStart_blocks (h i hi) _)
  rw [htoNat, processedN_loopStart_blocks, BitVec.sub_self] at hgo
  exact hgo

/-- A PROCESS that leaves a unit unhalted has gone through. -/
theorem exec_process_go {s t : State} (h : exec .process s = .next t) (ht : t.halted = false) :
    s.ArgumentsLegal ∧ (∀ i, i < s.blocks.toNat → (processedN i (loopStart s)).BlockLegal) ∧
      t = complete (processedN s.blocks.toNat (loopStart s)) := by
  rcases execProcess_cases s with ⟨e, he, hend⟩ | ⟨hl, hb, hend⟩ | ⟨-, k, e, u, -, -, he, -, hend⟩ <;>
    obtain rfl := Host.Outcome.next.inj (hend.symm.trans h)
  · exact (not_unhalted_raise (by rcases he with rfl | rfl <;> decide) ht).elim
  · exact ⟨hl, hb, rfl⟩
  · exact (not_unhalted_raise (by rcases he with rfl | rfl | rfl <;> decide) ht).elim

/-! ## Errors (42_gatherer.md R105) -/

/-- An `ERR_BUS` of PROCESS comes from its first iteration that does not go through. -/
theorem exec_process_bus {s t : State} (hs : s.Ready) (h : exec .process s = .next t) (ht : t.ecode = .bus) :
    s.ArgumentsLegal ∧ ∃ k u, k < s.blocks.toNat ∧ (∀ i, i < k → (processedN i (loopStart s)).BlockLegal) ∧
      (u = processedN k (loopStart s) ∨ u = encoded (processedN k (loopStart s))) ∧ t = raise .bus u := by
  rcases execProcess_cases s with ⟨e, he, hend⟩ | ⟨-, -, hend⟩ | ⟨hl, k, e, u, hk, hb, -, hu, hend⟩ <;>
    obtain rfl := Host.Outcome.next.inj (hend.symm.trans h)
  · rw [raise_ecode] at ht
    rcases he with rfl | rfl <;> cases ht
  · have hnone : (complete (processedN s.blocks.toNat (loopStart s))).ecode = .none :=
      (processedN_ecode _ (loopStart s)).trans hs.ecode
    rw [hnone] at ht
    cases ht
  · rw [raise_ecode] at ht
    exact ⟨hl, k, u, hk, hb, hu, by rw [ht]⟩

/-- Settles O15. The blocks before the iteration that raised are the iterations of a PROCESS that goes through;
the raise, before or after the ENCODE, keeps memory, `KSEL`, `REM` and `CUR_DST`. -/
theorem processErrorKeepsStoredBlocks : Obligations.ProcessErrorKeepsStoredBlocks := by
  intro s t hs h ht
  obtain ⟨hl, k, u, hk, hb, hu, rfl⟩ := exec_process_bus hs h ht
  have hrem := processedN_rem k (loopStart s)
  have hdst := processedN_loopStart_curDst k s
  refine ⟨k, _, hk, exec_process_blocks (by omega) hl hb, ?_, ?_⟩
  · exact not_halted_iff.2 ((processedN_ecode _ (loopStart s)).trans hs.ecode)
  · rcases hu with rfl | rfl
    · exact ⟨rfl, rfl, hrem, hdst⟩
    · exact ⟨encoded_mem _, encoded_ksel _, (encoded_rem _).trans hrem, (encoded_curDst _).trans hdst⟩

/-! ## Two parts (42_gatherer.md R107, R110) -/

/-- The state in which the second of two PROCESSes begins: the first has done `n` blocks, and the arguments name the
block row and the word it stopped at. -/
def restarted (s : State) (n : Nat) (b : Word) : State :=
  { complete (processedN n (loopStart s)) with
    src := (processedN n (loopStart s)).curSrc, offset := s.offset + BitVec.ofNat 32 n, blocks := b, rem := 0#32 }

/-- After whole block rows the cursor stands at the first pixel of the next one. -/
theorem processedN_loopStart_blockRow {s : State} {n : Nat} (hw : s.widthLegal = true)
    (hn : n % tilesPerRow s.width = 0) :
    (processedN n (loopStart s)).curSrc =
        s.src + BitVec.ofNat 32 (16 * s.width.toNat * (n / tilesPerRow s.width)) ∧
      (processedN n (loopStart s)).tcnt = 0#32 := by
  obtain ⟨hcur, htcnt⟩ := processedN_loopStart_atTile hw n
  have hwidth : (processedN n (loopStart s)).width = s.width := processedN_width n (loopStart s)
  rw [hwidth, hn] at hcur htcnt
  refine ⟨hcur.trans (BitVec.eq_of_toNat_eq ?_), BitVec.eq_of_toNat_eq htcnt⟩
  simp

/-- The word a second PROCESS begins with is the one the first stopped at. -/
theorem restarted_curDst (s : State) (n : Nat) :
    s.dst + 8#32 * (s.offset + BitVec.ofNat 32 n) = s.rangeAddr n := by
  rw [State.rangeAddr, BitVec.mul_add, BitVec.add_assoc]

/-- At a block row the second PROCESS enters its loop where the first left it. -/
theorem loopStart_restarted {s : State} {n : Nat} (hs : s.Idle) (hw : s.widthLegal = true)
    (hn : n % tilesPerRow s.width = 0) (b : Word) :
    loopStart (restarted s n b) = { processedN n (loopStart s) with
      src := (processedN n (loopStart s)).curSrc, offset := s.offset + BitVec.ofNat 32 n, blocks := b,
      rem := b } := by
  obtain ⟨-, htcnt⟩ := processedN_loopStart_blockRow hw hn
  have hframe := processedN_frame n (loopStart s)
  rw [State.BlockFrame, processedN_loopStart_curDst, htcnt, ← restarted_curDst] at hframe
  rw [loopStart_frame, restarted, hframe, loopStart_frame s, hs.todo]
  rfl

/-- The iterations of the second PROCESS go on with those of the first. -/
theorem processedN_restarted {s : State} {n : Nat} (hs : s.Idle) (hw : s.widthLegal = true)
    (hn : n % tilesPerRow s.width = 0) (b : Word) (i : Nat) :
    processedN i (loopStart (restarted s n b)) = { processedN (n + i) (loopStart s) with
      src := (processedN n (loopStart s)).curSrc, offset := s.offset + BitVec.ofNat 32 n, blocks := b,
      rem := b - BitVec.ofNat 32 i } := by
  rw [loopStart_restarted hs hw hn, processedN_with, processedN_add]

theorem restarted_argumentsLegal {s : State} (hl : s.ArgumentsLegal) (n : Nat) (b : Word) :
    (restarted s n b).ArgumentsLegal where
  width := processedN_loopStart_widthLegal hl.width n
  src := (processedN_loopStart_atTile hl.width n).curSrc_aligned hl.src
  dst := by
    rw [show (restarted s n b).dst = s.dst from processedN_dst n (loopStart s)]
    exact hl.dst

/-- The second PROCESS, when all the iterations of both go through. -/
theorem exec_process_restarted {s : State} {n m : Nat} (hs : s.Idle) (hl : s.ArgumentsLegal) (hm : m < 2 ^ 32)
    (hn : n % tilesPerRow s.width = 0) (hb : ∀ i, i < n + m → (processedN i (loopStart s)).BlockLegal) :
    exec .process (restarted s n (BitVec.ofNat 32 m)) =
      .next (complete { processedN (n + m) (loopStart s) with
        src := (processedN n (loopStart s)).curSrc, offset := s.offset + BitVec.ofNat 32 n,
        blocks := BitVec.ofNat 32 m, rem := 0#32 }) := by
  have hgo := exec_process_blocks hm (restarted_argumentsLegal hl n (BitVec.ofNat 32 m)) fun i hi => by
    rw [processedN_restarted hs hl.width hn]
    exact (hb (n + i) (by omega)).withArguments _ _ _ _
  rw [processedN_restarted hs hl.width hn] at hgo
  exact hgo

/-- Settles O16. All iterations go through; the first PROCESS does the first `n` of them and stops at a block row,
where the second goes on with the others. -/
theorem processSplitsAtBlockRows : Obligations.ProcessSplitsAtBlockRows := by
  rintro s t u n m hs hnm hn hu huhalt ht _ rfl
  obtain ⟨hl, hb, -⟩ := exec_process_go hu huhalt
  have hl : s.ArgumentsLegal := { hl with }
  have hb (i : Nat) (hi : i < n + m) : (processedN i (loopStart s)).BlockLegal :=
    blockLegal_loopStart_blocks (s := { s with blocks := BitVec.ofNat 32 (n + m) })
      (hb i (by rw [BitVec.toNat_ofNat, Nat.mod_eq_of_lt hnm]; exact hi)) s.blocks
  rw [exec_process_blocks hnm hl hb] at hu
  rw [exec_process_blocks (by omega) hl fun i hi => hb i (by omega)] at ht
  obtain rfl := Host.Outcome.next.inj hu
  obtain rfl := Host.Outcome.next.inj ht
  rw [← (processedN_loopStart_blockRow hl.width hn).1]
  exact exec_process_restarted hs.toIdle hl (by omega) hn hb

end Sys2Proof.Machine
end

section
/-! The words a PROCESS writes when nothing refuses or disturbs it (42_gatherer.md R110). -/

namespace Sys2Proof.Machine

/-! ## The range of words -/

theorem rangeAddr_toNat (s : State) (n : Nat) :
    (s.rangeAddr n).toNat = ((s.dst + 8#32 * s.offset).toNat + 8 * n) % 2 ^ 32 := by
  simp [State.rangeAddr, BitVec.toNat_add, BitVec.toNat_mul]

theorem rangeAddr_aligned {s : State} (hd : aligned s.dst 8 = true) (n : Nat) : aligned (s.rangeAddr n) 8 = true :=
  aligned_add_words (aligned_add_words hd _) _

theorem rangeAddr_add (s : State) (n i : Nat) : s.rangeAddr n + 8#32 * BitVec.ofNat 32 i = s.rangeAddr (n + i) := by
  rw [State.rangeAddr, State.rangeAddr, BitVec.ofNat_add, BitVec.mul_add, BitVec.add_assoc]

/-- `2^29` words cover the address space. -/
theorem exists_inBytes_rangeAddr {s : State} (hd : aligned s.dst 8 = true) {a : Nat} (ha : a < 2 ^ 32) :
    ∃ m < 2 ^ 29, inBytes (s.rangeAddr m) 8 a := by
  have hbase := aligned_iff.1 (aligned_add_words hd s.offset)
  have hlt := (s.dst + 8#32 * s.offset).isLt
  refine ⟨(a + 2 ^ 32 - (s.dst + 8#32 * s.offset).toNat) % 2 ^ 32 / 8, by omega, ?_⟩
  rw [inBytes, rangeAddr_toNat]
  omega

/-- Fewer words than that share no byte. -/
theorem not_inBytes_rangeAddr {s : State} (hd : aligned s.dst 8 = true) {m n a : Nat} (hm : m < 2 ^ 29)
    (hn : n < 2 ^ 29) (hne : m ≠ n) (h : inBytes (s.rangeAddr m) 8 a) : ¬ inBytes (s.rangeAddr n) 8 a := by
  have hbase := aligned_iff.1 (aligned_add_words hd s.offset)
  rw [inBytes, rangeAddr_toNat] at h ⊢
  omega

/-- No byte of a source pixel is a byte of a destination word. -/
def State.SourceApart (s : State) : Prop :=
  ∀ m n i, m < s.blocks.toNat → n < s.blocks.toNat → i < 4 → ∀ k : Fin 16,
    ¬ inBytes (s.rangeAddr m) 8 ((walkPixelAddr s.src s.width n k).toNat + i)

/-- A range that leaves out a source byte does not wrap onto itself. -/
theorem State.SourceApart.blocks_le {s : State} (h : s.SourceApart) (hd : aligned s.dst 8 = true) :
    s.blocks.toNat ≤ 2 ^ 29 := by
  by_contra hlong
  obtain ⟨m, hm, hin⟩ := exists_inBytes_rangeAddr hd (walkPixelAddr s.src s.width 0 0).isLt
  exact h m 0 0 (by omega) (by omega) (by omega) 0 hin

/-! ## One iteration -/

/-- An iteration goes through when the accesses of its tile and its word are admitted. -/
theorem blockLegal_of_admitted {s : State} (hl : s.ArgumentsLegal) {n : Nat}
    (hword : admitted s.params (s.rangeAddr n) 8 = true)
    (htile : ∀ k : Fin 16, admitted s.params (walkPixelAddr s.src s.width n k) 4 = true) :
    (processedN n (loopStart s)).BlockLegal := by
  have hparams : (processedN n (loopStart s)).params = s.params := processedN_params n (loopStart s)
  refine ⟨⟨processedN_loopStart_widthLegal hl.width n,
    (processedN_loopStart_atTile hl.width n).curSrc_aligned hl.src, tileAdmitted_iff.2 fun k => ?_⟩, ?_, ?_⟩
  · rw [hparams, processedN_loopStart_tileAddr hl.width]
    exact htile k
  · rw [encoded_curDst, processedN_loopStart_curDst]
    exact rangeAddr_aligned hl.dst n
  · rw [encoded_params, hparams, encoded_curDst, processedN_loopStart_curDst]
    exact hword

/-- Iteration `n` reads tile `n` of the image as it was before the PROCESS. -/
theorem readTile_processedN {s : State} (hm : Memory.wf s.mem = true) (hw : s.widthLegal = true)
    (h : s.SourceApart) {n : Nat} (hn : n < s.blocks.toNat) :
    readTile (processedN n (loopStart s)) = s.walkTile s.mem n := by
  have hchannels : (processedN n (loopStart s)).alphaAsLuma = s.alphaAsLuma := by
    rw [State.alphaAsLuma, processedN_cfg]
    rfl
  have hpixel (k : Fin 16) : memRead4 (processedN n (loopStart s)).mem (walkPixelAddr s.src s.width n k) =
      memRead4 s.mem (walkPixelAddr s.src s.width n k) :=
    memRead4_congr fun i hi => readByte_processedN_loopStart hm fun m hmn => h m n i (by omega) hn hi k
  simp only [readTile, State.walkTile, hchannels, processedN_loopStart_tileAddr hw, hpixel]

/-- The word iteration `n` stores is still there after all of them. -/
theorem memRead8_processedN {s : State} (hm : Memory.wf s.mem = true) (hd : aligned s.dst 8 = true) {n N : Nat}
    (hn : n < N) (hN : N ≤ 2 ^ 29) : memRead8 (processedN N (loopStart s)).mem (s.rangeAddr n) =
      (kernel s.kernelId (readTile (processedN n (loopStart s)))).2 := by
  obtain ⟨j, rfl⟩ : ∃ j, N = n + 1 + j := ⟨N - (n + 1), by omega⟩
  have hwf (i : Nat) : Memory.wf (processedN i (loopStart s)).mem = true := wf_processedN (s := loopStart s) hm i
  have hkid : (processedN n (loopStart s)).ksel = s.kernelId := processedN_ksel n (loopStart s)
  have hlater : memRead8 (processedN (n + 1 + j) (loopStart s)).mem (s.rangeAddr n) =
      memRead8 (processedN (n + 1) (loopStart s)).mem (s.rangeAddr n) := by
    rw [processedN_add]
    refine memRead8_congr fun i hi => readByte_processedN (hwf _) j fun m hmj => ?_
    rw [processedN_loopStart_curDst, rangeAddr_add]
    exact not_inBytes_rangeAddr hd (by omega) (by omega) (by omega) ⟨Nat.le_add_right _ _, by omega⟩
  rw [hlater, processedN_succ, processed_mem, processedN_loopStart_curDst, memRead8_memWrite8 (hwf n), hkid]

/-- Settles O13. All iterations go through; each reads its tile undisturbed and its word stays. -/
theorem processEncodesEveryBlock : Obligations.ProcessEncodesEveryBlock := by
  intro s hs hm h0 h4 hsrc hdst hadmitted hapart
  have hl : s.ArgumentsLegal := argumentsLegal_iff.2 ⟨h0, h4, hsrc, hdst⟩
  have hapart : s.SourceApart := hapart
  have hrem : s.blocks - BitVec.ofNat 32 s.blocks.toNat = 0#32 := by
    rw [BitVec.ofNat_toNat, BitVec.setWidth_eq, BitVec.sub_self]
  have hend := complete_processedN hs s.blocks.toNat
  rw [hrem] at hend
  refine ⟨_, execProcess_go hl fun n hn => blockLegal_of_admitted hl (hadmitted n hn).1 (hadmitted n hn).2,
    hend, fun n hn => ?_, fun a ha => readByte_processedN_loopStart hm ha⟩
  rw [complete_mem, memRead8_processedN hm hl.dst hn (hapart.blocks_le hl.dst),
    readTile_processedN hm hl.width hapart hn]

end Sys2Proof.Machine
end

section
/-! PACK as one step: its checks, the bits of the word it leaves, and what the decoder makes of that word
(43_packer.md R115 to R121). -/

namespace Sys2Proof.Machine

/-! ## The checks (43_packer.md R120) -/

theorem packBody_legal {s : State} (h : s.packOperandsLegal) :
    packBody s = .go { s with blk := permute (packedWord s) } := by
  rcases packBody_cases s with ⟨-, hgo⟩ | ⟨hillegal, -⟩
  · exact hgo
  · rw [(packLegal_iff s).2 h] at hillegal
    cases hillegal

theorem packBody_illegal {s : State} (h : ¬ s.packOperandsLegal) : packBody s = .stop (raise .range s) := by
  rcases packBody_cases s with ⟨hlegal, -⟩ | ⟨-, hstop⟩
  · exact absurd ((packLegal_iff s).1 hlegal) h
  · exact hstop

theorem exec_pack_legal {s : State} (hs : s.Idle) (h : s.packOperandsLegal) :
    exec .pack s = .next { s with blk := permute (packedWord s) } :=
  runCommand_completes (body := packBody) hs (packBody_legal (s := accept s) h) rfl rfl

/-- Settles O30. The one check of the pseudocode is all of the rule's, and it fails before `BLK` is written. -/
theorem packChecksOperands : Obligations.PackChecksOperands := fun s _ h =>
  runCommand_raises (body := packBody) (packBody_illegal (s := accept s) h)

/-! ## The free bits of a PLANAR word (43_packer.md R119) -/

theorem getLsbD_extract_low {w : Nat} (x : BitVec w) {i n : Nat} (h : i < n) :
    (x.extractLsb' 0 n).getLsbD i = x.getLsbD i := by
  rw [BitVec.getLsbD_extractLsb', decide_eq_true h, Bool.true_and, Nat.zero_add]

/-- A planar word whose red and green free bits repeat the sign of the deltas is well-formed when blue overflows. -/
theorem planar_wf_eq_blue {f : PlanarFields} (hr : f.f31 = f.ro.getLsbD 1) (hg : f.f23 = f.go.getLsbD 1) :
    f.wf = overflows f.b1 f.db := by
  have red : overflows f.r1 f.dr = false := by
    rw [PlanarFields.r1, hr, ← getLsbD_extract_low f.ro (show 1 < 2 by decide)]
    exact red_free_bit _ _ _
  have green : overflows f.g1 f.dg = false := by
    rw [PlanarFields.g1, hg, ← getLsbD_extract_low f.go (show 1 < 2 by decide)]
    exact red_free_bit _ _ _
  rw [PlanarFields.wf, red, green, Bool.not_false, Bool.and_self, Bool.true_and]

/-- With PACK's free bits for red and green, those for blue must be PACK's too. -/
theorem planar_wf_iff_blue_free_bits {f : PlanarFields} (hr : f.f31 = f.ro.getLsbD 1)
    (hg : f.f23 = f.go.getLsbD 1) : f.wf = true ↔
      f.f15_13 = (if blueHigh f.bo then 0b111#3 else 0b000#3) ∧ f.f10 = !blueHigh f.bo := by
  rw [planar_wf_eq_blue hr hg, PlanarFields.b1, PlanarFields.db, blue_free_bits, decide_eq_true_iff, blueHigh]
  split
  case isTrue h => rw [decide_eq_true h, if_pos rfl, Bool.not_true]
  case isFalse h => rw [decide_eq_false h, if_neg Bool.false_ne_true, Bool.not_false]

theorem planarWithFreeBits_wf (ro : BitVec 6) (go : BitVec 7) (bo rh : BitVec 6) (gh : BitVec 7)
    (bh rv : BitVec 6) (gv : BitVec 7) (bv : BitVec 6) :
    (planarWithFreeBits ro go bo rh gh bh rv gv bv).wf = true :=
  (planar_wf_iff_blue_free_bits rfl rfl).2 ⟨rfl, rfl⟩

/-- Settles O33. Red and green are in range by their free bits; then the class is a matter of the blue ones. -/
theorem planarFreeBitsForceBlueOverflow : Obligations.PlanarFreeBitsForceBlueOverflow := by
  rintro ro go bo rh gh bh rv gv bv _ rfl
  exact ⟨planarWithFreeBits_wf .., fun _ _ hwf => (planar_wf_iff_blue_free_bits rfl rfl).1 hwf⟩

/-! ## The decoder's view of the packed word (43_packer.md R121) -/

theorem decodeBlock_packedWord_indiv {s : State} (hm : s.pk0.toNat % 4 = 0) :
    decodeBlock (packedWord s) = .blockIndiv (packIndiv s) := by
  rw [packedWord_indiv hm, decodeBlock_indivWord]

theorem State.packOperandsLegal.diff_wf {s : State} (h : s.packOperandsLegal) (hm : s.pk0.toNat % 4 = 1) :
    (packDiff s).wf = true := by
  obtain ⟨-, -, -, -, hdiff, -⟩ := h
  obtain ⟨h1, h2, hsum⟩ := hdiff hm
  exact (packDiff_wf_iff h1 h2).2 hsum

theorem decodeBlock_packedWord_diff {s : State} (h : s.packOperandsLegal) (hm : s.pk0.toNat % 4 = 1) :
    decodeBlock (packedWord s) = .blockDiff (packDiff s) := by
  rw [packedWord_diff hm, decodeBlock_diffWord (h.diff_wf hm)]

theorem packPlanar_wf (s : State) : (packPlanar s).wf = true := planarWithFreeBits_wf ..

theorem decodeBlock_packedWord_planar {s : State} (hm : s.pk0.toNat % 4 = 2) :
    decodeBlock (packedWord s) = .blockPlanar (packPlanar s) := by
  rw [packedWord_planar hm, decodeBlock_planarWord (packPlanar_wf s)]

/-- Settles O31. The packed word is the word of a well-formed row, which the decoder gives back. -/
theorem packThenDecodeReturnsFields : Obligations.PackThenDecodeReturnsFields := by
  intro s hs h
  have hdecode := decodeRunsItsBlockWord { s with blk := permute (packedWord s) }
  have hrow := congrArg decodeBlock (permute_permute (packedWord s))
  exact ⟨_, decodeBlock (packedWord s), exec_pack_legal hs h, hdecode.trans (congrArg (exec · _) hrow), hrow,
    (encodeWord_decodeBlock _).2, decodeBlock_packedWord_indiv, decodeBlock_packedWord_diff h,
    decodeBlock_packedWord_planar⟩

/-! ## The bits of the packed word (43_packer.md R117 to R119) -/

theorem indivFields_packedWord {s : State} (hm : s.pk0.toNat % 4 = 0) :
    indivFields (packedWord s) = packIndiv s := by
  rw [packedWord_indiv hm, indivFields_indivWord]

theorem diffFields_packedWord {s : State} (hm : s.pk0.toNat % 4 = 1) :
    diffFields (packedWord s) = packDiff s := by
  rw [packedWord_diff hm, diffFields_diffWord]

theorem planarFields_packedWord {s : State} (hm : s.pk0.toNat % 4 = 2) :
    planarFields (packedWord s) = packPlanar s := by
  rw [packedWord_planar hm, planarFields_planarWord]

/-- The codewords, the flip and mode bits and the selectors of an INDIV or DIFF word. -/
theorem packedWord_etc1_bits {s : State} (hm : s.pk0.toNat % 4 < 2) :
    (packedWord s).getLsbD 0 = s.pk0.getLsbD 2 ∧ (packedWord s).getLsbD 1 = s.pk0.getLsbD 0 ∧
    (packedWord s).extractLsb' 5 3 = s.pk0.extractLsb' 3 3 ∧
    (packedWord s).extractLsb' 2 3 = s.pk0.extractLsb' 6 3 ∧ (packedWord s).extractLsb' 32 32 = s.pk3 := by
  obtain hm | hm : s.pk0.toNat % 4 = 0 ∨ s.pk0.toNat % 4 = 1 := by omega
  · have hf := indivFields_packedWord hm
    refine ⟨congrArg IndivFields.flip hf, ?_, congrArg IndivFields.tcw0 hf, congrArg IndivFields.tcw1 hf, ?_⟩
    · rw [packedWord_indiv hm, indivWord_bit1, pk0_bit0, hm]
      rfl
    · rw [packedWord_indiv hm, indivWord_high]
      exact selector_halves s.pk3
  · have hf := diffFields_packedWord hm
    refine ⟨congrArg DiffFields.flip hf, ?_, congrArg DiffFields.tcw0 hf, congrArg DiffFields.tcw1 hf, ?_⟩
    · rw [packedWord_diff hm, diffWord_bit1, pk0_bit0, hm]
      rfl
    · rw [packedWord_diff hm, diffWord_high]
      exact selector_halves s.pk3

/-- The two pieces of a split field are slices of the register it came from. -/
theorem pieces_of_append_eq_extract {x : Word} {a m n : Nat} {hi : BitVec m} {lo : BitVec n}
    (h : hi ++ lo = x.extractLsb' a (m + n)) : hi = x.extractLsb' (a + n) m ∧ lo = x.extractLsb' a n := by
  constructor
  · rw [← BitVec.extractLsb'_append_eq_left (a := hi) (b := lo), h, extract_extract _ _ _ _ _ (by omega)]
  · rw [← BitVec.extractLsb'_append_eq_right (a := hi) (b := lo), h, extract_extract_low _ _ _ _ (by omega)]

/-- Settles O29. The fields extracted from the packed word are slices of its operands. -/
theorem packAssemblesFields : Obligations.PackAssemblesFields := by
  intro s hs h
  refine ⟨packedWord s, exec_pack_legal hs h, packedWord_etc1_bits, fun hm => ?_, fun hm => ?_, fun hm => ?_⟩
  · have hf := indivFields_packedWord hm
    simp only [indivFields, packIndiv, redByte, greenByte, blueByte, IndivFields.mk.injEq] at hf
    obtain ⟨-, -, -, r1, g1, b1, r2, g2, b2, -, -⟩ := hf
    refine ⟨r1.trans ?_, r2.trans ?_, g1.trans ?_, g2.trans ?_, b1.trans ?_, b2.trans ?_⟩ <;>
      exact extract_extract_low _ _ _ _ (by decide)
  · have hf := diffFields_packedWord hm
    simp only [diffFields, packDiff, redByte, greenByte, blueByte, DiffFields.mk.injEq] at hf
    obtain ⟨-, -, -, r1, g1, b1, dr, dg, db, -, -⟩ := hf
    refine ⟨r1.trans ?_, dr.trans ?_, g1.trans ?_, dg.trans ?_, b1.trans ?_, db.trans ?_⟩ <;>
      exact extract_extract_low _ _ _ _ (by decide)
  · have hf := planarFields_packedWord hm
    simp (disch := decide) only [planarFields, packPlanar, planarWithFreeBits, blueHigh, redByte, greenByte, blueByte,
      extract_extract, PlanarFields.mk.injEq] at hf
    obtain ⟨ro, go, bo, rh, gh, bh, rv, gv, bv, f31, f23, f15_13, f10⟩ := hf
    obtain ⟨go6, go0⟩ := pieces_of_append_eq_extract go
    obtain ⟨bo3, bo0⟩ := pieces_of_append_eq_extract bo
    obtain ⟨bo5, bo3⟩ := pieces_of_append_eq_extract bo3
    obtain ⟨rh1, rh0⟩ := pieces_of_append_eq_extract rh
    have bit0 : (packedWord s).getLsbD 0 = s.pk2.getLsbD 0 := by
      rw [BitVec.getLsbD_eq_extractLsb', rh0, BitVec.getLsbD_eq_extractLsb']
    have bit1 : (packedWord s).getLsbD 1 = true := by rw [packedWord_planar hm, planarWord_bit1]
    refine ⟨ro, go6, go0, bo5, bo3, bo0, rh1, bit0, bit1, gh, bh, rv, gv, bv,
      f31.trans (BitVec.getLsbD_extractLsb' ..), f23.trans (BitVec.getLsbD_extractLsb' ..), fun hblue => ?_,
      fun hblue => ?_⟩
    · have high := decide_eq_true hblue
      exact ⟨f15_13.trans (if_pos high), f10.trans (congrArg not high)⟩
    · have low := decide_eq_false (not_le.2 hblue)
      exact ⟨f15_13.trans (if_neg (ne_true_of_eq_false low)), f10.trans (congrArg not low)⟩

end Sys2Proof.Machine
end

section
/-! Every INDIV or DIFF word is packed from one setting of the operand registers (43_packer.md R121 item 4). -/

namespace Sys2Proof.Machine

/-! ## Colour registers (43_packer.md R116) -/

/-- The colour register with three fields right-aligned in its bytes. -/
def colourRegister {n : Nat} (r g b : BitVec n) : Word :=
  word4 (r.setWidth 8) (g.setWidth 8) (b.setWidth 8) 0#8

theorem extract_word4 (b0 b1 b2 b3 : Byte) :
    (word4 b0 b1 b2 b3).extractLsb' 0 8 = b0 ∧ (word4 b0 b1 b2 b3).extractLsb' 8 8 = b1 ∧
    (word4 b0 b1 b2 b3).extractLsb' 16 8 = b2 ∧ (word4 b0 b1 b2 b3).extractLsb' 24 8 = b3 := by
  simpa only [bytes4, List.cons.injEq, and_true] using bytes4_word4 b0 b1 b2 b3

theorem redByte_colourRegister {n : Nat} (r g b : BitVec n) : redByte (colourRegister r g b) = r.setWidth 8 :=
  (extract_word4 _ _ _ _).1

theorem greenByte_colourRegister {n : Nat} (r g b : BitVec n) : greenByte (colourRegister r g b) = g.setWidth 8 :=
  (extract_word4 _ _ _ _).2.1

theorem blueByte_colourRegister {n : Nat} (r g b : BitVec n) : blueByte (colourRegister r g b) = b.setWidth 8 :=
  (extract_word4 _ _ _ _).2.2.1

theorem topByte_colourRegister {n : Nat} (r g b : BitVec n) : topByte (colourRegister r g b) = 0#8 :=
  (extract_word4 _ _ _ _).2.2.2

theorem extract_setWidth_byte {n : Nat} (hn : n ≤ 8) (v : BitVec n) : (v.setWidth 8).extractLsb' 0 n = v := by
  rw [BitVec.extractLsb'_setWidth_of_le (by omega), BitVec.extractLsb'_eq_self]

theorem setWidth_extract_byte {v : Byte} {n : Nat} (h : v.toNat ≤ 2 ^ n - 1) :
    (v.extractLsb' 0 n).setWidth 8 = v := by
  apply BitVec.eq_of_toNat_eq
  rw [BitVec.toNat_setWidth, BitVec.extractLsb'_toNat, Nat.shiftRight_zero,
    Nat.mod_eq_of_lt (Nat.lt_of_le_pred (Nat.two_pow_pos n) h), Nat.mod_eq_of_lt v.isLt]

theorem setWidth_byte_le {n : Nat} (v : BitVec n) : (v.setWidth 8).toNat ≤ 2 ^ n - 1 := by
  have hv := v.isLt
  rw [BitVec.toNat_setWidth]
  exact (Nat.mod_le _ _).trans (by omega)

/-- A colour register passes the checks of its bytes. -/
theorem colourRegister_legal {n : Nat} (r g b : BitVec n) : byteOf (colourRegister r g b) 3 = 0 ∧
    coloursAtMost (colourRegister r g b) (2 ^ n - 1) (2 ^ n - 1) (2 ^ n - 1) := by
  refine ⟨(topByte_eq_zero_iff _).1 (topByte_colourRegister r g b), (colourWithin_iff _ _ _ _).1 ?_⟩
  rw [colourWithin, redByte_colourRegister, greenByte_colourRegister, blueByte_colourRegister,
    decide_eq_true (setWidth_byte_le r), decide_eq_true (setWidth_byte_le g), decide_eq_true (setWidth_byte_le b)]
  rfl

/-- A register that passes the checks is the colour register of its fields. -/
theorem colourRegister_of_fields {x : Word} (n : Nat) (htop : byteOf x 3 = 0)
    (h : coloursAtMost x (2 ^ n - 1) (2 ^ n - 1) (2 ^ n - 1)) :
    colourRegister ((redByte x).extractLsb' 0 n) ((greenByte x).extractLsb' 0 n) ((blueByte x).extractLsb' 0 n) =
      x := by
  rw [← colourWithin_iff, colourWithin, Bool.and_eq_true, Bool.and_eq_true, decide_eq_true_iff, decide_eq_true_iff,
    decide_eq_true_iff] at h
  obtain ⟨⟨hr, hg⟩, hb⟩ := h
  rw [colourRegister, setWidth_extract_byte hr, setWidth_extract_byte hg, setWidth_extract_byte hb,
    ← (topByte_eq_zero_iff x).2 htop]
  exact word4_extract x

/-! ## `PK0` (43_packer.md R116) -/

/-- `PK0` from its fields. -/
def controlRegister (pmode : BitVec 2) (flip : Bool) (tcw0 tcw1 : BitVec 3) : BitVec 9 :=
  tcw1 ++ tcw0 ++ BitVec.ofBool flip ++ pmode

theorem controlRegister_of_fields (x : BitVec 9) :
    controlRegister (x.extractLsb' 0 2) (x.getLsbD 2) (x.extractLsb' 3 3) (x.extractLsb' 6 3) = x := by
  revert x
  decide

theorem controlRegister_pmode (m : BitVec 2) (flip : Bool) (tcw0 tcw1 : BitVec 3) :
    (controlRegister m flip tcw0 tcw1).extractLsb' 0 2 = m := BitVec.extractLsb'_append_eq_right

theorem controlRegister_flip (m : BitVec 2) (flip : Bool) (tcw0 tcw1 : BitVec 3) :
    (controlRegister m flip tcw0 tcw1).getLsbD 2 = flip := by
  revert m flip tcw0 tcw1
  decide

theorem controlRegister_tcw0 (m : BitVec 2) (flip : Bool) (tcw0 tcw1 : BitVec 3) :
    (controlRegister m flip tcw0 tcw1).extractLsb' 3 3 = tcw0 := by
  revert m flip tcw0 tcw1
  decide

theorem controlRegister_tcw1 (m : BitVec 2) (flip : Bool) (tcw0 tcw1 : BitVec 3) :
    (controlRegister m flip tcw0 tcw1).extractLsb' 6 3 = tcw1 := by
  revert m flip tcw0 tcw1
  decide

/-! ## The operands of a word -/

/-- What PACK packs an INDIV word from. -/
def indivOperands (f : IndivFields) : BitVec 9 × Word × Word × Word :=
  (controlRegister 0#2 f.flip f.tcw0 f.tcw1, colourRegister f.r1 f.g1 f.b1, colourRegister f.r2 f.g2 f.b2,
    f.selM ++ f.selL)

/-- What PACK packs a DIFF word from. -/
def diffOperands (f : DiffFields) : BitVec 9 × Word × Word × Word :=
  (controlRegister 1#2 f.flip f.tcw0 f.tcw1, colourRegister f.r1 f.g1 f.b1, colourRegister f.dr f.dg f.db,
    f.selM ++ f.selL)

section

variable (s : State)

theorem indivOperands_pmode (f : IndivFields) : (s.withPack (indivOperands f)).pk0.toNat % 4 = 0 := by
  rw [← pmode_toNat]
  exact congrArg BitVec.toNat (controlRegister_pmode ..)

theorem diffOperands_pmode (f : DiffFields) : (s.withPack (diffOperands f)).pk0.toNat % 4 = 1 := by
  rw [← pmode_toNat]
  exact congrArg BitVec.toNat (controlRegister_pmode ..)

theorem packIndiv_indivOperands (f : IndivFields) : packIndiv (s.withPack (indivOperands f)) = f := by
  simp only [packIndiv, State.withPack, State.packFlip, State.packTcw0, State.packTcw1, indivOperands,
    controlRegister_flip, controlRegister_tcw0, controlRegister_tcw1, redByte_colourRegister, greenByte_colourRegister,
    blueByte_colourRegister, extract_setWidth_byte (show 4 ≤ 8 by decide), BitVec.extractLsb'_append_eq_right,
    BitVec.extractLsb'_append_eq_left]

theorem packDiff_diffOperands (f : DiffFields) : packDiff (s.withPack (diffOperands f)) = f := by
  simp only [packDiff, State.withPack, State.packFlip, State.packTcw0, State.packTcw1, diffOperands,
    controlRegister_flip, controlRegister_tcw0, controlRegister_tcw1, redByte_colourRegister, greenByte_colourRegister,
    blueByte_colourRegister, extract_setWidth_byte (show 3 ≤ 8 by decide),
    extract_setWidth_byte (show 5 ≤ 8 by decide), BitVec.extractLsb'_append_eq_right,
    BitVec.extractLsb'_append_eq_left]

theorem indivOperands_legal (f : IndivFields) : (s.withPack (indivOperands f)).packOperandsLegal := by
  obtain ⟨htop1, hmax1⟩ := colourRegister_legal f.r1 f.g1 f.b1
  obtain ⟨htop2, hmax2⟩ := colourRegister_legal f.r2 f.g2 f.b2
  have hm := indivOperands_pmode s f
  exact ⟨by omega, htop1, htop2, fun _ => ⟨hmax1, hmax2⟩, fun _ => by omega, fun _ => by omega⟩

theorem diffOperands_legal {f : DiffFields} (hf : f.wf = true) : (s.withPack (diffOperands f)).packOperandsLegal := by
  obtain ⟨htop1, hmax1⟩ := colourRegister_legal f.r1 f.g1 f.b1
  obtain ⟨htop2, hmax2⟩ := colourRegister_legal f.dr f.dg f.db
  have hm := diffOperands_pmode s f
  rw [← packDiff_diffOperands s f] at hf
  exact ⟨by omega, htop1, htop2, fun _ => by omega, fun _ => ⟨hmax1, hmax2, (packDiff_wf_iff hmax1 hmax2).1 hf⟩,
    fun _ => by omega⟩

end

theorem controlRegister_pk0 {s : State} {m : BitVec 2} (hm : s.pk0.toNat % 4 = m.toNat) :
    controlRegister m s.packFlip s.packTcw0 s.packTcw1 = s.pk0 := by
  obtain rfl : s.pmode = m := BitVec.eq_of_toNat_eq ((pmode_toNat s).trans hm)
  exact controlRegister_of_fields s.pk0

theorem indivOperands_packIndiv {s : State} (h : s.packOperandsLegal) (hm : s.pk0.toNat % 4 = 0) :
    indivOperands (packIndiv s) = (s.pk0, s.pk1, s.pk2, s.pk3) := by
  obtain ⟨-, htop1, htop2, hindiv, -, -⟩ := h
  obtain ⟨hmax1, hmax2⟩ := hindiv hm
  rw [indivOperands, ← controlRegister_pk0 (m := 0#2) hm, ← colourRegister_of_fields 4 htop1 hmax1,
    ← colourRegister_of_fields 4 htop2 hmax2, ← selector_halves s.pk3]
  rfl

theorem diffOperands_packDiff {s : State} (h : s.packOperandsLegal) (hm : s.pk0.toNat % 4 = 1) :
    diffOperands (packDiff s) = (s.pk0, s.pk1, s.pk2, s.pk3) := by
  obtain ⟨-, htop1, htop2, -, hdiff, -⟩ := h
  obtain ⟨hmax1, hmax2, -⟩ := hdiff hm
  rw [diffOperands, ← controlRegister_pk0 (m := 1#2) hm, ← colourRegister_of_fields 5 htop1 hmax1,
    ← colourRegister_of_fields 3 htop2 hmax2, ← selector_halves s.pk3]
  rfl

/-! ## The operands PACK makes a word from -/

/-- A ready unit shows by the word it is left with, and by not raising, what PACK did. -/
theorem exec_pack_eq_iff {s : State} (hs : s.Ready) (w : BlockWord) :
    exec .pack s = .next { s with blk := permute w } ↔ s.packOperandsLegal ∧ packedWord s = w := by
  constructor
  · intro h
    by_cases hlegal : s.packOperandsLegal
    · rw [exec_pack_legal hs.toIdle hlegal] at h
      exact ⟨hlegal, permute_injective (congrArg State.blk (Host.Outcome.next.inj h))⟩
    · rw [packChecksOperands s hs.toIdle hlegal] at h
      have hraised : Err.range = s.ecode := congrArg State.ecode (Host.Outcome.next.inj h)
      rw [hs.ecode] at hraised
      cases hraised
  · rintro ⟨hlegal, rfl⟩
    exact exec_pack_legal hs.toIdle hlegal

/-- The mode of legal operands is that of the row their word decodes to. -/
theorem decodeBlock_packedWord {s : State} (h : s.packOperandsLegal) :
    (s.pk0.toNat % 4 = 0 ∧ decodeBlock (packedWord s) = .blockIndiv (packIndiv s)) ∨
    (s.pk0.toNat % 4 = 1 ∧ decodeBlock (packedWord s) = .blockDiff (packDiff s)) ∨
    (s.pk0.toNat % 4 = 2 ∧ decodeBlock (packedWord s) = .blockPlanar (packPlanar s)) := by
  have hne : s.pk0.toNat % 4 ≠ 3 := h.1
  obtain hm | hm | hm : s.pk0.toNat % 4 = 0 ∨ s.pk0.toNat % 4 = 1 ∨ s.pk0.toNat % 4 = 2 := by omega
  · exact .inl ⟨hm, decodeBlock_packedWord_indiv hm⟩
  · exact .inr (.inl ⟨hm, decodeBlock_packedWord_diff h hm⟩)
  · exact .inr (.inr ⟨hm, decodeBlock_packedWord_planar hm⟩)

theorem packs_indiv_iff {s : State} {w : BlockWord} {f : IndivFields} (hw : decodeBlock w = .blockIndiv f)
    (p : BitVec 9 × Word × Word × Word) :
    (s.withPack p).packOperandsLegal ∧ packedWord (s.withPack p) = w ↔ p = indivOperands f := by
  constructor
  · rintro ⟨hlegal, rfl⟩
    obtain ⟨hm, e⟩ | ⟨-, e⟩ | ⟨-, e⟩ := decodeBlock_packedWord hlegal <;> rw [e] at hw
    · obtain rfl := Instr.blockIndiv.inj hw
      exact (indivOperands_packIndiv hlegal hm).symm
    · cases hw
    · cases hw
  · rintro rfl
    refine ⟨indivOperands_legal s f, ?_⟩
    rw [packedWord_indiv (indivOperands_pmode s f), packIndiv_indivOperands]
    exact Encoded.block.inj (encodeWord_of_decodeBlock hw)

theorem packs_diff_iff {s : State} {w : BlockWord} {f : DiffFields} (hw : decodeBlock w = .blockDiff f)
    (hf : f.wf = true) (p : BitVec 9 × Word × Word × Word) :
    (s.withPack p).packOperandsLegal ∧ packedWord (s.withPack p) = w ↔ p = diffOperands f := by
  constructor
  · rintro ⟨hlegal, rfl⟩
    obtain ⟨-, e⟩ | ⟨hm, e⟩ | ⟨-, e⟩ := decodeBlock_packedWord hlegal <;> rw [e] at hw
    · cases hw
    · obtain rfl := Instr.blockDiff.inj hw
      exact (diffOperands_packDiff hlegal hm).symm
    · cases hw
  · rintro rfl
    refine ⟨diffOperands_legal s hf, ?_⟩
    rw [packedWord_diff (diffOperands_pmode s f), packDiff_diffOperands]
    exact Encoded.block.inj (encodeWord_of_decodeBlock hw)

theorem State.Ready.withPack {s : State} (hs : s.Ready) (p : BitVec 9 × Word × Word × Word) : (s.withPack p).Ready :=
  { hs with }

/-- Settles O32. The one setting is the fields of the word, put in the operand registers. -/
theorem packReachesEveryEtc1WordOnce : Obligations.PackReachesEveryEtc1WordOnce := by
  intro s w hs hclass
  simp only [exec_pack_eq_iff (hs.withPack _)]
  obtain hclass | hclass := hclass
  · have hw : decodeBlock w = .blockIndiv (indivFields w) := by rw [decodeBlock, hclass]
    simp only [packs_indiv_iff hw, existsUnique_eq]
  · have hw : decodeBlock w = .blockDiff (diffFields w) := by rw [decodeBlock, hclass]
    simp only [packs_diff_iff hw (diffFields_wf hclass), existsUnique_eq]

end Sys2Proof.Machine
end

section
/-! The life of a command (44_control.md R125 to R128): how a command ends and what it changes, its lines beside its
meaning, and the load that `withFetchWord` stands for (notes/assumptions/14.md). -/

namespace Sys2Proof.Machine

/-- Settles O1. NOP's pseudocode leaves the accepted state as it is. -/
theorem nopChangesNothing : Obligations.NopChangesNothing := fun _ hs =>
  runCommand_completes hs rfl rfl rfl

/-! ## How a command ends (44_control.md R127 step 6) -/

/-- The pseudocode an instruction runs once it is accepted. -/
def commandBody : Instr → State → Flow
  | .nop, s => .go s
  | .select, s => .go (selectBody s)
  | .gather, s => gatherBody s
  | .encode, s => .go (encodeBody s)
  | .store, s => storeBody s
  | .process, s => processBody s
  | .load, s => loadBody s
  | .decode, s => .go (decodeBody s)
  | .pack, s => packBody s
  | .start, s => startBody s
  | .sreset, s => .go s.resetUnit
  | .blockIndiv f, s => .go (showBlock .indiv (indivPixels s.params.modtab f) s)
  | .blockDiff f, s => .go (showBlock .diff (diffPixels s.params.modtab f) s)
  | .blockT _, s => .go (showBlock .t blackPixels s)
  | .blockH _, s => .go (showBlock .h blackPixels s)
  | .blockPlanar f, s => .go (showBlock .planar (planarPixels f) s)

theorem exec_of_wellFormed {i : Instr} (hi : i.wellFormed = true) (s : State) :
    exec i s = runCommand (commandBody i) s := by
  cases i with
  | blockDiff | blockT | blockH | blockPlanar => exact if_pos hi
  | _ => rfl

/-- An instruction that answers next has run its pseudocode. -/
theorem runCommand_of_exec_next {i : Instr} {s t : State} (h : exec i s = .next t) :
    runCommand (commandBody i) s = .next t := by
  cases hi : i.wellFormed
  · rw [illFormedBlockTermsAreRefused i s hi] at h
    cases h
  · rw [← exec_of_wellFormed hi, h]

/-- A command's pseudocode goes through, or a `raise` ends it. -/
theorem commandBody_go_or_raise (i : Instr) (s : State) :
    (∃ t, commandBody i s = .go t) ∨ ∃ e t, commandBody i s = .stop (raise e t) := by
  cases i with
  | start => exact (startBody_cases s).imp (fun h => ⟨_, h.2⟩) fun ⟨e, _, h⟩ => ⟨e, s, h⟩
  | gather => exact (gatherBody_cases s).imp (fun h => ⟨_, h.2⟩) fun ⟨e, _, h⟩ => ⟨e, s, h⟩
  | store => exact (storeBody_cases s).imp (fun h => ⟨_, h.2⟩) fun ⟨e, _, h⟩ => ⟨e, s, h⟩
  | load => exact (loadBody_cases s).imp (fun h => ⟨_, h.2⟩) fun ⟨e, _, h⟩ => ⟨e, s, h⟩
  | pack => exact (packBody_cases s).imp (fun h => ⟨_, h.2⟩) fun h => ⟨.range, s, h.2⟩
  | process =>
    rcases processBody_cases s with ⟨e, -, -, h⟩ | ⟨-, h⟩
    · exact .inr ⟨e, s, h⟩
    · exact (processLoop_frame s.blocks.toNat (selectBody (initCursor s))).imp
        (fun ⟨t, ht, _⟩ => ⟨t, h.trans ht⟩) fun ⟨t, e, ht, _⟩ => ⟨e, t, h.trans ht⟩
  | _ => exact .inl ⟨_, rfl⟩

/-- Settles O43. Completion and `raise` both leave the unit idle, and a command ends in no other way. -/
theorem commandsEndIdle : Obligations.CommandsEndIdle := by
  intro i s t h
  have hrun := runCommand_of_exec_next h
  rcases commandBody_go_or_raise i (accept s) with ⟨u, hu⟩ | ⟨e, u, hu⟩
  · rw [runCommand_go hu] at hrun
    exact Host.Outcome.next.inj hrun ▸ complete_idle u
  · rw [runCommand_stop hu] at hrun
    exact Host.Outcome.next.inj hrun ▸ raise_idle e u

/-! ## What a command changes (44_control.md R128) -/

/-- Nothing differs but `BUSY`, `ECODE` and the lines left to do. -/
def State.SameButEnd (s t : State) : Prop := t = { s with busy := t.busy, ecode := t.ecode, todo := t.todo }

/-- The end of a command touches nothing of what its pseudocode left but `BUSY` and the lines. -/
theorem runCommand_leaves {body : State → Flow} {s t : State} (h : runCommand body s = .next t) :
    t = { (body (accept s)).state with busy := t.busy, todo := t.todo } := by
  rcases runCommand_cases h with ⟨u, hu, rfl⟩ | hu <;> rw [hu] <;> rfl

theorem exec_leaves {i : Instr} {s t : State} (h : exec i s = .next t) :
    t = { (commandBody i (accept s)).state with busy := t.busy, todo := t.todo } :=
  runCommand_leaves (runCommand_of_exec_next h)

section

variable {s t : State}

theorem exec_nop_frame (h : exec .nop s = .next t) : s.SameButEnd t := by
  rw [exec_leaves h]
  rfl

theorem exec_select_frame (h : exec .select s = .next t) : s.SameButEnd { t with ksel := s.ksel } := by
  rw [exec_leaves h]
  rfl

theorem exec_start_frame (h : exec .start s = .next t) :
    s.SameButEnd { t with curSrc := s.curSrc, curDst := s.curDst, tcnt := s.tcnt, rem := s.rem } := by
  rw [exec_leaves h, commandBody]
  rcases startBody_cases (accept s) with ⟨-, hb⟩ | ⟨e, -, hb⟩ <;> rw [hb] <;> rfl

theorem exec_gather_frame (h : exec .gather s = .next t) :
    s.SameButEnd { t with tile := s.tile, curSrc := s.curSrc, tcnt := s.tcnt } := by
  rw [exec_leaves h, commandBody]
  rcases gatherBody_cases (accept s) with ⟨-, hb⟩ | ⟨e, -, hb⟩ <;> rw [hb]
  · rw [state_go, advance_frame]
    rfl
  · rfl

/-- A kernel without bit 1 leaves the tile as it is (40_selector.md R72). -/
theorem kernel_tile_of_not_dithered {kid : BitVec 3} (h : kid.getLsbD 1 = false) (u : Tile) :
    (kernel kid u).1 = u := by
  rw [kernel, ditheredTile, h]
  rfl

theorem exec_encode_frame (h : exec .encode s = .next t) :
    s.SameButEnd { t with blk := s.blk, tile := if s.ksel.getLsbD 1 then s.tile else t.tile } := by
  rw [exec_leaves h, commandBody, state_go]
  cases hd : s.ksel.getLsbD 1
  · have htile : (encodeBody (accept s)).tile = s.tile := kernel_tile_of_not_dithered hd s.tile
    rw [htile]
    rfl
  · rfl

theorem exec_store_frame (h : exec .store s = .next t) :
    s.SameButEnd { t with mem := s.mem, curDst := s.curDst } := by
  rw [exec_leaves h, commandBody]
  rcases storeBody_cases (accept s) with ⟨-, hb⟩ | ⟨e, -, hb⟩ <;> rw [hb] <;> rfl

theorem exec_process_frame (h : exec .process s = .next t) :
    s.SameButEnd { t with
      ksel := s.ksel, curSrc := s.curSrc, curDst := s.curDst, tcnt := s.tcnt, rem := s.rem
      tile := s.tile, blk := s.blk, mem := s.mem } := by
  rw [exec_leaves h, commandBody]
  rcases processBody_cases (accept s) with ⟨e, -, -, hb⟩ | ⟨-, hb⟩ <;> rw [hb]
  · rfl
  · rcases processLoop_frame (accept s).blocks.toNat (selectBody (initCursor (accept s))) with
      ⟨u, hu, hf⟩ | ⟨u, e, hu, -, hf⟩ <;> rw [hu, hf] <;> rfl

theorem exec_load_frame (h : exec .load s = .next t) :
    s.SameButEnd { t with blk := s.blk, curDst := s.curDst } := by
  rw [exec_leaves h, commandBody]
  rcases loadBody_cases (accept s) with ⟨-, hb⟩ | ⟨e, -, hb⟩ <;> rw [hb] <;> rfl

theorem exec_pack_frame (h : exec .pack s = .next t) : s.SameButEnd { t with blk := s.blk } := by
  rw [exec_leaves h, commandBody]
  rcases packBody_cases (accept s) with ⟨-, hb⟩ | ⟨-, hb⟩ <;> rw [hb] <;> rfl

theorem exec_decodeBlock_frame {w : BlockWord} (h : exec (decodeBlock w) s = .next t) :
    s.SameButEnd { t with pix := s.pix, mode := s.mode, unk := s.unk } := by
  rw [runCommand_leaves ((exec_decodeBlock w s).symm.trans h)]
  rfl

theorem exec_decode_frame (h : exec .decode s = .next t) :
    s.SameButEnd { t with pix := s.pix, mode := s.mode, unk := s.unk } :=
  exec_decodeBlock_frame ((decodeRunsItsBlockWord s).symm.trans h)

/-- SRESET leaves what is not the unit's. -/
theorem exec_sreset_frame (h : exec .sreset s = .next t) :
    t.mem = s.mem ∧ t.params = s.params ∧ t.inputs = s.inputs := by
  obtain rfl := Host.Outcome.next.inj ((exec_sreset s).symm.trans h)
  exact ⟨rfl, rfl, rfl⟩

end

/-- Settles O45. The frame of each command, from everything its pseudocode can do. -/
theorem commandsChangeOnlyWhatIsListed : Obligations.CommandsChangeOnlyWhatIsListed := by
  intro s t same hsame
  obtain rfl : same = s.SameButEnd := funext fun u => propext (hsame u)
  exact ⟨exec_nop_frame, exec_select_frame, exec_start_frame, exec_gather_frame, exec_encode_frame,
    exec_store_frame, exec_process_frame, exec_load_frame, exec_decode_frame, exec_pack_frame,
    exec_sreset_frame, fun _ => exec_decodeBlock_frame⟩

/-! ## A command taken line by line (44_control.md R127 steps 4 to 6) -/

/-- A write of `CMD` starts no command, whatever way of running one is asked for, or it starts the one its word
decodes to. -/
theorem commandWrite_settles_or_starts (v : Word) (s : State) :
    (∃ t, ∀ run, commandWrite run v s = .next t) ∨
    ∃ i, decodeCommand v = .ok i ∧ ∀ run, commandWrite run v s = run i s := by
  cases hb : s.busy
  · by_cases he : s.ecode = .none
    · by_cases hv : ∃ i, decodeCommand v = .ok i
      · obtain ⟨i, hi⟩ := hv
        exact .inr ⟨i, hi, fun _ => commandWrite_legal hb he hi⟩
      · exact .inl ⟨_, fun _ => commandWrite_illegal hb he (not_exists.1 hv)⟩
    · by_cases hv : v = 0x0000000F#32
      · subst hv
        exact .inr ⟨.sreset, rfl, fun _ => commandWrite_sreset hb he⟩
      · exact .inl ⟨_, fun _ => commandWrite_halted hb he hv⟩
  · exact .inl ⟨_, fun _ => commandWrite_busy hb⟩

/-- Settles O59. Both writes start the same command, whose lines end where its meaning does, or start none. -/
theorem linesOfACommandReachItsMeaning : Obligations.LinesOfACommandReachItsMeaning := by
  intro s t v _ h
  rw [hostEvent_write_cmd] at h
  rcases commandWrite_settles_or_starts v s with ⟨u, hu⟩ | ⟨i, hv, hrun⟩
  · rw [hu] at h
    exact ⟨u, 0, hu beginCommand, Host.Outcome.next.inj h⟩
  · rw [hrun] at h
    obtain ⟨n, hn⟩ := exec_ticks hv h
    exact ⟨begun i s, n, hrun beginCommand, hn⟩

/-! ## The word `withFetchWord` loads (notes/assumptions/11.md, 14.md) -/

/-- A 32-bit row of the opcode table is a command word. -/
theorem decodeCommand_of_decodeTableWord {w : Nat} {i : Instr} (h : decodeTableWord 32 w = some i) :
    decodeCommand (BitVec.ofNat 32 w) = .ok i := by
  rcases hv : decodeCommand (BitVec.ofNat 32 w) with e | j
  · simp [decodeTableWord, decode, bytes4, hv] at h
  · simpa [decodeTableWord, decode, bytes4, hv] using h

/-- A row of another width is a decode word. -/
theorem decodeTableWord_block {nbits : Nat} (hn : nbits ≠ 32) (w : Nat) :
    decodeTableWord nbits w = some (decodeBlock (BitVec.ofNat 64 w)) := by
  simp [decodeTableWord, hn, decode, bytes8]

/-- The next step after the load of a command word is that command on a ready unit. -/
theorem step_withCommand {v : Word} {i : Instr} (s : State) (hv : decodeCommand v = .ok i) :
    step (withCommand s v) = exec i { s with busy := false, todo := [], ecode := .none } :=
  step_command (s := withCommand s v) ⟨⟨rfl, rfl⟩, rfl⟩ rfl hv

/-- The next step after the load of a block word is the row of that word, on a ready unit that holds it in `BLK`. -/
theorem step_withBlockWord (s : State) (w : BlockWord) :
    step (withBlockWord s w) =
      exec (decodeBlock w) { s with busy := false, todo := [], ecode := .none, blk := permute w } := by
  rw [withBlockWord, step_withCommand _ (i := .decode) rfl, decodeRunsItsBlockWord, permute_permute]

/-- Settles O47. A command word is written to `CMD`; a block word is what DECODE finds in `BLK`. -/
theorem fetchWordRunsTableInstruction : Obligations.FetchWordRunsTableInstruction := by
  intro s nbits w i h
  by_cases hn : nbits = 32
  · subst hn
    exact ⟨_, step_withCommand s (decodeCommand_of_decodeTableWord h), ⟨⟨rfl, rfl⟩, rfl⟩, rfl, fun _ => rfl,
      fun hne => absurd rfl hne⟩
  · obtain rfl : decodeBlock (BitVec.ofNat 64 w) = i :=
      Option.some.inj ((decodeTableWord_block hn w).symm.trans h)
    rw [State.withFetchWord, if_neg hn]
    exact ⟨_, step_withBlockWord s _, ⟨⟨rfl, rfl⟩, rfl⟩, rfl, fun heq => absurd heq hn,
      fun _ => permute_permute _⟩

end Sys2Proof.Machine
end

section
/-! Errors (60_exceptions.md R130 to R139): what `raise` records and leaves, and which errors each command can
raise. -/

namespace Sys2Proof.Machine

/-! ## `raise` (60_exceptions.md R134) -/

theorem readReg_raise {r : Reg} (h : r ≠ .status) (e : Err) (s : State) : readReg (raise e s) r = readReg s r := by
  cases r with
  | status => exact absurd rfl h
  | _ => rfl

/-- Settles O40. Of all that a register shows, `raise` writes the code and `BUSY`, which only `STATUS` shows. -/
theorem raiseRecordsOnlyTheCode : Obligations.RaiseRecordsOnlyTheCode := by
  intro s e he
  refine ⟨fun r hr => readReg_raise hr e s, statusWord_ecode _, ?_, statusWord_busy _, ?_, rfl, rfl, rfl, rfl, rfl⟩
  · exact (statusWord_halt _).trans (raise_halted he s)
  · exact (statusWord_mode_unk (raise e s)).trans (statusWord_mode_unk s).symm

/-! ## The errors of each command (60_exceptions.md R139) -/

/-- The table of R139: a block word raises nothing, as DECODE does not. -/
def CanRaise : Instr → Err → Prop
  | .start, e => e = .size ∨ e = .align
  | .gather, e | .process, e => e = .size ∨ e = .align ∨ e = .bus
  | .store, e | .load, e => e = .align ∨ e = .bus
  | .pack, e => e = .range
  | _, _ => False

/-- Pseudocode that goes on without an error, or raises one of `p`, records none or one of `p`. -/
theorem ecode_of_go_or_raise {f : Flow} {s t : State} {legal : Prop} {p : Err → Prop}
    (h : (legal ∧ f = .go t) ∨ ∃ e, p e ∧ f = .stop (raise e s)) (ht : t.ecode = .none) :
    f.state.ecode = .none ∨ p f.state.ecode := by
  rcases h with ⟨-, rfl⟩ | ⟨e, he, rfl⟩
  · exact .inl ht
  · exact .inr he

theorem advance_ecode (s : State) : (advance s).ecode = s.ecode := by rw [advance_frame]

theorem processLoop_ecode {s : State} (hs : s.ecode = .none) (n : Nat) :
    (processLoop n s).state.ecode = .none ∨ CanRaise .process (processLoop n s).state.ecode := by
  rcases processLoop_frame n s with ⟨t, h, hframe⟩ | ⟨t, e, h, he, -⟩ <;> rw [h]
  · exact .inl ((congrArg State.ecode hframe).trans hs)
  · exact .inr he

theorem processBody_ecode {s : State} (hs : s.ecode = .none) :
    (processBody s).state.ecode = .none ∨ CanRaise .process (processBody s).state.ecode := by
  rcases processBody_cases s with ⟨e, he, -, h⟩ | ⟨-, h⟩ <;> rw [h]
  · exact .inr (he.imp_right .inl)
  · exact processLoop_ecode (s := selectBody (initCursor s)) hs _

/-- A command's pseudocode leaves the code none, or one its line of R139 lists. -/
theorem commandBody_ecode (i : Instr) {s : State} (hs : s.ecode = .none) :
    (commandBody i s).state.ecode = .none ∨ CanRaise i (commandBody i s).state.ecode := by
  cases i with
  | start => exact ecode_of_go_or_raise (startBody_cases s) hs
  | gather => exact ecode_of_go_or_raise (gatherBody_cases s) ((advance_ecode _).trans hs)
  | store => exact ecode_of_go_or_raise (storeBody_cases s) hs
  | load => exact ecode_of_go_or_raise (loadBody_cases s) hs
  | pack => exact ecode_of_go_or_raise ((packBody_cases s).imp_right fun h => ⟨.range, rfl, h.2⟩) hs
  | process => exact processBody_ecode hs
  | sreset => exact .inl rfl
  | _ => exact .inl hs

/-- The end of a command records no other code than its pseudocode did. -/
theorem exec_ecode {i : Instr} {s t : State} (hs : s.ecode = .none) (h : exec i s = .next t) :
    t.ecode = .none ∨ CanRaise i t.ecode := by
  have hend : t.ecode = (commandBody i (accept s)).state.ecode := by rw [exec_leaves h]
  exact hend ▸ commandBody_ecode i (s := accept s) hs

/-- Settles O44. Each line of R139 is what `CanRaise` says of its commands. -/
theorem errorsPerCommand : Obligations.ErrorsPerCommand := by
  intro i s t hs h
  have hcode := exec_ecode hs h
  refine ⟨?_, ?_, ?_, ?_, ?_⟩
  · rintro (rfl | rfl | rfl | rfl | rfl) <;> exact hcode.resolve_right id
  · rintro rfl
    exact hcode
  · rintro (rfl | rfl) <;> exact hcode
  · rintro (rfl | rfl) <;> exact hcode
  · rintro rfl
    exact hcode

end Sys2Proof.Machine
end

section
/-! Reset in the middle of a PROCESS: the memory at every line of it is one that a PROCESS of its first blocks
leaves (70_reset_and_hazards.md R151; notes/assumptions/2.md). -/

namespace Sys2Proof.Machine

/-! ## Memory at every line -/

/-- Lines that simulate a command's pseudocode through memories in `R`, with `done` after them, never meet
another memory. -/
theorem SimulatedAt.always {R : Memory → Prop} {body : State → Flow} {lines : List Act} {s t : State}
    (h : SimulatedAt R body lines (accept s)) (e : runCommand body s = .next t) (ht : t.todo = []) (n : Nat) :
    R (ticks n ((accept s).withTodo (lines ++ [.done]))).mem := by
  have hl := h [.done]
  rcases runCommand_cases e with ⟨u, hu, rfl⟩ | hu <;> rw [hu] at hl <;> obtain ⟨hticks, hend⟩ := hl
  · exact (hticks.trans (.step hend (.refl _))).always hend rfl n
  · exact hticks.always hend ht n

/-- The lines of PROCESS meet the memory it starts with, and those of whole iterations that go through. -/
theorem processLines_simulated_through {R : Memory → Prop} {s : State} (hr : R s.mem)
    (h : s.ArgumentsLegal → ∀ n ≤ s.blocks.toNat, (∀ i, i < n → (processedN i (loopStart s)).BlockLegal) →
      R (processedN n (loopStart s)).mem) :
    SimulatedAt R processBody (commandLines .process) (accept s) := by
  refine (startLines_simulated (s := accept s) hr).andThen fun t ht => ?_
  rcases startBody_cases (accept s) with ⟨hl, hgo⟩ | ⟨e, -, hstop⟩
  · obtain rfl := Flow.go.inj (hgo.symm.trans ht)
    refine .update (f := selectBody) (body := fun s => processLoop s.rem.toNat s) hr hr (fun _ => rfl) ?_
    exact processLoop_simulated (s := loopStart s) s.blocks.toNat rfl (h { hl with })
  · rw [hstop] at ht
    cases ht

/-! ## Memories of a PROCESS of fewer blocks -/

/-- A memory that a PROCESS of the first `n` blocks leaves, for some `n` up to `BLOCKS`. -/
def State.LeftByFirstBlocks (s : State) (m : Memory) : Prop :=
  ∃ (n : Nat) (t : State), n ≤ s.blocks.toNat ∧
    exec .process { s with blocks := BitVec.ofNat 32 n } = .next t ∧ t.mem = m

/-- A PROCESS of no blocks, whether it completes or raises, leaves memory as it is. -/
theorem leftByFirstBlocks_mem (s : State) : s.LeftByFirstBlocks s.mem := by
  obtain ⟨t, ht⟩ := runCommand_next processBody { s with blocks := BitVec.ofNat 32 0 }
  obtain ⟨k, hk, hmem⟩ := exec_process_mem ht
  obtain rfl : k = 0 := Nat.le_zero.1 hk
  exact ⟨0, t, Nat.zero_le _, ht, hmem⟩

theorem leftByFirstBlocks_processedN {s : State} {n : Nat} (hl : s.ArgumentsLegal) (hn : n ≤ s.blocks.toNat)
    (hb : ∀ i, i < n → (processedN i (loopStart s)).BlockLegal) :
    s.LeftByFirstBlocks (processedN n (loopStart s)).mem :=
  ⟨n, _, hn, exec_process_blocks (hn.trans_lt s.blocks.isLt) hl hb, rfl⟩

/-- At every line of a PROCESS, memory is what a PROCESS of its first blocks leaves. -/
theorem ticks_begun_process_leftByFirstBlocks (s : State) (j : Nat) :
    s.LeftByFirstBlocks (ticks j (begun .process s)).mem := by
  obtain ⟨t, ht⟩ := runCommand_next processBody s
  exact (processLines_simulated_through (leftByFirstBlocks_mem s) fun hl _ => leftByFirstBlocks_processedN hl).always
    ht (commandsEndIdle .process s t ht).todo j

/-! ## The reset -/

/-- A reset after any number of lines of a command leaves what a reset before it leaves, memory apart. -/
theorem resetUnit_ticks_begun (i : Instr) (s : State) (j : Nat) :
    (ticks j (begun i s)).resetUnit = { s.resetUnit with mem := (ticks j (begun i s)).mem } := by
  obtain ⟨hparams, hinputs, hread⟩ := ticks_outside j (begun i s)
  rw [State.resetUnit, hparams, hinputs, hread]
  rfl

/-- Settles O60. The reset adds nothing to the memory the lines have left, and that is of whole blocks. -/
theorem resetDuringProcessKeepsWholeWords : Obligations.ResetDuringProcessKeepsWholeWords := by
  intro s u j hs hu
  obtain rfl := Host.Outcome.next.inj ((hostEvent_launch hs (i := .process) rfl).symm.trans hu)
  obtain ⟨n, t, hn, ht, hmem⟩ := ticks_begun_process_leftByFirstBlocks s j
  exact ⟨n, t, hn, ht, by rw [hmem, ← resetUnit_ticks_begun]; rfl⟩

end Sys2Proof.Machine
end
